-- ==== Sys2Proof/Word.lean ====
section
/-! DEFINITION. The widths of BPK's values (R14, R21, R60, R90).

Registers, immediates and response values are 32-bit words, elements of DATA, KEY and TAG are bytes, a command is
one 64-bit word. A cover unit is held in 16 bits in both profiles; in profile `BYTE` its upper half stays zero
(log 7). -/

namespace Sys2Proof

/-- A register, an immediate, a response value (R21, R91, R92). -/
abbrev Word := BitVec 32

/-- An element of DATA, KEY or TAG (R60). -/
abbrev Byte := BitVec 8

/-- An element of COVER, wide enough for both profiles (R60, R61, log 7). -/
abbrev CoverUnit := BitVec 16

/-- A command word (R90). -/
abbrev CommandWord := BitVec 64

end Sys2Proof
end

