-- ==== Sys2Proof/Syntax.lean ====
section
/-! DEFINITION. The 25 commands (R95), one constructor per row of spec/opcode_table.json.

The operands are the fields of format `C` the row uses (R91): `a` in 8 bits, `b` in 16, `imm` in 32. A register
number keeps its 8 bits, because 11 to 255 are legal words that fail when the command runs (R93, R99). A byte operand
keeps the 16 bits of `b`; that its upper half is zero is `WellFormed` (R94, log 15). -/

namespace Sys2Proof

/-- A command of BPK (R95). -/
inductive Instr where
  /-- `WRR reg, value`: write register (R121). -/
  | wrr (reg : BitVec 8) (value : Word)
  /-- `RDR reg`: read register (R122). -/
  | rdr (reg : BitVec 8)
  /-- `STC [index], unit`: store a cover unit (R123). -/
  | stc (index : Word) (unit : BitVec 16)
  /-- `LDC [index]`: load a cover unit (R124). -/
  | ldc (index : Word)
  /-- `STD [index], byte`: store a data byte (R125). -/
  | std (index : Word) (b : BitVec 16)
  /-- `LDD [index]`: load a data byte (R126). -/
  | ldd (index : Word)
  /-- `STK [index], byte`: store a key byte (R127). -/
  | stk (index : Word) (b : BitVec 16)
  /-- `LDK [index]`: load a key byte (R128). -/
  | ldk (index : Word)
  /-- `STT [index], byte`: store a tag byte (R129). -/
  | stt (index : Word) (b : BitVec 16)
  /-- `LDT [index]`: load a tag byte (R130). -/
  | ldt (index : Word)
  /-- `BQCLR`: empty the bit queue (R147). -/
  | bqclr
  /-- `PUSHB byte`: one byte to eight bits (R148). -/
  | pushb (b : BitVec 16)
  /-- `POPB`: eight bits to one byte (R149). -/
  | popb
  /-- `PUSHV k, value`: a `k`-bit value to `k` bits (R150). -/
  | pushv (k : BitVec 8) (value : Word)
  /-- `POPV k`: `k` bits to a `k`-bit value (R151). -/
  | popv (k : BitVec 8)
  /-- `PACK k, [index]`: `k` bits into the low bits of a unit (R152). -/
  | pack (k : BitVec 8) (index : Word)
  /-- `UNPACK k, [index]`: the low `k` bits of a unit into bits (R153). -/
  | unpack (k : BitVec 8) (index : Word)
  /-- `DSEED`: derive the seed from the key bytes (R175). -/
  | dseed
  /-- `SEEDACC cp`: one step of `deriveSeed` (R176). -/
  | seedacc (cp : Word)
  /-- `ENC`: encrypt DATA in place (R177). -/
  | enc
  /-- `DEC`: decrypt DATA in place (R178). -/
  | dec
  /-- `CSTART`: compute the random start offset (R196). -/
  | cstart
  /-- `DRAW n`: one draw of the generator (R197). -/
  | draw (n : Word)
  /-- `EMBED` (R216). -/
  | embed
  /-- `EXTRACT` (R219). -/
  | extract
deriving DecidableEq, Repr

end Sys2Proof
end

