-- ==== Sys2Proof/WellFormed.lean ====
section
/-! DEFINITION. Which terms of `Instr` have a command word (R94): for a command whose `b` field is a byte, bits 47 to
40 of the word (`b[15:8]`) must be zero. Every other operand fills its field, so every value of it has a word. -/

namespace Sys2Proof

/-- `b[15:8]` is zero: the 16-bit field holds a byte (R94). -/
def byteField (b : BitVec 16) : Bool := b.extractLsb' 8 8 == 0#8

/-- The term has a command word (R94). -/
def Instr.wellFormed : Instr → Bool
  | .wrr _ _ => true
  | .rdr _ => true
  | .stc _ _ => true
  | .ldc _ => true
  | .std _ b => byteField b
  | .ldd _ => true
  | .stk _ b => byteField b
  | .ldk _ => true
  | .stt _ b => byteField b
  | .ldt _ => true
  | .bqclr => true
  | .pushb b => byteField b
  | .popb => true
  | .pushv _ _ => true
  | .popv _ => true
  | .pack _ _ => true
  | .unpack _ _ => true
  | .dseed => true
  | .seedacc _ => true
  | .enc => true
  | .dec => true
  | .cstart => true
  | .draw _ => true
  | .embed => true
  | .extract => true

end Sys2Proof
end

