-- ==== Sys2Proof/Decode.lean ====
section
/-! DEFINITION. The command word (R90, R91), decoding (R93 to R97) and encoding, over one table of the 25 commands
(R95). -/

namespace Sys2Proof

/-- Field `op`, bits 63 to 56 (R91). -/
def opField (w : CommandWord) : BitVec 8 := w.extractLsb' 56 8

/-- Field `a`, bits 55 to 48 (R91). -/
def aField (w : CommandWord) : BitVec 8 := w.extractLsb' 48 8

/-- Field `b`, bits 47 to 32 (R91). -/
def bField (w : CommandWord) : BitVec 16 := w.extractLsb' 32 16

/-- Field `imm`, bits 31 to 0 (R91). -/
def immField (w : CommandWord) : Word := w.extractLsb' 0 32

/-- The word of four fields, `op` the most significant (R91). -/
def commandWord (op a : BitVec 8) (b : BitVec 16) (imm : Word) : CommandWord := op ++ a ++ b ++ imm

/-- How a command uses field `b` (R94): not at all, as a byte (`b[15:8]` must be zero), or whole. -/
inductive BUse where
  | zero
  | byte
  | whole
deriving DecidableEq, Repr

/-- A row of the opcode map (R95): which fields the command uses, and the command of its fields. -/
structure Row where
  mnemonic : String
  op : BitVec 8
  aUsed : Bool
  bUse : BUse
  immUsed : Bool
  build : BitVec 8 → BitVec 16 → Word → Instr

/-- Family 40 of R95. -/
def hostAccessRows : List Row :=
  [⟨"WRR", 0x01, true, .zero, true, fun a _ imm => .wrr a imm⟩,
   ⟨"RDR", 0x02, true, .zero, false, fun a _ _ => .rdr a⟩,
   ⟨"STC", 0x03, false, .whole, true, fun _ b imm => .stc imm b⟩,
   ⟨"LDC", 0x04, false, .zero, true, fun _ _ imm => .ldc imm⟩,
   ⟨"STD", 0x05, false, .byte, true, fun _ b imm => .std imm b⟩,
   ⟨"LDD", 0x06, false, .zero, true, fun _ _ imm => .ldd imm⟩,
   ⟨"STK", 0x07, false, .byte, true, fun _ b imm => .stk imm b⟩,
   ⟨"LDK", 0x08, false, .zero, true, fun _ _ imm => .ldk imm⟩,
   ⟨"STT", 0x09, false, .byte, true, fun _ b imm => .stt imm b⟩,
   ⟨"LDT", 0x0A, false, .zero, true, fun _ _ imm => .ldt imm⟩]

/-- Family 41 of R95. -/
def bitPackerRows : List Row :=
  [⟨"BQCLR", 0x10, false, .zero, false, fun _ _ _ => .bqclr⟩,
   ⟨"PUSHB", 0x11, false, .byte, false, fun _ b _ => .pushb b⟩,
   ⟨"POPB", 0x12, false, .zero, false, fun _ _ _ => .popb⟩,
   ⟨"PUSHV", 0x13, true, .zero, true, fun a _ imm => .pushv a imm⟩,
   ⟨"POPV", 0x14, true, .zero, false, fun a _ _ => .popv a⟩,
   ⟨"PACK", 0x15, true, .zero, true, fun a _ imm => .pack a imm⟩,
   ⟨"UNPACK", 0x16, true, .zero, true, fun a _ imm => .unpack a imm⟩]

/-- Families 42, 43 and 44 of R95. -/
def streamRows : List Row :=
  [⟨"DSEED", 0x20, false, .zero, false, fun _ _ _ => .dseed⟩,
   ⟨"SEEDACC", 0x21, false, .zero, true, fun _ _ imm => .seedacc imm⟩,
   ⟨"ENC", 0x22, false, .zero, false, fun _ _ _ => .enc⟩,
   ⟨"DEC", 0x23, false, .zero, false, fun _ _ _ => .dec⟩,
   ⟨"CSTART", 0x30, false, .zero, false, fun _ _ _ => .cstart⟩,
   ⟨"DRAW", 0x31, false, .zero, true, fun _ _ imm => .draw imm⟩,
   ⟨"EMBED", 0x40, false, .zero, false, fun _ _ _ => .embed⟩,
   ⟨"EXTRACT", 0x41, false, .zero, false, fun _ _ _ => .extract⟩]

/-- The opcode map (R95). -/
def commandTable : List Row := hostAccessRows ++ bitPackerRows ++ streamRows

/-- A row's `mask` (R94): 1 in every bit of `op` and of every must-be-zero bit. -/
def Row.mask (r : Row) : CommandWord :=
  commandWord 0xFF#8 (if r.aUsed then 0 else 0xFF#8)
    (match r.bUse with
      | .zero => 0xFFFF#16
      | .byte => 0xFF00#16
      | .whole => 0)
    (if r.immUsed then 0 else 0xFFFFFFFF#32)

/-- A row's `match` (R94): the opcode in `op`, 0 elsewhere. -/
def Row.pattern (r : Row) : CommandWord := commandWord r.op 0 0 0

/-- `w` selects the row (R94). -/
def Row.selects (r : Row) (w : CommandWord) : Bool := w &&& r.mask == r.pattern

/-- Every field the command does not use is zero in `w` (R94). -/
def Row.unusedZero (r : Row) (w : CommandWord) : Bool :=
  (r.aUsed || aField w == 0) &&
    (match r.bUse with
      | .zero => bField w == 0
      | .byte => byteField (bField w)
      | .whole => true) &&
    (r.immUsed || immField w == 0)

/-- Why a word is no command (R93): step (1) or step (2). Both are `ILLEGAL_COMMAND` (R96). -/
inductive DecodeError where
  /-- `op` is not one of the 25 opcodes. -/
  | unassignedOpcode
  /-- A field the command does not use is not zero. -/
  | nonzeroUnusedField
deriving DecidableEq, Repr

/-- Decoding, total on all words (R93). -/
def decode (w : CommandWord) : Except DecodeError Instr :=
  match commandTable.find? (fun r => r.op == opField w) with
  | none => .error .unassignedOpcode
  | some r =>
    if r.unusedZero w then .ok (r.build (aField w) (bField w) (immField w)) else .error .nonzeroUnusedField

/-- The word of a command (R91, R95); a command that is not `wellFormed` has none that decodes to it. -/
def encode : Instr → CommandWord
  | .wrr reg value => commandWord 0x01 reg 0 value
  | .rdr reg => commandWord 0x02 reg 0 0
  | .stc index unit => commandWord 0x03 0 unit index
  | .ldc index => commandWord 0x04 0 0 index
  | .std index b => commandWord 0x05 0 b index
  | .ldd index => commandWord 0x06 0 0 index
  | .stk index b => commandWord 0x07 0 b index
  | .ldk index => commandWord 0x08 0 0 index
  | .stt index b => commandWord 0x09 0 b index
  | .ldt index => commandWord 0x0A 0 0 index
  | .bqclr => commandWord 0x10 0 0 0
  | .pushb b => commandWord 0x11 0 b 0
  | .popb => commandWord 0x12 0 0 0
  | .pushv k value => commandWord 0x13 k 0 value
  | .popv k => commandWord 0x14 k 0 0
  | .pack k index => commandWord 0x15 k 0 index
  | .unpack k index => commandWord 0x16 k 0 index
  | .dseed => commandWord 0x20 0 0 0
  | .seedacc cp => commandWord 0x21 0 0 cp
  | .enc => commandWord 0x22 0 0 0
  | .dec => commandWord 0x23 0 0 0
  | .cstart => commandWord 0x30 0 0 0
  | .draw n => commandWord 0x31 0 0 n
  | .embed => commandWord 0x40 0 0 0
  | .extract => commandWord 0x41 0 0 0

/-- The row of a command, by its mnemonic (R95). -/
def Instr.mnemonic : Instr → String
  | .wrr _ _ => "WRR"
  | .rdr _ => "RDR"
  | .stc _ _ => "STC"
  | .ldc _ => "LDC"
  | .std _ _ => "STD"
  | .ldd _ => "LDD"
  | .stk _ _ => "STK"
  | .ldk _ => "LDK"
  | .stt _ _ => "STT"
  | .ldt _ => "LDT"
  | .bqclr => "BQCLR"
  | .pushb _ => "PUSHB"
  | .popb => "POPB"
  | .pushv _ _ => "PUSHV"
  | .popv _ => "POPV"
  | .pack _ _ => "PACK"
  | .unpack _ _ => "UNPACK"
  | .dseed => "DSEED"
  | .seedacc _ => "SEEDACC"
  | .enc => "ENC"
  | .dec => "DEC"
  | .cstart => "CSTART"
  | .draw _ => "DRAW"
  | .embed => "EMBED"
  | .extract => "EXTRACT"

/-- What the decoder reads from a word of `nbits` bits numbered as spec/opcode_table.json numbers them; a command is
one 64-bit word with no byte order (R90, R105), so the number is the word. -/
def decodeTableWord (nbits w : Nat) : Option Instr :=
  match decode (BitVec.ofNat 64 (w % 2 ^ nbits)) with
  | .ok i => some i
  | .error _ => none

end Sys2Proof
end

