-- ==== Sys2Proof/Config.lean ====
section
/-! DEFINITION. The configuration record CFG (R6 to R13) and the constants that are the same in every configuration.

`Config` is a parameter of the machine, not state of the block (R6): no command reads it into a register or changes
it. It is plain data; the one function among CFG's fields, `PRNG_DRAW`, is named by a `Generator` (R13, R199, log 3). -/

namespace Sys2Proof

/-- The two profiles the source names (R6). -/
inductive Profile where
  | byte
  | sample
deriving DecidableEq, Repr

/-- Which generator `CFG.PRNG_DRAW` is (R13): the reference LFSR of R192 and R193, or any other function that meets
the one axiom of R199. `other` carries an index only so that several of them can be told apart. DESIGN CHOICE, log 3. -/
inductive Generator where
  | reference
  | other (index : Nat)
deriving DecidableEq, Repr

/-- A generator the spec does not fix (R13, R199, U1): nothing is known of its value but that it lies in `0 .. n`,
which its type says. Safe: a claim that holds of it holds of every generator. Log 3. -/
opaque Config.otherDraw (index : Nat) (seed : Word) (n : Nat) : Fin (n + 1)

/-- CFG, the implementation parameters (R6, R8, R9, R11, R13). `W` and `M_MAX` are fixed by the profile; `SAFETY`
and the three sizes are open (R9, R11, log 12). -/
structure Config where
  profile : Profile
  safety : Nat
  coverSize : Nat
  dataSize : Nat
  keySize : Nat
  generator : Generator
deriving DecidableEq, Repr

/-- `CFG.W`, the unit width (R6). -/
def Config.unitWidth (c : Config) : Nat :=
  match c.profile with
  | .byte => 8
  | .sample => 16

/-- `CFG.M_MAX`, the largest bit count of PACK, UNPACK and CSTART (R8). -/
def Config.mMax (c : Config) : Nat :=
  match c.profile with
  | .byte => 4
  | .sample => 16

/-- The ranges R9 and R11 give the open parameters. -/
abbrev Config.Ok (c : Config) : Prop :=
  c.safety < 2 ^ 32 ∧ 35 ≤ c.coverSize ∧ c.coverSize ≤ 2 ^ 32 - 1 ∧ c.dataSize ≤ 536870901 ∧
    1 ≤ c.keySize ∧ c.keySize ≤ 2 ^ 32 - 1

/-- Profile `BYTE`: `W = 8`, `M_MAX = 4`, `SAFETY = 0` (R6, R8, R9), with the reference generator. -/
def Config.byteProfile (coverSize dataSize keySize : Nat) : Config :=
  { profile := .byte, safety := 0, coverSize, dataSize, keySize, generator := .reference }

/-- Profile `SAMPLE`: `W = 16`, `M_MAX = 16`, `SAFETY = 200` (R6, R8, R9), with the reference generator. -/
def Config.sampleProfile (coverSize dataSize keySize : Nat) : Config :=
  { profile := .sample, safety := 200, coverSize, dataSize, keySize, generator := .reference }

/-- The configuration of `State.reset`: profile `BYTE` with the sizes the vectors of 95_test_vectors.md name.
DESIGN CHOICE: the spec leaves the profile and the sizes open (R11). Unsafe for a claim about `State.reset`, log 2. -/
def Config.default : Config := Config.byteProfile 4096 1024 64

/-- `HDR_UNITS` (R7). -/
def hdrUnits : Nat := 35

/-- `HDR_M_MAX`, the largest `m` of EMBED and of a header (R7, R8). -/
def hdrMMax : Nat := 4

/-- `TAG_BYTES` (R10). -/
def tagBytes : Nat := 10

/-- `TAG_BITS` (R10). -/
def tagBits : Nat := 80

/-- `BQ_DEPTH` (R12). -/
def bqDepth : Nat := 32

/-- `LFSR_TAPS` of the reference generator (R13, R192). -/
def lfsrTaps : Word := 0x80200003#32

/-- `LFSR_WARMUP` (R13, R193). -/
def lfsrWarmup : Nat := 32

/-- `LFSR_ZERO_SUBST` (R13, R193). -/
def lfsrZeroSubst : Word := 0xFFFFFFFF#32

end Sys2Proof
end

