-- ==== Sys2Proof/Machine/State.lean ====
section
/-! DEFINITION. The state of BPK (R20), the statuses (R251), the response (R92) and the state after reset (R39). -/

namespace Sys2Proof.Machine

/-- The status codes of R251: `OK` and the eight errors. -/
inductive Status where
  | ok
  | invalidParameterM
  | emptyKey
  | insufficientCapacity
  | corruptHeader
  | malformedPayload
  | illegalCommand
  | range
  | bqFault
deriving DecidableEq, Repr

/-- The response to a command (R92). -/
structure Response where
  status : Status
  value : Word
deriving DecidableEq, Repr

/-- The eleven registers (R21); `bqv` and `bqn` are views of the bit queue (R31, R32). -/
inductive Reg where
  | ctrl | m | cap | pbl | dlen | klen | seed | start | bqv | bqn | err
deriving DecidableEq, Repr

/-- What an element of a memory reads as when it is not listed. DESIGN CHOICE 0: the spec leaves the contents after
reset unspecified (R39, U3); unsafe for a claim about `State.reset` alone, log 4. -/
def unlisted (w : Nat) : BitVec w := 0#w

/-- A memory (R60): element index and element, the indices rising, no element listed that reads as it would unlisted. -/
abbrev Memory (w : Nat) := List (Nat × BitVec w)

/-- The canonical form of a memory. -/
abbrev Memory.wf {w : Nat} (mem : Memory w) : Prop :=
  mem.Pairwise (fun p q => p.1 < q.1) ∧ ∀ c ∈ mem, c.2 ≠ unlisted w

/-- The whole state of BPK (R20): nine stored registers, the bit queue (of which `BQV` and `BQN` are views) and four
memories. `cfg`, `cmds` and `rsps` are the model's own fields: the configuration, which no step changes (R6, log 1),
the command words presented and not yet taken (R19, R105, log 5), and the responses given (R92, R105, log 6). -/
structure State where
  cfg : Config
  ctrl : Word
  m : Word
  cap : Word
  pbl : Word
  dlen : Word
  klen : Word
  seed : Word
  start : Word
  err : Word
  bq : List Bool
  cover : Memory 16
  data : Memory 8
  key : Memory 8
  tag : Memory 8
  cmds : List CommandWord
  rsps : List Response
deriving DecidableEq, Repr

/-- Why the machine would stop with a fault. It has no constructor: no behaviour of BPK is undefined, every command
ends with one response (R250, 93_implementation_defined.md; log 13). -/
inductive Fault
deriving DecidableEq, Repr

/-- Why the model would give no meaning. -/
inductive Refusal where
  /-- Raised by `exec` alone, for an instruction that has no meaning yet; safe. No arm uses it (log 13). -/
  | notModelled (mnemonic : String)
deriving DecidableEq, Repr

/-- The state after reset (R39, R280, R281): every register 0, the bit queue empty, the memories with any contents,
which are the arguments. Nothing is presented on the command port and no response has been given. -/
def State.afterReset (cfg : Config) (cover : Memory 16) (data key tag : Memory 8) : State :=
  { cfg, ctrl := 0, m := 0, cap := 0, pbl := 0, dlen := 0, klen := 0, seed := 0, start := 0, err := 0, bq := [],
    cover, data, key, tag, cmds := [], rsps := [] }

/-- The state after reset with the default configuration (log 2) and nothing listed in any memory (log 4). -/
def State.reset : State := State.afterReset Config.default [] [] [] []

end Sys2Proof.Machine
end

