-- ==== Sys2Proof/Machine/Flags.lean ====
section
/-! DEFINITION. The status numbers (R251), the one flag register `ERR` (R33, R253) and the response as a word (R92).
BPK has no other flag (R35). -/

namespace Sys2Proof.Machine

/-- The number of a status (R251). -/
def Status.code : Status → Nat
  | .ok => 0
  | .invalidParameterM => 1
  | .emptyKey => 2
  | .insufficientCapacity => 3
  | .corruptHeader => 4
  | .malformedPayload => 5
  | .illegalCommand => 6
  | .range => 7
  | .bqFault => 8

/-- The bit of `ERR` a status sets: bit `code` for an error, none for `OK` (R251, R253). -/
def errBit (c : Status) : Word :=
  match c with
  | .ok => 0
  | _ => BitVec.ofNat 32 (2 ^ c.code)

/-- `ERR` after a command that ended with status `c`: sticky (R33, R253). -/
def errAfter (err : Word) (c : Status) : Word := err ||| errBit c

/-- The bits of `ERR` a WRR stores, 8 to 1 (R33). -/
def errMask : Word := 0x000001FE#32

/-- The bits of `CTRL` a write stores, 1 and 0 (R22). -/
def ctrlMask : Word := 0x00000003#32

/-- `CTRL.ISRAND` (R22). -/
def isRand (ctrl : Word) : Bool := ctrl.getLsbD 0

/-- `CTRL.ISENC` (R22). -/
def isEnc (ctrl : Word) : Bool := ctrl.getLsbD 1

/-- `CTRL` of its two fields (R22). -/
def ctrlOf (rand enc : Bool) : Word := BitVec.ofNat 32 (rand.toNat + 2 * enc.toNat)

/-- The source's error classes (R252). Codes 6 to 8 belong to none. -/
inductive ErrorClass where
  | invalidParameter
  | insufficientCapacity
  | corruptHeader
  | malformedPayload
deriving DecidableEq, Repr

/-- The class of a status: codes 1 and 2 are both `InvalidParameter` (R252). -/
def Status.sourceClass : Status → Option ErrorClass
  | .ok => none
  | .invalidParameterM => some .invalidParameter
  | .emptyKey => some .invalidParameter
  | .insufficientCapacity => some .insufficientCapacity
  | .corruptHeader => some .corruptHeader
  | .malformedPayload => some .malformedPayload
  | .illegalCommand => none
  | .range => none
  | .bqFault => none

/-- The 36-bit word on the response port: `status * 2^32 + value` (R92, R105). -/
def Response.word (r : Response) : BitVec 36 := BitVec.ofNat 36 (r.status.code * 2 ^ 32 + r.value.toNat)

end Sys2Proof.Machine
end

