-- ==== Sys2Proof/Machine/Operands.lean ====
section
/-! DEFINITION. Operand forms (R99 to R101) and the two conversions between numbers and bit sequences (R15). -/

namespace Sys2Proof.Machine

/-- The register a number names (R21, R99); 11 to 255 name none. -/
def regOfNumber (a : BitVec 8) : Option Reg :=
  match a.toNat with
  | 0 => some .ctrl
  | 1 => some .m
  | 2 => some .cap
  | 3 => some .pbl
  | 4 => some .dlen
  | 5 => some .klen
  | 6 => some .seed
  | 7 => some .start
  | 8 => some .bqv
  | 9 => some .bqn
  | 10 => some .err
  | _ => none

/-- WRR may name the register (R21): all but the two views of the bit queue. -/
def hostWritable : Reg → Bool
  | .bqv => false
  | .bqn => false
  | .ctrl => true
  | .m => true
  | .cap => true
  | .pbl => true
  | .dlen => true
  | .klen => true
  | .seed => true
  | .start => true
  | .err => true

/-- `b[7:0]`, the byte operand (R94, R101). -/
def byteOperand (b : BitVec 16) : Byte := b.extractLsb' 0 8

/-- A memory element as a 32-bit response value, `zext_32` (R17). -/
def zext32 {w : Nat} (v : BitVec w) : Word := v.setWidth 32

/-- `bitsof(k, v)`: the low `k` bits of `v`, bit `k - 1` first (R15). -/
def bitsof : Nat → Nat → List Bool
  | 0, _ => []
  | k + 1, v => v.testBit k :: bitsof k v

/-- `valof(s)`: the number a bit sequence is, its first bit the most significant (R15). -/
def valof : List Bool → Nat
  | [] => 0
  | b :: s => b.toNat * 2 ^ s.length + valof s

/-- `ceil(a / b)` for `b >= 1` (R16). -/
def ceilDiv (a b : Nat) : Nat := (a + (b - 1)) / b

end Sys2Proof.Machine
end

