-- ==== Sys2Proof/Machine/Ops.lean ====
section
/-! DEFINITION. The operations every command is written with: responding and failing (R17, R253), registers (R21),
memory elements (R17, R69), the bit queue (R146), the command port (R105) and reset (R280). -/

namespace Sys2Proof.Machine

/-- What a command ends with. -/
abbrev Result := Host.Outcome State Fault Refusal

/-! ## Ending a command -/

/-- The response `(c, v)` is given on the response port (R92). -/
def State.answer (s : State) (c : Status) (v : Word) : State := { s with rsps := s.rsps ++ [⟨c, v⟩] }

/-- `respond(v)`: the command ends with response `(OK, v)` (R17). -/
def respond (v : Word) (s : State) : Result := .next (s.answer .ok v)

/-- `raise c`: the command ends at once with `(c, 0)`, the status's bit is set in `ERR` and nothing else changes
(R17, R253, R254). The one way a command fails; BPK has no trap to enter or return from (R250, R257, R258). -/
def raise (c : Status) (s : State) : Result :=
  .next (State.answer { s with err := errAfter s.err c } c 0)

/-! ## Registers -/

/-- `R[r]` (R17, R21); the views of the queue are R31 and R32. -/
def State.reg (s : State) : Reg → Word
  | .ctrl => s.ctrl
  | .m => s.m
  | .cap => s.cap
  | .pbl => s.pbl
  | .dlen => s.dlen
  | .klen => s.klen
  | .seed => s.seed
  | .start => s.start
  | .bqv => BitVec.ofNat 32 (valof s.bq)
  | .bqn => BitVec.ofNat 32 s.bq.length
  | .err => s.err

/-- `R[r] <- v` (R17, R121): reserved bits of `CTRL` and `ERR` are not stored (R22, R33); the views are read-only. -/
def State.setReg (s : State) (r : Reg) (v : Word) : State :=
  match r with
  | .ctrl => { s with ctrl := v &&& ctrlMask }
  | .m => { s with m := v }
  | .cap => { s with cap := v }
  | .pbl => { s with pbl := v }
  | .dlen => { s with dlen := v }
  | .klen => { s with klen := v }
  | .seed => { s with seed := v }
  | .start => { s with start := v }
  | .bqv => s
  | .bqn => s
  | .err => { s with err := v &&& errMask }

/-! ## Memories -/

/-- `MemRead`: element `i` (R17). -/
def Memory.read {w : Nat} : Memory w → Nat → BitVec w
  | [], _ => unlisted w
  | (a, v) :: rest, i => if a = i then v else Memory.read rest i

/-- `MemWrite`: element `i` becomes `v`, no other changes (R17, R69). It keeps the canonical form. -/
def Memory.write {w : Nat} : Memory w → Nat → BitVec w → Memory w
  | [], i, v => if v = unlisted w then [] else [(i, v)]
  | (a, u) :: rest, i, v =>
    if i < a then (if v = unlisted w then (a, u) :: rest else (i, v) :: (a, u) :: rest)
    else if a = i then (if v = unlisted w then rest else (i, v) :: rest)
    else (a, u) :: Memory.write rest i v

/-- Elements `0` to `n - 1` in index order: the in-use window of a memory (R80). -/
def Memory.window {w : Nat} (mem : Memory w) (n : Nat) : List (BitVec w) := (List.range n).map (Memory.read mem)

/-- Consecutive elements from `i` on become the values of the list, in index order. -/
def Memory.writeFrom {w : Nat} (mem : Memory w) (i : Nat) : List (BitVec w) → Memory w
  | [] => mem
  | v :: vs => Memory.writeFrom (Memory.write mem i v) (i + 1) vs

/-- The key bytes in use, `KEY[0 .. KLEN-1]` (R27). -/
def State.keyWindow (s : State) : List Byte := Memory.window s.key s.klen.toNat

/-- The content in use, `DATA[0 .. DLEN-1]` (R26). -/
def State.dataWindow (s : State) : List Byte := Memory.window s.data s.dlen.toNat

/-- The ten bytes of TAG (R65). -/
def State.tagWindow (s : State) : List Byte := Memory.window s.tag tagBytes

/-- A load command: the index is checked against the memory's size, and the element is the response (R71, R124). -/
def loadElement {w : Nat} (size : Nat) (mem : Memory w) (index : Word) (s : State) : Result :=
  if size ≤ index.toNat then raise .range s else respond (zext32 (Memory.read mem index.toNat)) s

/-! ## The bit queue -/

/-- `push(bits)`: appended at the tail (R146). -/
def State.push (s : State) (bits : List Bool) : State := { s with bq := s.bq ++ bits }

/-- The bits `pop(k)` returns, the `k` oldest (R146). -/
def State.popped (s : State) (k : Nat) : List Bool := s.bq.take k

/-- The state `pop(k)` leaves (R146). -/
def State.pop (s : State) (k : Nat) : State := { s with bq := s.bq.drop k }

/-- `bits` do not fit the queue (R146). -/
def State.noRoom (s : State) (k : Nat) : Bool := decide (bqDepth < s.bq.length + k)

/-- Fewer than `k` bits are queued (R146). -/
def State.tooFew (s : State) (k : Nat) : Bool := decide (s.bq.length < k)

/-- The unit index of PACK, UNPACK, STC or LDC is outside COVER (R71). -/
def State.outsideCover (s : State) (index : Word) : Bool := decide (s.cfg.coverSize ≤ index.toNat)

/-! ## The command port and reset -/

/-- The next command word and the state once it is taken (R18, R105). -/
def fetch (s : State) : Option (CommandWord × State) :=
  match s.cmds with
  | [] => none
  | w :: rest => some (w, { s with cmds := rest })

/-- A word that is no command (R93, R96). Both reasons are `ILLEGAL_COMMAND`. -/
def rejectWord (e : DecodeError) (s : State) : Result :=
  match e with
  | .unassignedOpcode => raise .illegalCommand s
  | .nonzeroUnusedField => raise .illegalCommand s

/-- The host presents command words, to be taken after those already presented (R19, R105). -/
def State.issue (s : State) (words : List CommandWord) : State := { s with cmds := s.cmds ++ words }

/-- The host's `rst` (R280): the state after reset, with whatever the memories then hold. A command in progress is
abandoned without a response, and what it had written is part of the arbitrary contents. Log 9. -/
def State.applyReset (s : State) (cover : Memory 16) (data key tag : Memory 8) : State :=
  State.afterReset s.cfg cover data key tag

end Sys2Proof.Machine
end

