-- ==== Sys2Proof/Machine/BitPacker.lean ====
section
/-! DEFINITION. Family 41, BitPacker: the four contracts of the source (R140 to R145) and the commands (R146 to R153). -/

namespace Sys2Proof.Machine

/-- `bytesToBits` (R140). -/
def bytesToBits : List Byte → List Bool
  | [] => []
  | x :: xs => bitsof 8 x.toNat ++ bytesToBits xs

/-- `bitsToBytes` (R141): none where the length is not a multiple of 8, the source's `MalformedPayload`. -/
def bitsToBytes : List Bool → Option (List Byte)
  | [] => some []
  | b7 :: b6 :: b5 :: b4 :: b3 :: b2 :: b1 :: b0 :: rest =>
    (bitsToBytes rest).map (BitVec.ofNat 8 (valof [b7, b6, b5, b4, b3, b2, b1, b0]) :: ·)
  | _ => none

/-- `packUnit(unit, bits, k)` with `k = len(bits)` (R142): the low bits are replaced, the others kept. -/
def packUnit (unit : CoverUnit) (bits : List Bool) : CoverUnit :=
  BitVec.ofNat 16 (unit.toNat - unit.toNat % 2 ^ bits.length + valof bits)

/-- `unpackUnit(unit, k)` (R143). -/
def unpackUnit (unit : CoverUnit) (k : Nat) : List Bool := bitsof k (unit.toNat % 2 ^ k)

/-- `n` units from `i` on carry the bit sequence, `m` bits per unit, the last one what is left (R144, R215). -/
def packUnits (m : Nat) : Nat → Memory 16 → Nat → List Bool → Memory 16
  | 0, cover, _, _ => cover
  | n + 1, cover, i, bits =>
    packUnits m n (Memory.write cover i (packUnit (Memory.read cover i) (bits.take m))) (i + 1) (bits.drop m)

/-- The `len` bits that `n` units from `i` on carry, `m` bits per unit, the last one what is left (R144, R215). -/
def unpackUnits (m : Nat) (cover : Memory 16) : Nat → Nat → Nat → List Bool
  | 0, _, _ => []
  | n + 1, i, len =>
    unpackUnit (Memory.read cover i) (min m len) ++ unpackUnits m cover n (i + 1) (len - m)

/-- The count operand is 1 to `CFG.M_MAX` (R100, R152, R153). -/
def validCount (s : State) (k : BitVec 8) : Bool := decide (1 ≤ k.toNat ∧ k.toNat ≤ s.cfg.mMax)

/-- The count operand is 1 to 32 (R100, R150, R151). -/
def validWidth (k : BitVec 8) : Bool := decide (1 ≤ k.toNat ∧ k.toNat ≤ 32)

/-- BQCLR (R147). -/
def execBqclr (s : State) : Result := respond 0 { s with bq := [] }

/-- PUSHB (R148). -/
def execPushb (b : BitVec 16) (s : State) : Result :=
  if s.noRoom 8 then raise .bqFault s else respond 0 (s.push (bitsof 8 (byteOperand b).toNat))

/-- POPB (R149). -/
def execPopb (s : State) : Result :=
  if s.tooFew 8 then raise .malformedPayload s
  else respond (BitVec.ofNat 32 (valof (s.popped 8))) (s.pop 8)

/-- PUSHV (R150): the count, then the value, then the room. -/
def execPushv (k : BitVec 8) (value : Word) (s : State) : Result :=
  if validWidth k then
    if 2 ^ k.toNat ≤ value.toNat then raise .range s
    else if s.noRoom k.toNat then raise .bqFault s
    else respond 0 (s.push (bitsof k.toNat value.toNat))
  else raise .range s

/-- POPV (R151): the count, then the content of the queue. -/
def execPopv (k : BitVec 8) (s : State) : Result :=
  if validWidth k then
    if s.tooFew k.toNat then raise .bqFault s
    else respond (BitVec.ofNat 32 (valof (s.popped k.toNat))) (s.pop k.toNat)
  else raise .range s

/-- PACK (R152): the count, then the index, then the queue. -/
def execPack (k : BitVec 8) (index : Word) (s : State) : Result :=
  if validCount s k then
    if s.outsideCover index then raise .range s
    else if s.tooFew k.toNat then raise .bqFault s
    else
      let unit := packUnit (Memory.read s.cover index.toNat) (s.popped k.toNat)
      respond 0 { s.pop k.toNat with cover := Memory.write s.cover index.toNat unit }
  else raise .invalidParameterM s

/-- UNPACK (R153): the count, then the index, then the queue. -/
def execUnpack (k : BitVec 8) (index : Word) (s : State) : Result :=
  if validCount s k then
    if s.outsideCover index then raise .range s
    else if s.noRoom k.toNat then raise .bqFault s
    else respond 0 (s.push (unpackUnit (Memory.read s.cover index.toNat) k.toNat))
  else raise .invalidParameterM s

end Sys2Proof.Machine
end

