-- ==== Sys2Proof/Machine/KeyStream.lean ====
section
/-! DEFINITION. Family 42, KeyStream: the four contracts of the source (R170 to R173) and the commands (R175 to R178). -/

namespace Sys2Proof.Machine

/-- One character of `deriveSeed`: `(seed * 31 + c) mod 2^32` (R170, R176). -/
def seedStep (seed c : Word) : Word := seed * 31 + c

/-- `deriveSeed` over code points, first to last (R170). -/
def deriveSeed (codePoints : List Word) : Word := codePoints.foldl seedStep 0

/-- `deriveSeed` over key bytes, each a code point (R179). -/
def deriveSeedOfBytes (key : List Byte) : Word := deriveSeed (key.map zext32)

/-- `extendKey(data, keyBytes)` for data of length `d` (R171): the key repeated; `EMPTY_KEY` for the empty key. -/
def extendKey (d : Nat) (key : List Byte) : Except Status (List Byte) :=
  match key with
  | [] => .error .emptyKey
  | _ :: _ => .ok ((List.range d).map (fun i => key.getD (i % key.length) 0))

/-- `encrypt` (R172). -/
def encrypt (data key : List Byte) : Except Status (List Byte) :=
  match extendKey data.length key with
  | .error c => .error c
  | .ok stream => .ok (List.zipWith (fun x k => BitVec.ofNat 8 ((x.toNat + k.toNat) % 256)) data stream)

/-- `decrypt` (R173). -/
def decrypt (cipher key : List Byte) : Except Status (List Byte) :=
  match extendKey cipher.length key with
  | .error c => .error c
  | .ok stream => .ok (List.zipWith (fun x k => BitVec.ofNat 8 ((x.toNat + 256 - k.toNat) % 256)) cipher stream)

/-- A length register exceeds its memory: DLEN or KLEN (R71, R177). -/
def State.lengthsOutside (s : State) : Bool :=
  decide (s.cfg.dataSize < s.dlen.toNat) || decide (s.cfg.keySize < s.klen.toNat)

/-- DSEED (R175). -/
def execDseed (s : State) : Result :=
  if s.cfg.keySize < s.klen.toNat then raise .range s
  else
    let seed := deriveSeedOfBytes s.keyWindow
    respond seed { s with seed := seed }

/-- SEEDACC (R176). -/
def execSeedacc (cp : Word) (s : State) : Result :=
  let seed := seedStep s.seed cp
  respond seed { s with seed := seed }

/-- ENC (R177). Each byte of the loop depends on itself and the key alone, so the window is written as a whole
(log 14). -/
def execEnc (s : State) : Result :=
  if s.lengthsOutside then raise .range s
  else
    match encrypt s.dataWindow s.keyWindow with
    | .error c => raise c s
    | .ok bytes => respond 0 { s with data := Memory.writeFrom s.data 0 bytes }

/-- DEC (R178), as ENC. -/
def execDec (s : State) : Result :=
  if s.lengthsOutside then raise .range s
  else
    match decrypt s.dataWindow s.keyWindow with
    | .error c => raise c s
    | .ok bytes => respond 0 { s with data := Memory.writeFrom s.data 0 bytes }

end Sys2Proof.Machine
end

