-- ==== Sys2Proof/Machine/Placement.lean ====
section
/-! DEFINITION. Family 43, PlacementPlanner: `computeStart` (R190, R191), the generator (R192, R193, R199) and the
commands (R196, R197). -/

namespace Sys2Proof.Machine

/-- `lfsr_step` (R192). -/
def lfsrStep (s : Word) : Word := if s.getLsbD 0 then (s >>> 1) ^^^ lfsrTaps else s >>> 1

/-- `n` steps of the generator (R193). -/
def lfsrSteps : Nat → Word → Word
  | 0, s => s
  | n + 1, s => lfsrSteps n (lfsrStep s)

/-- The reference generator's state after the warm-up (R193). -/
def lfsrWarm (seed : Word) : Word := lfsrSteps lfsrWarmup (if seed = 0 then lfsrZeroSubst else seed)

/-- `CFG.PRNG_DRAW(seed, n)` (R13): the reference instance (R193), or one the spec leaves open (R199, log 3). -/
def prngDraw (g : Generator) (seed : Word) (n : Nat) : Nat :=
  match g with
  | .reference => (lfsrWarm seed).toNat % (n + 1)
  | .other index => (Config.otherDraw index seed n).val

/-- `neededUnits(L, m)` (R190). -/
def neededUnits (len m : Nat) : Nat := ceilDiv len m

/-- `availableSpace` of `computeStart`, an integer that may be negative (R191). -/
def availableSpace (cfg : Config) (len m cap : Nat) : Int :=
  (cap : Int) - neededUnits len m - hdrUnits - cfg.safety

/-- `computeStart` (R191). -/
def computeStart (cfg : Config) (len m cap : Nat) (seed : Word) : Option Nat :=
  let space := availableSpace cfg len m cap
  if space ≤ 0 then none else some (hdrUnits + cfg.safety + prngDraw cfg.generator seed space.toNat)

/-- CSTART (R196): `M`, then the capacity. -/
def execCstart (s : State) : Result :=
  if s.m.toNat < 1 ∨ s.cfg.mMax < s.m.toNat then raise .invalidParameterM s
  else
    match computeStart s.cfg s.pbl.toNat s.m.toNat s.cap.toNat s.seed with
    | none => raise .insufficientCapacity s
    | some r => respond (BitVec.ofNat 32 r) { s with start := BitVec.ofNat 32 r }

/-- DRAW (R197). -/
def execDraw (n : Word) (s : State) : Result :=
  respond (BitVec.ofNat 32 (prngDraw s.cfg.generator s.seed n.toNat)) s

end Sys2Proof.Machine
end

