-- ==== Sys2Proof/Machine/Codec.lean ====
section
/-! DEFINITION. Family 44, StegoCodec: the header and payload layouts (R210 to R215) and the two sequencer commands
(R216, R219). Each command first computes its checks and results from the state and then writes, so a failure writes
nothing (R218, R221). -/

namespace Sys2Proof.Machine

/-- The header's 35 bits: `isRandom`, the `m` field `m - 1`, `payloadBitLength` (R210, R211). -/
def headerBits (rand : Bool) (m len : Nat) : List Bool := [rand] ++ bitsof 2 (m - 1) ++ bitsof 32 len

/-- The payload: the tag, the flag, the content (R212, R214). -/
def payloadBits (tag : List Byte) (enc : Bool) (content : List Byte) : List Bool :=
  bytesToBits tag ++ [enc] ++ bytesToBits content

/-- `payloadBitLength` of a content of `n` bytes (R213). -/
def payloadLength (n : Nat) : Nat := tagBits + 1 + 8 * n

/-- The start offset, and the seed a random placement derived from the key (R191, R195): none where `computeStart`
answers `None`. The fixed offset is `HDR_UNITS`. -/
def placement (cfg : Config) (rand : Bool) (len m cap : Nat) (key : List Byte) : Option (Nat × Option Word) :=
  if rand then
    let seed := deriveSeedOfBytes key
    (computeStart cfg len m cap seed).map (fun start => (start, some seed))
  else some (hdrUnits, none)

/-- SEED after a sequencer command: the derived seed, or as before where the placement is fixed (R28). -/
def seedAfter (old : Word) (seed : Option Word) : Word :=
  match seed with
  | none => old
  | some v => v

/-- The content EMBED writes: encrypted when `ISENC` is 1 (R214). -/
def embeddedContent (enc : Bool) (data key : List Byte) : Except Status (List Byte) :=
  if enc then encrypt data key else .ok data

/-- CAP, DLEN or KLEN exceeds its memory (R216 step 1). -/
def State.embedOutside (s : State) : Bool := decide (s.cfg.coverSize < s.cap.toNat) || s.lengthsOutside

/-- What EMBED writes, once every check has passed. -/
structure EmbedPlan where
  len : Nat
  units : Nat
  start : Nat
  seed : Option Word
  payload : List Bool
deriving DecidableEq, Repr

/-- EMBED's checks in their order (R216 steps 1 to 6, R217), and what it is to write. -/
def embedPlan (s : State) : Except Status EmbedPlan :=
  let rand := isRand s.ctrl
  let enc := isEnc s.ctrl
  if s.embedOutside then .error .range
  else if s.m.toNat < 1 ∨ hdrMMax < s.m.toNat then .error .invalidParameterM
  else if (enc ∨ rand) ∧ s.klen = 0 then .error .emptyKey
  else
    let len := payloadLength s.dlen.toNat
    let units := neededUnits len s.m.toNat
    match placement s.cfg rand len s.m.toNat s.cap.toNat s.keyWindow with
    | none => .error .insufficientCapacity
    | some (start, seed) =>
      if s.cap.toNat < start + units then .error .insufficientCapacity
      else
        match embeddedContent enc s.dataWindow s.keyWindow with
        | .error c => .error c
        | .ok content => .ok { len, units, start, seed, payload := payloadBits s.tagWindow enc content }

/-- COVER after EMBED: the header, one bit per unit from unit 0, then the payload (R216 steps 7 and 8). -/
def embedCover (cover : Memory 16) (rand : Bool) (m : Nat) (p : EmbedPlan) : Memory 16 :=
  packUnits m p.units (packUnits 1 hdrUnits cover 0 (headerBits rand m p.len)) p.start p.payload

/-- EMBED (R216). -/
def execEmbed (s : State) : Result :=
  match embedPlan s with
  | .error c => raise c s
  | .ok p =>
    respond (BitVec.ofNat 32 p.start)
      { s with
        cover := embedCover s.cover (isRand s.ctrl) s.m.toNat p
        pbl := BitVec.ofNat 32 p.len
        start := BitVec.ofNat 32 p.start
        seed := seedAfter s.seed p.seed }

/-- The header's three fields (R210). -/
structure Header where
  rand : Bool
  m : Nat
  len : Nat
deriving DecidableEq, Repr

/-- The header of 35 bits: `isRandom`, the `m` field plus 1, `payloadBitLength` (R211, R219 step 3). -/
def headerOfBits (h : List Bool) : Header :=
  { rand := h.getD 0 false, m := valof ((h.drop 1).take 2) + 1, len := valof (h.drop 3) }

/-- The header read from bit 0 of units 0 to 34 (R219 step 3). -/
def readHeader (cover : Memory 16) : Header := headerOfBits (unpackUnits 1 cover hdrUnits 0 hdrUnits)

/-- The content EXTRACT delivers: decrypted when the payload's flag is 1 (R219 steps 12 and 13). -/
def extractedContent (enc : Bool) (cipher key : List Byte) : Except Status (List Byte) :=
  if enc then decrypt cipher key else .ok cipher

/-- What EXTRACT writes, once every check has passed. -/
structure ExtractPlan where
  rand : Bool
  enc : Bool
  m : Nat
  len : Nat
  start : Nat
  seed : Option Word
  tag : List Byte
  content : List Byte
deriving DecidableEq, Repr

/-- EXTRACT's steps 9 to 13 on a payload of `len` bits: the tag, the flag and the content (R219, R220). -/
def parsePayload (dataSize : Nat) (key : List Byte) (len : Nat) (p : List Bool) :
    Except Status (List Byte × Bool × List Byte) :=
  if len < payloadLength 0 ∨ (len - payloadLength 0) % 8 ≠ 0 then .error .malformedPayload
  else if dataSize < (len - payloadLength 0) / 8 then .error .range
  else
    let enc := p.getD tagBits false
    match bitsToBytes (p.take tagBits), bitsToBytes (p.drop (tagBits + 1)) with
    | some tag, some cipher =>
      match extractedContent enc cipher key with
      | .error c => .error c
      | .ok content => .ok (tag, enc, content)
    | _, _ => .error .malformedPayload

/-- EXTRACT's steps 4 to 13 with the header `h` (R219, R220): ValidateM, ComputeStart, CapacityCheck, ReadPayload, then
the payload's own steps. -/
def extractWithHeader (s : State) (h : Header) : Except Status ExtractPlan :=
  if h.m < 1 ∨ s.cfg.mMax < h.m then .error .corruptHeader
  else if h.rand ∧ s.klen = 0 then .error .emptyKey
  else
    match placement s.cfg h.rand h.len h.m s.cap.toNat s.keyWindow with
    | none => .error .corruptHeader
    | some (start, seed) =>
      if s.cap.toNat < start + neededUnits h.len h.m then .error .corruptHeader
      else
        match parsePayload s.cfg.dataSize s.keyWindow h.len
            (unpackUnits h.m s.cover (neededUnits h.len h.m) start h.len) with
        | .error c => .error c
        | .ok (tag, enc, content) =>
          .ok { rand := h.rand, enc, m := h.m, len := h.len, start, seed, tag, content }

/-- EXTRACT's checks in their order (R219 steps 1 to 13, R220), and what it is to write. -/
def extractPlan (s : State) : Except Status ExtractPlan :=
  if s.cfg.coverSize < s.cap.toNat ∨ s.cfg.keySize < s.klen.toNat then .error .range
  else if s.cap.toNat < hdrUnits then .error .insufficientCapacity
  else extractWithHeader s (readHeader s.cover)

/-- EXTRACT (R219). -/
def execExtract (s : State) : Result :=
  match extractPlan s with
  | .error c => raise c s
  | .ok p =>
    respond (BitVec.ofNat 32 p.content.length)
      { s with
        tag := Memory.writeFrom s.tag 0 p.tag
        data := Memory.writeFrom s.data 0 p.content
        dlen := BitVec.ofNat 32 p.content.length
        ctrl := ctrlOf p.rand p.enc
        m := BitVec.ofNat 32 p.m
        pbl := BitVec.ofNat 32 p.len
        start := BitVec.ofNat 32 p.start
        seed := seedAfter s.seed p.seed }

end Sys2Proof.Machine
end

