-- ==== Sys2Proof/Machine/HostAccess.lean ====
section
/-! DEFINITION. Family 40, host access (R120 to R130). -/

namespace Sys2Proof.Machine

/-- WRR (R121). -/
def execWrr (reg : BitVec 8) (value : Word) (s : State) : Result :=
  match regOfNumber reg with
  | none => raise .illegalCommand s
  | some r => if hostWritable r then respond 0 (s.setReg r value) else raise .illegalCommand s

/-- RDR (R122). -/
def execRdr (reg : BitVec 8) (s : State) : Result :=
  match regOfNumber reg with
  | none => raise .illegalCommand s
  | some r => respond (s.reg r) s

/-- STC (R123): the index is checked before the unit. -/
def execStc (index : Word) (unit : BitVec 16) (s : State) : Result :=
  if s.outsideCover index then raise .range s
  else if 2 ^ s.cfg.unitWidth ≤ unit.toNat then raise .range s
  else respond 0 { s with cover := Memory.write s.cover index.toNat unit }

/-- LDC (R124). -/
def execLdc (index : Word) (s : State) : Result := loadElement s.cfg.coverSize s.cover index s

/-- STD (R125). -/
def execStd (index : Word) (b : BitVec 16) (s : State) : Result :=
  if s.cfg.dataSize ≤ index.toNat then raise .range s
  else respond 0 { s with data := Memory.write s.data index.toNat (byteOperand b) }

/-- LDD (R126). -/
def execLdd (index : Word) (s : State) : Result := loadElement s.cfg.dataSize s.data index s

/-- STK (R127). -/
def execStk (index : Word) (b : BitVec 16) (s : State) : Result :=
  if s.cfg.keySize ≤ index.toNat then raise .range s
  else respond 0 { s with key := Memory.write s.key index.toNat (byteOperand b) }

/-- LDK (R128). -/
def execLdk (index : Word) (s : State) : Result := loadElement s.cfg.keySize s.key index s

/-- STT (R129). -/
def execStt (index : Word) (b : BitVec 16) (s : State) : Result :=
  if tagBytes ≤ index.toNat then raise .range s
  else respond 0 { s with tag := Memory.write s.tag index.toNat (byteOperand b) }

/-- LDT (R130). -/
def execLdt (index : Word) (s : State) : Result := loadElement tagBytes s.tag index s

end Sys2Proof.Machine
end

