-- ==== Sys2Proof/Machine/Dispatch.lean ====
section
/-! DEFINITION. One arm per command, each a direct call of its meaning (R95). -/

namespace Sys2Proof.Machine

def exec (i : Instr) (s : State) : Host.Outcome State Fault Refusal :=
  match i with
  -- family 40
  | .wrr reg value => Sys2Proof.Machine.execWrr reg value s
  | .rdr reg => Sys2Proof.Machine.execRdr reg s
  | .stc index unit => Sys2Proof.Machine.execStc index unit s
  | .ldc index => Sys2Proof.Machine.execLdc index s
  | .std index b => Sys2Proof.Machine.execStd index b s
  | .ldd index => Sys2Proof.Machine.execLdd index s
  | .stk index b => Sys2Proof.Machine.execStk index b s
  | .ldk index => Sys2Proof.Machine.execLdk index s
  | .stt index b => Sys2Proof.Machine.execStt index b s
  | .ldt index => Sys2Proof.Machine.execLdt index s
  -- family 41
  | .bqclr => Sys2Proof.Machine.execBqclr s
  | .pushb b => Sys2Proof.Machine.execPushb b s
  | .popb => Sys2Proof.Machine.execPopb s
  | .pushv k value => Sys2Proof.Machine.execPushv k value s
  | .popv k => Sys2Proof.Machine.execPopv k s
  | .pack k index => Sys2Proof.Machine.execPack k index s
  | .unpack k index => Sys2Proof.Machine.execUnpack k index s
  -- family 42
  | .dseed => Sys2Proof.Machine.execDseed s
  | .seedacc cp => Sys2Proof.Machine.execSeedacc cp s
  | .enc => Sys2Proof.Machine.execEnc s
  | .dec => Sys2Proof.Machine.execDec s
  -- family 43
  | .cstart => Sys2Proof.Machine.execCstart s
  | .draw n => Sys2Proof.Machine.execDraw n s
  -- family 44
  | .embed => Sys2Proof.Machine.execEmbed s
  | .extract => Sys2Proof.Machine.execExtract s

end Sys2Proof.Machine
end

