-- ==== Sys2Proof/Machine/Step.lean ====
section
/-! DEFINITION. One step: one command word taken from the host and run to its response (R3, R18). -/

namespace Sys2Proof.Machine

/-- One step. With no word presented the block is idle and its state holds (R266, log 5); a word that is no command is
rejected (R96); a command runs (R93). -/
def step (s : State) : Host.Outcome State Fault Refusal :=
  match fetch s with
  | none => .next s
  | some (w, t) =>
    match decode w with
    | .ok i => exec i t
    | .error e => rejectWord e t

/-- `s` with the word `w` presented as the very next command (log 5). -/
def State.withFetchWord (s : State) (nbits w : Nat) : State :=
  { s with cmds := BitVec.ofNat 64 (w % 2 ^ nbits) :: s.cmds }

end Sys2Proof.Machine
end

