-- ==== Sys2Proof/Machine/Pseudo.lean ====
section
/-! DEFINITION. What the spec gives the host's side of the port in commands: the assembler form (R102), the
pseudo-commands (R103), signed samples (R62), the padded tag (R65) and the bring-up order (R282). None of it is a
command of the block; each is a function to command words or to values (log 18). -/

namespace Sys2Proof.Machine

/-- The register name of R99, or the number where it names none. -/
def regName (a : BitVec 8) : String :=
  match regOfNumber a with
  | some .ctrl => "CTRL"
  | some .m => "M"
  | some .cap => "CAP"
  | some .pbl => "PBL"
  | some .dlen => "DLEN"
  | some .klen => "KLEN"
  | some .seed => "SEED"
  | some .start => "START"
  | some .bqv => "BQV"
  | some .bqn => "BQN"
  | some .err => "ERR"
  | none => toString a.toNat

/-- The operands of a command in the assembler form, numbers in decimal (R102). -/
def assemblerOperands : Instr → String
  | .wrr reg value => " " ++ regName reg ++ ", " ++ toString value.toNat
  | .rdr reg => " " ++ regName reg
  | .stc index unit => " [" ++ toString index.toNat ++ "], " ++ toString unit.toNat
  | .ldc index => " [" ++ toString index.toNat ++ "]"
  | .std index b => " [" ++ toString index.toNat ++ "], " ++ toString b.toNat
  | .ldd index => " [" ++ toString index.toNat ++ "]"
  | .stk index b => " [" ++ toString index.toNat ++ "], " ++ toString b.toNat
  | .ldk index => " [" ++ toString index.toNat ++ "]"
  | .stt index b => " [" ++ toString index.toNat ++ "], " ++ toString b.toNat
  | .ldt index => " [" ++ toString index.toNat ++ "]"
  | .bqclr => ""
  | .pushb b => " " ++ toString b.toNat
  | .popb => ""
  | .pushv k value => " " ++ toString k.toNat ++ ", " ++ toString value.toNat
  | .popv k => " " ++ toString k.toNat
  | .pack k index => " " ++ toString k.toNat ++ ", [" ++ toString index.toNat ++ "]"
  | .unpack k index => " " ++ toString k.toNat ++ ", [" ++ toString index.toNat ++ "]"
  | .dseed => ""
  | .seedacc cp => " " ++ toString cp.toNat
  | .enc => ""
  | .dec => ""
  | .cstart => ""
  | .draw n => " " ++ toString n.toNat
  | .embed => ""
  | .extract => ""

/-- The assembler form of a command (R102). -/
def assembler (i : Instr) : String := i.mnemonic ++ assemblerOperands i

/-- A byte as field `b`. -/
def ofByte (x : Byte) : BitVec 16 := x.setWidth 16

/-- `store index x` for each element of a list, indices from `i` on (R103). -/
def storeEach {α : Type} (store : Word → α → Instr) (i : Nat) : List α → List Instr
  | [] => []
  | x :: xs => store (BitVec.ofNat 32 i) x :: storeEach store (i + 1) xs

/-- `CLRERR` (R103). -/
def pseudoClrErr : List Instr := [.wrr 10 0]

/-- `SETKEY` (R103). -/
def pseudoSetKey (key : List Byte) : List Instr :=
  storeEach (fun i x => .stk i (ofByte x)) 0 key ++ [.wrr 5 (BitVec.ofNat 32 key.length)]

/-- `SETDATA` (R103). -/
def pseudoSetData (data : List Byte) : List Instr :=
  storeEach (fun i x => .std i (ofByte x)) 0 data ++ [.wrr 4 (BitVec.ofNat 32 data.length)]

/-- The ten bytes of a tag of at most ten: zero bytes after it (R65). -/
def padTag (tag : List Byte) : List Byte := tag ++ List.replicate (tagBytes - tag.length) 0

/-- The tag of ten bytes: the trailing zero bytes dropped (R65). -/
def stripTag (tag : List Byte) : List Byte := (tag.reverse.dropWhile (· == 0)).reverse

/-- `SETTAG`, always ten commands (R103). -/
def pseudoSetTag (tag : List Byte) : List Instr := storeEach (fun i x => .stt i (ofByte x)) 0 (padTag tag)

/-- `FILLCOVER n, v` (R103). -/
def pseudoFillCover (n : Nat) (v : CoverUnit) : List Instr :=
  storeEach .stc 0 (List.replicate n v) ++ [.wrr 2 (BitVec.ofNat 32 n)]

/-- `SEEDTEXT` (R103). -/
def pseudoSeedText (codePoints : List Word) : List Instr := .wrr 6 0 :: codePoints.map .seedacc

/-- The unit of a signed 16-bit sample, its two's-complement pattern (R62). -/
def unitOfSample (sample : Int) : CoverUnit := BitVec.ofInt 16 sample

/-- The signed reading of a 16-bit unit (R62). -/
def sampleOfUnit (unit : CoverUnit) : Int :=
  if unit.toNat < 2 ^ 15 then unit.toNat else (unit.toNat : Int) - 2 ^ 16

/-- The bring-up before the first EMBED, steps (1) to (6) (R282). -/
def bringUp (cover : List CoverUnit) (data tag key : List Byte) (m ctrl : Word) : List Instr :=
  storeEach .stc 0 cover ++ [.wrr 2 (BitVec.ofNat 32 cover.length)] ++ pseudoSetData data ++ pseudoSetTag tag ++
    pseudoSetKey key ++ [.wrr 1 m, .wrr 0 ctrl]

end Sys2Proof.Machine
end

