-- ==== Sys2Proof/Safety.lean ====
section
/-! DEFINITION. What a run of BPK is (R19) and what holds of every state a run reaches (R41). -/

namespace Sys2Proof.Machine

/-- A memory in canonical form, inside its size, its elements below `2 ^ bits` (R41, R71). -/
abbrev Memory.Inv {w : Nat} (size bits : Nat) (mem : Memory w) : Prop :=
  Memory.wf mem ∧ ∀ c ∈ mem, c.1 < size ∧ c.2.toNat < 2 ^ bits

/-- The invariants of R41, with what R71 says of the memories: no element outside its memory. `BQV < 2^BQN` holds of
any bit sequence. -/
structure State.Inv (s : State) : Prop where
  queue : s.bq.length ≤ bqDepth
  ctrl : s.ctrl.toNat < 4
  err : s.err &&& 0xFFFFFE01#32 = 0
  cover : Memory.Inv s.cfg.coverSize s.cfg.unitWidth s.cover
  data : Memory.Inv s.cfg.dataSize 8 s.data
  key : Memory.Inv s.cfg.keySize 8 s.key
  tag : Memory.Inv tagBytes 8 s.tag

/-- `n` steps from `s` end in `t`: each took a command word to its response, or held where none was presented. -/
def Runs (n : Nat) (s t : State) : Prop := Host.Core.run Sys2Proof.core n s = .next t

/-- A run of a program, a finite list of commands (R19): the state after the last response. -/
def RunsProgram (program : List Instr) (s t : State) : Prop :=
  Runs program.length { s with cmds := program.map encode } t

/-- A run in which the host chooses the next word from the responses so far, of at most `n` commands (R19). -/
def hostRun (host : List Response → Option CommandWord) : Nat → State → Result
  | 0, s => .next s
  | n + 1, s =>
    match host s.rsps with
    | none => .next s
    | some w =>
      match step (s.issue [w]) with
      | .next t => hostRun host n t
      | .fault r => .fault r
      | .refused r => .refused r

/-- The responses of a run are those added to the response port's list (R19). -/
def responsesSince (s t : State) : List Response := t.rsps.drop s.rsps.length

end Sys2Proof.Machine
end

