-- ==== Sys2Proof/Certificates/Slice0/Obligations.lean ====
section
/-! DEFINITION. The statements for the provers, and the vocabulary they are written in (`Sys2Proof.Spec`): the spec's own
formulas, written without the model's functions wherever the spec gives a formula. -/

namespace Sys2Proof.Spec

open Sys2Proof.Machine

/-- The state `s` with the response `(OK, v)` given (R92). -/
def ok (s : State) (v : Word) : State := { s with rsps := s.rsps ++ [⟨.ok, v⟩] }

/-- The state `s` after a command that failed with `c`: bit `c` of ERR set, the response `(c, 0)`, nothing else
changed (R253). -/
def failed (s : State) (c : Status) : State :=
  { s with err := s.err ||| BitVec.ofNat 32 (2 ^ c.code), rsps := s.rsps ++ [⟨c, 0⟩] }

/-- `i` is the command of exactly one word, the one with these fields (R91, R93 to R95). -/
def OnlyWord (i : Instr) (op a : BitVec 8) (b : BitVec 16) (imm : Word) : Prop :=
  ∀ w, decode w = .ok i ↔ w = commandWord op a b imm

/-- As `OnlyWord`, for a command whose `b` field is a byte: no word at all unless `b[15:8]` is zero (R94). -/
def OnlyByteWord (i : Instr) (op : BitVec 8) (b : BitVec 16) (imm : Word) : Prop :=
  ∀ w, decode w = .ok i ↔ b.toNat < 256 ∧ w = commandWord op 0 b imm

/-- `bitsof(k, v)` by index (R15). -/
def bitList (k v : Nat) : List Bool := (List.range k).map (fun i => v.testBit (k - 1 - i))

/-- `v` is `valof(bits)`: the number below `2^len` whose bit `len - 1 - i` is `bits[i]` (R15). -/
def IsValue (bits : List Bool) (v : Nat) : Prop :=
  v < 2 ^ bits.length ∧ ∀ i, (h : i < bits.length) → v.testBit (bits.length - 1 - i) = bits[i]

/-- `q` is `ceil(a / b)`: the least natural with `q * b >= a` (R16). -/
def IsCeilDiv (a b q : Nat) : Prop := a ≤ q * b ∧ ∀ r, a ≤ r * b → q ≤ r

/-- `mem'` is `mem` with element `i` replaced by `v` and every other element as before, still in canonical form. -/
def Updated {w : Nat} (mem mem' : Memory w) (i : Nat) (v : BitVec w) : Prop :=
  Memory.wf mem' ∧ ∀ j, Memory.read mem' j = if j = i then v else Memory.read mem j

/-- `deriveSeed` of `n` code points, as R170 recurs. -/
def seedOf (f : Nat → Nat) : Nat → Nat
  | 0 => 0
  | n + 1 => (seedOf f n * 31 + f n) % 2 ^ 32

/-- `deriveSeed` of the key bytes in use (R175, R179). -/
def keySeed (s : State) : Word :=
  BitVec.ofNat 32 (seedOf (fun i => (Memory.read s.key i).toNat) s.klen.toNat)

/-- Key byte `i mod KLEN`, byte `i` of the extended key (R171). -/
def keyByte (s : State) (i : Nat) : Nat := (Memory.read s.key (i % s.klen.toNat)).toNat

/-- Bit `i` of the header (R210, R211). -/
def headerBit (rand : Bool) (m len i : Nat) : Bool :=
  if i = 0 then rand else if i < 3 then (m - 1).testBit (2 - i) else len.testBit (34 - i)

/-- Byte `i` of the content EMBED writes (R214). -/
def contentByte (s : State) (i : Nat) : Nat :=
  if s.ctrl.getLsbD 1 then ((Memory.read s.data i).toNat + keyByte s i) % 256 else (Memory.read s.data i).toNat

/-- Bit `i` of the payload EMBED writes (R214). -/
def payloadBit (s : State) (i : Nat) : Bool :=
  if i < 80 then (Memory.read s.tag (i / 8)).getLsbD (7 - i % 8)
  else if i = 80 then s.ctrl.getLsbD 1
  else (contentByte s ((i - 81) / 8)).testBit (7 - (i - 81) % 8)

/-- The bits unit `j` of a payload of `len` bits carries, `r_j` (R144, R215). -/
def groupSize (len m j : Nat) : Nat := min m (len - j * m)

/-- The start offset of a payload of `n` units (R191, R195): fixed, or drawn with the seed of the key in use. -/
def startOffset (s : State) (rand : Bool) (n : Nat) : Nat :=
  if rand then
    35 + s.cfg.safety + prngDraw s.cfg.generator (keySeed s) (s.cap.toNat - n - 35 - s.cfg.safety)
  else 35

/-- The payload of `n` units has a place (R191, R216 step 6): strictly more room than `SAFETY` asks when it is drawn. -/
def HasRoom (s : State) (rand : Bool) (n : Nat) : Prop :=
  if rand then 35 + s.cfg.safety + n < s.cap.toNat else 35 + n ≤ s.cap.toNat

/-- The checks of EMBED all pass, the payload taking `n` units (R216 steps 1 to 6). -/
structure EmbedReady (s : State) (n : Nat) : Prop where
  cap : s.cap.toNat ≤ s.cfg.coverSize
  dlen : s.dlen.toNat ≤ s.cfg.dataSize
  klen : s.klen.toNat ≤ s.cfg.keySize
  m : 1 ≤ s.m.toNat ∧ s.m.toNat ≤ 4
  key : s.ctrl.getLsbD 1 = true ∨ s.ctrl.getLsbD 0 = true → s.klen.toNat ≠ 0
  units : IsCeilDiv (81 + 8 * s.dlen.toNat) s.m.toNat n
  room : HasRoom s (s.ctrl.getLsbD 0) n

/-- SEED after a sequencer command: the derived seed where the placement is random (R28). -/
def seedIfRandom (s : State) (rand : Bool) : Word := if rand then keySeed s else s.seed

/-- Header bit `i` of the cover, bit 0 of unit `i` (R210). -/
def coverBit (s : State) (i : Nat) : Bool := (Memory.read s.cover i).getLsbD 0

/-- The header's `m` (R211). -/
def headerM (s : State) : Nat := 2 * (coverBit s 1).toNat + (coverBit s 2).toNat + 1

/-- Bit `i` of the payload of `len` bits read at `start`, `m` bits per unit (R215). -/
def readBit (s : State) (start m len i : Nat) : Bool :=
  (Memory.read s.cover (start + i / m)).getLsbD (groupSize len m (i / m) - 1 - i % m)

/-- The checks of EXTRACT up to the payload's own all pass: `len` is the header's length, in `n` units (R219 steps 1 to
7). -/
structure ExtractReady (s : State) (len n : Nat) : Prop where
  cap : 35 ≤ s.cap.toNat ∧ s.cap.toNat ≤ s.cfg.coverSize
  klen : s.klen.toNat ≤ s.cfg.keySize
  headerLength : IsValue ((List.range 32).map (fun i => coverBit s (3 + i))) len
  key : coverBit s 0 = true → s.klen.toNat ≠ 0
  units : IsCeilDiv len (headerM s) n
  room : HasRoom s (coverBit s 0) n

end Sys2Proof.Spec

open Sys2Proof Sys2Proof.Machine Sys2Proof.Spec

/-! ## Encoding -/

/-- R104: the worked encodings. -/
def Obligations.WorkedEncodings : Prop :=
  encode (.wrr 2 1000) = 0x01020000000003E8#64 ∧ decode 0x01020000000003E8#64 = .ok (.wrr 2 1000) ∧
  encode (.rdr 10) = 0x020A000000000000#64 ∧ decode 0x020A000000000000#64 = .ok (.rdr 10) ∧
  encode (.stc 35 0x00FF) = 0x030000FF00000023#64 ∧ decode 0x030000FF00000023#64 = .ok (.stc 35 0x00FF) ∧
  encode (.std 0 0x68) = 0x0500006800000000#64 ∧ decode 0x0500006800000000#64 = .ok (.std 0 0x68) ∧
  encode (.pushv 32 97) = 0x1320000000000061#64 ∧ decode 0x1320000000000061#64 = .ok (.pushv 32 97) ∧
  encode (.pack 2 35) = 0x1502000000000023#64 ∧ decode 0x1502000000000023#64 = .ok (.pack 2 35) ∧
  encode (.seedacc 0x20AC) = 0x21000000000020AC#64 ∧ decode 0x21000000000020AC#64 = .ok (.seedacc 0x20AC) ∧
  encode .embed = 0x4000000000000000#64 ∧ decode 0x4000000000000000#64 = .ok .embed ∧
  encode .extract = 0x4100000000000000#64 ∧ decode 0x4100000000000000#64 = .ok .extract ∧
  decode 0x0000000000000000#64 = .error .unassignedOpcode ∧
  decode 0x4000000000000001#64 = .error .nonzeroUnusedField ∧
  decode 0x0500016800000000#64 = .error .nonzeroUnusedField ∧
  decode 0x0108000000000000#64 = .ok (.wrr 8 0) ∧ ∀ s, exec (.wrr 8 0) s = .next (failed s .illegalCommand)

/-- R91, R93 to R95: decoding inverts encoding on every well-formed command, and a command that is not well formed has
no word. -/
def Obligations.DecodeInvertsEncode : Prop :=
  ∀ i : Instr, (i.wellFormed = true → decode (encode i) = .ok i) ∧
    (i.wellFormed = false → ∀ w, decode w ≠ .ok i)

/-- R91, R93: a word decodes to a command only if it is that command's word; the word's number is R91's sum. -/
def Obligations.EncodeInvertsDecode : Prop :=
  (∀ w i, decode w = .ok i → i.wellFormed = true ∧ encode i = w) ∧
    ∀ op a b imm, (commandWord op a b imm).toNat =
      op.toNat * 2 ^ 56 + a.toNat * 2 ^ 48 + b.toNat * 2 ^ 32 + imm.toNat

/-- R94: a word decodes to a row's command exactly when `w AND mask = match`, rows are disjoint, and masks and matches
are those of the opcode table. -/
def Obligations.DecodingIsRowSelection : Prop :=
  (∀ w i, decode w = .ok i → ∃ r ∈ commandTable, w &&& r.mask = r.pattern ∧ r.mnemonic = i.mnemonic) ∧
  (∀ w, ∀ r ∈ commandTable, w &&& r.mask = r.pattern → ∃ i, decode w = .ok i ∧ i.mnemonic = r.mnemonic) ∧
  (∀ w, ∀ r ∈ commandTable, ∀ q ∈ commandTable,
    w &&& r.mask = r.pattern → w &&& q.mask = q.pattern → r.mnemonic = q.mnemonic) ∧
  commandTable.map (fun r => (r.mnemonic, r.pattern, r.mask)) =
    [("WRR", 0x0100000000000000#64, 0xFF00FFFF00000000#64), ("RDR", 0x0200000000000000#64, 0xFF00FFFFFFFFFFFF#64),
     ("STC", 0x0300000000000000#64, 0xFFFF000000000000#64), ("LDC", 0x0400000000000000#64, 0xFFFFFFFF00000000#64),
     ("STD", 0x0500000000000000#64, 0xFFFFFF0000000000#64), ("LDD", 0x0600000000000000#64, 0xFFFFFFFF00000000#64),
     ("STK", 0x0700000000000000#64, 0xFFFFFF0000000000#64), ("LDK", 0x0800000000000000#64, 0xFFFFFFFF00000000#64),
     ("STT", 0x0900000000000000#64, 0xFFFFFF0000000000#64), ("LDT", 0x0A00000000000000#64, 0xFFFFFFFF00000000#64),
     ("BQCLR", 0x1000000000000000#64, 0xFFFFFFFFFFFFFFFF#64), ("PUSHB", 0x1100000000000000#64, 0xFFFFFF00FFFFFFFF#64),
     ("POPB", 0x1200000000000000#64, 0xFFFFFFFFFFFFFFFF#64), ("PUSHV", 0x1300000000000000#64, 0xFF00FFFF00000000#64),
     ("POPV", 0x1400000000000000#64, 0xFF00FFFFFFFFFFFF#64), ("PACK", 0x1500000000000000#64, 0xFF00FFFF00000000#64),
     ("UNPACK", 0x1600000000000000#64, 0xFF00FFFF00000000#64), ("DSEED", 0x2000000000000000#64, 0xFFFFFFFFFFFFFFFF#64),
     ("SEEDACC", 0x2100000000000000#64, 0xFFFFFFFF00000000#64), ("ENC", 0x2200000000000000#64, 0xFFFFFFFFFFFFFFFF#64),
     ("DEC", 0x2300000000000000#64, 0xFFFFFFFFFFFFFFFF#64), ("CSTART", 0x3000000000000000#64, 0xFFFFFFFFFFFFFFFF#64),
     ("DRAW", 0x3100000000000000#64, 0xFFFFFFFF00000000#64), ("EMBED", 0x4000000000000000#64, 0xFFFFFFFFFFFFFFFF#64),
     ("EXTRACT", 0x4100000000000000#64, 0xFFFFFFFFFFFFFFFF#64)]

/-! ## The step -/

/-- A step runs the decoded command: the word is taken from the command port and `exec` is the whole of the rest. The
port as a list is the model's choice (log 5). -/
def Obligations.StepRunsDecodedCommand : Prop :=
  ∀ (s : State) w rest i, s.cmds = w :: rest → decode w = .ok i → step s = exec i { s with cmds := rest }

/-- R96: a word with an unassigned opcode or a non-zero must-be-zero bit is `ILLEGAL_COMMAND` and changes nothing else;
the all-zero and the all-one word are such words. -/
def Obligations.IllegalWordSetsOnlyErr : Prop :=
  (∀ (s : State) w rest, s.cmds = w :: rest →
    ((∀ r ∈ commandTable, r.op ≠ opField w) ∨ ∃ r ∈ commandTable, r.op = opField w ∧ w &&& r.mask ≠ r.pattern) →
    step s = .next { s with cmds := rest, err := s.err ||| 0x40#32, rsps := s.rsps ++ [⟨.illegalCommand, 0⟩] }) ∧
  commandTable.map Row.op = [0x01, 0x02, 0x03, 0x04, 0x05, 0x06, 0x07, 0x08, 0x09, 0x0A, 0x10, 0x11, 0x12, 0x13, 0x14,
    0x15, 0x16, 0x20, 0x21, 0x22, 0x23, 0x30, 0x31, 0x40, 0x41] ∧
  (∀ r ∈ commandTable, r.op ≠ opField 0#64 ∧ r.op ≠ opField 0xFFFFFFFFFFFFFFFF#64)

/-- R266: with no command presented the block is idle and its state holds. That a step with an empty port is an idle
step is the model's choice (log 5). -/
def Obligations.IdleStateHolds : Prop := ∀ s : State, s.cmds = [] → step s = .next s

/-- R18, R250: every command word, whatever the state, is taken and ends with exactly one response. -/
def Obligations.EveryWordIsAnsweredOnce : Prop :=
  ∀ (s : State) w rest, s.cmds = w :: rest →
    ∃ t r, step s = .next t ∧ t.cmds = rest ∧ t.rsps = s.rsps ++ [r] ∧ t.cfg = s.cfg ∧ (r.status ≠ .ok → r.value = 0)

/-- R19: every program runs to the response of its last word, one response per word. -/
def Obligations.EveryProgramRunsToItsEnd : Prop :=
  ∀ (s : State) (words : List CommandWord),
    ∃ t added, Runs words.length { s with cmds := words } t ∧ t.cmds = [] ∧ t.rsps = s.rsps ++ added ∧
      added.length = words.length

/-- R251, R92: the status numbers, and the response as a word on the port. -/
def Obligations.StatusNumbersAndResponseWord : Prop :=
  [Status.ok, .invalidParameterM, .emptyKey, .insufficientCapacity, .corruptHeader, .malformedPayload, .illegalCommand,
    .range, .bqFault].map Status.code = [0, 1, 2, 3, 4, 5, 6, 7, 8] ∧
  ∀ r : Response, r.word.toNat = r.status.code * 2 ^ 32 + r.value.toNat

/-! ## Reset and the invariant -/

/-- R39: what reset leaves, the contents of the four memories being any. -/
def Obligations.ResetLeavesZeroAndEmptyQueue : Prop :=
  (∀ (cfg : Config) cover data key tag,
    (∀ r : Reg, (State.afterReset cfg cover data key tag).reg r = 0) ∧
    (State.afterReset cfg cover data key tag).bq = [] ∧
    (State.afterReset cfg cover data key tag).cover = cover ∧ (State.afterReset cfg cover data key tag).data = data ∧
    (State.afterReset cfg cover data key tag).key = key ∧ (State.afterReset cfg cover data key tag).tag = tag) ∧
  ∀ r : Reg, State.reset.reg r = 0

/-- R41: the invariants hold after reset, whatever the memories then hold within their widths, and in `State.reset`. -/
def Obligations.InvariantHoldsAfterReset : Prop :=
  (∀ (cfg : Config) cover data key tag,
    Memory.Inv cfg.coverSize cfg.unitWidth cover → Memory.Inv cfg.dataSize 8 data → Memory.Inv cfg.keySize 8 key →
    Memory.Inv 10 8 tag → (State.afterReset cfg cover data key tag).Inv) ∧
  State.reset.Inv

/-- R41: the invariants hold after every step from a state in which they hold, whatever the host sends. -/
def Obligations.EveryStepKeepsInvariant : Prop :=
  ∀ s t : State, s.Inv → step s = .next t → t.Inv

/-! ## Rules about every command -/

/-- R254: a command that ends with an error status changes nothing but its bit of ERR, and fails the same way again. -/
def Obligations.FailedCommandChangesOnlyErr : Prop :=
  ∀ (i : Instr) (s t : State) r, exec i s = .next t → t.rsps = s.rsps ++ [r] → r.status ≠ .ok →
    t = failed s r.status ∧ exec i t = .next (failed t r.status)

/-- R253: a command that succeeds does not touch ERR, unless it is a WRR to ERR; a WRR to ERR with a non-zero `b` stores
nothing and sets bit 6. -/
def Obligations.SucceedingCommandKeepsErr : Prop :=
  (∀ (i : Instr) (s t : State) v, exec i s = .next t → t.rsps = s.rsps ++ [⟨.ok, v⟩] → (∀ x, i ≠ .wrr 10 x) →
    t.err = s.err) ∧
  ∀ (s : State) b imm rest, b ≠ 0 → s.cmds = commandWord 0x01 10 b imm :: rest →
    step s = .next (failed { s with cmds := rest } .illegalCommand)

/-- R33: an error bit once set stays set, whatever is sent, until a WRR to ERR. -/
def Obligations.ErrBitsAreSticky : Prop :=
  ∀ (s t : State) (c : Nat), step s = .next t → s.err.getLsbD c = true →
    (∀ w rest x, s.cmds = w :: rest → decode w ≠ .ok (.wrr 10 x)) → t.err.getLsbD c = true

/-- R35: no command's behaviour depends on ERR: with another ERR it gives the same response and the same state but for
ERR. RDR of ERR is the one command that shows it. -/
def Obligations.NoCommandDependsOnErr : Prop :=
  ∀ (i : Instr) (s t : State) e, i ≠ .rdr 10 → exec i s = .next t →
    ∃ e', exec i { s with err := e } = .next { t with err := e' }

/-- R18: a command's result depends on nothing but CFG, the registers, the queue and the memories: what waits on the port
and what was answered before change nothing. -/
def Obligations.ResultIgnoresPortHistory : Prop :=
  ∀ (i : Instr) (s : State) cmds rsps, ∃ t r, exec i s = .next t ∧ t.rsps = s.rsps ++ [r] ∧
    exec i { s with cmds := cmds, rsps := rsps } = .next { t with cmds := cmds, rsps := rsps ++ [r] }

/-- R40, the registers: which command can change which. -/
def Obligations.RegistersChangeOnlyByTheirWriters : Prop :=
  ∀ (i : Instr) (s t : State), exec i s = .next t →
    (t.cap ≠ s.cap → ∃ v, i = .wrr 2 v) ∧
    (t.klen ≠ s.klen → ∃ v, i = .wrr 5 v) ∧
    (t.ctrl ≠ s.ctrl → (∃ v, i = .wrr 0 v) ∨ i = .extract) ∧
    (t.m ≠ s.m → (∃ v, i = .wrr 1 v) ∨ i = .extract) ∧
    (t.dlen ≠ s.dlen → (∃ v, i = .wrr 4 v) ∨ i = .extract) ∧
    (t.pbl ≠ s.pbl → (∃ v, i = .wrr 3 v) ∨ i = .embed ∨ i = .extract) ∧
    (t.start ≠ s.start → (∃ v, i = .wrr 7 v) ∨ i = .cstart ∨ i = .embed ∨ i = .extract) ∧
    (t.seed ≠ s.seed → (∃ v, i = .wrr 6 v) ∨ i = .dseed ∨ (∃ c, i = .seedacc c) ∨ i = .embed ∨ i = .extract) ∧
    t.cfg = s.cfg ∧ t.cmds = s.cmds

/-- R40 and R66, the queue and the memories: which command can change which. -/
def Obligations.MemoriesChangeOnlyByTheirWriters : Prop :=
  ∀ (i : Instr) (s t : State), exec i s = .next t →
    (t.key ≠ s.key → ∃ a b, i = .stk a b) ∧
    (t.tag ≠ s.tag → (∃ a b, i = .stt a b) ∨ i = .extract) ∧
    (t.data ≠ s.data → (∃ a b, i = .std a b) ∨ i = .enc ∨ i = .dec ∨ i = .extract) ∧
    (t.cover ≠ s.cover → (∃ a b, i = .stc a b) ∨ (∃ k a, i = .pack k a) ∨ i = .embed) ∧
    (t.bq ≠ s.bq → i = .bqclr ∨ (∃ b, i = .pushb b) ∨ i = .popb ∨ (∃ k v, i = .pushv k v) ∨ (∃ k, i = .popv k) ∨
      (∃ k a, i = .pack k a) ∨ ∃ k a, i = .unpack k a)

/-- R30, R154 (e): the queue is first-in first-out: a command other than BQCLR takes bits from the head or adds bits at
the tail, and bits keep their order. -/
def Obligations.QueueIsFirstInFirstOut : Prop :=
  ∀ (i : Instr) (s t : State), i ≠ .bqclr → exec i s = .next t →
    ∃ out added, s.bq ++ added = out ++ t.bq ∧ (out = [] ∨ added = []) ∧ (s.bq.length ≤ 32 → t.bq.length ≤ 32)

/-! ## Family 40 -/

/-- R121: WRR. -/
def Obligations.WrrStoresRegister : Prop :=
  ∀ (s : State) (reg : BitVec 8) (value : Word),
    OnlyWord (.wrr reg value) 0x01 reg 0 value ∧
    exec (.wrr 0 value) s = .next (ok { s with ctrl := value &&& 0x00000003#32 } 0) ∧
    exec (.wrr 1 value) s = .next (ok { s with m := value } 0) ∧
    exec (.wrr 2 value) s = .next (ok { s with cap := value } 0) ∧
    exec (.wrr 3 value) s = .next (ok { s with pbl := value } 0) ∧
    exec (.wrr 4 value) s = .next (ok { s with dlen := value } 0) ∧
    exec (.wrr 5 value) s = .next (ok { s with klen := value } 0) ∧
    exec (.wrr 6 value) s = .next (ok { s with seed := value } 0) ∧
    exec (.wrr 7 value) s = .next (ok { s with start := value } 0) ∧
    exec (.wrr 10 value) s = .next (ok { s with err := value &&& 0x000001FE#32 } 0) ∧
    (reg.toNat = 8 ∨ reg.toNat = 9 ∨ 10 < reg.toNat → exec (.wrr reg value) s = .next (failed s .illegalCommand))

/-- R122: RDR; a queue of at most 32 bits (R30) is premised for its two views alone, and the invariant of R41 for the
reserved bits that read 0. -/
def Obligations.RdrReadsRegister : Prop :=
  ∀ (s : State) (reg : BitVec 8),
    OnlyWord (.rdr reg) 0x02 reg 0 0 ∧
    exec (.rdr 0) s = .next (ok s s.ctrl) ∧ exec (.rdr 1) s = .next (ok s s.m) ∧
    exec (.rdr 2) s = .next (ok s s.cap) ∧ exec (.rdr 3) s = .next (ok s s.pbl) ∧
    exec (.rdr 4) s = .next (ok s s.dlen) ∧ exec (.rdr 5) s = .next (ok s s.klen) ∧
    exec (.rdr 6) s = .next (ok s s.seed) ∧ exec (.rdr 7) s = .next (ok s s.start) ∧
    exec (.rdr 10) s = .next (ok s s.err) ∧
    (s.bq.length ≤ 32 → (∃ v, exec (.rdr 8) s = .next (ok s v) ∧ IsValue s.bq v.toNat) ∧
      ∃ v, exec (.rdr 9) s = .next (ok s v) ∧ v.toNat = s.bq.length) ∧
    (s.Inv → s.ctrl &&& 0xFFFFFFFC#32 = 0 ∧ s.err &&& 0xFFFFFE01#32 = 0) ∧
    (10 < reg.toNat → exec (.rdr reg) s = .next (failed s .illegalCommand))

/-- R123: STC. -/
def Obligations.StcStoresUnit : Prop :=
  ∀ (s : State) index unit, Memory.wf s.cover →
    OnlyWord (.stc index unit) 0x03 0 unit index ∧
    (s.cfg.coverSize ≤ index.toNat ∨ 2 ^ s.cfg.unitWidth ≤ unit.toNat →
      exec (.stc index unit) s = .next (failed s .range)) ∧
    (index.toNat < s.cfg.coverSize → unit.toNat < 2 ^ s.cfg.unitWidth →
      ∃ cover', exec (.stc index unit) s = .next (ok { s with cover := cover' } 0) ∧
        Updated s.cover cover' index.toNat unit)

/-- R125, R127, R129: STD, STK and STT. -/
def Obligations.ByteStoresWriteOneByte : Prop :=
  ∀ (s : State) index (b : BitVec 16), Memory.wf s.data → Memory.wf s.key → Memory.wf s.tag →
    OnlyByteWord (.std index b) 0x05 b index ∧ OnlyByteWord (.stk index b) 0x07 b index ∧
    OnlyByteWord (.stt index b) 0x09 b index ∧
    (s.cfg.dataSize ≤ index.toNat → exec (.std index b) s = .next (failed s .range)) ∧
    (s.cfg.keySize ≤ index.toNat → exec (.stk index b) s = .next (failed s .range)) ∧
    (10 ≤ index.toNat → exec (.stt index b) s = .next (failed s .range)) ∧
    (index.toNat < s.cfg.dataSize → ∃ data', exec (.std index b) s = .next (ok { s with data := data' } 0) ∧
      Updated s.data data' index.toNat (BitVec.ofNat 8 b.toNat)) ∧
    (index.toNat < s.cfg.keySize → ∃ key', exec (.stk index b) s = .next (ok { s with key := key' } 0) ∧
      Updated s.key key' index.toNat (BitVec.ofNat 8 b.toNat)) ∧
    (index.toNat < 10 → ∃ tag', exec (.stt index b) s = .next (ok { s with tag := tag' } 0) ∧
      Updated s.tag tag' index.toNat (BitVec.ofNat 8 b.toNat))

/-- R124, R126, R128, R130: LDC, LDD, LDK and LDT; under the invariant of R41 bits 31 to `W` of a unit read are 0. -/
def Obligations.LoadsAnswerTheElement : Prop :=
  ∀ (s : State) index,
    OnlyWord (.ldc index) 0x04 0 0 index ∧ OnlyWord (.ldd index) 0x06 0 0 index ∧
    OnlyWord (.ldk index) 0x08 0 0 index ∧ OnlyWord (.ldt index) 0x0A 0 0 index ∧
    exec (.ldc index) s = .next (if index.toNat < s.cfg.coverSize
      then ok s (BitVec.ofNat 32 (Memory.read s.cover index.toNat).toNat) else failed s .range) ∧
    exec (.ldd index) s = .next (if index.toNat < s.cfg.dataSize
      then ok s (BitVec.ofNat 32 (Memory.read s.data index.toNat).toNat) else failed s .range) ∧
    exec (.ldk index) s = .next (if index.toNat < s.cfg.keySize
      then ok s (BitVec.ofNat 32 (Memory.read s.key index.toNat).toNat) else failed s .range) ∧
    exec (.ldt index) s = .next (if index.toNat < 10
      then ok s (BitVec.ofNat 32 (Memory.read s.tag index.toNat).toNat) else failed s .range) ∧
    (s.Inv → (Memory.read s.cover index.toNat).toNat < 2 ^ s.cfg.unitWidth)

/-! ## Family 41 -/

/-- R147, R148: BQCLR and PUSHB. -/
def Obligations.BqclrEmptiesAndPushbAppends : Prop :=
  ∀ (s : State) (b : BitVec 16),
    OnlyWord .bqclr 0x10 0 0 0 ∧ OnlyByteWord (.pushb b) 0x11 b 0 ∧
    exec .bqclr s = .next (ok { s with bq := [] } 0) ∧
    (32 < s.bq.length + 8 → exec (.pushb b) s = .next (failed s .bqFault)) ∧
    (s.bq.length + 8 ≤ 32 →
      exec (.pushb b) s = .next (ok { s with bq := s.bq ++ bitList 8 (b.toNat % 256) } 0))

/-- R149: POPB. -/
def Obligations.PopbTakesOneByte : Prop :=
  ∀ s : State,
    OnlyWord .popb 0x12 0 0 0 ∧
    (s.bq.length < 8 → exec .popb s = .next (failed s .malformedPayload)) ∧
    (8 ≤ s.bq.length → ∃ v, exec .popb s = .next (ok { s with bq := s.bq.drop 8 } v) ∧
      IsValue (s.bq.take 8) v.toNat)

/-- R150: PUSHV, its errors in their order. -/
def Obligations.PushvAppendsValue : Prop :=
  ∀ (s : State) (k : BitVec 8) (value : Word),
    OnlyWord (.pushv k value) 0x13 k 0 value ∧
    (k.toNat < 1 ∨ 32 < k.toNat ∨ 2 ^ k.toNat ≤ value.toNat → exec (.pushv k value) s = .next (failed s .range)) ∧
    (1 ≤ k.toNat → k.toNat ≤ 32 → value.toNat < 2 ^ k.toNat →
      (32 < s.bq.length + k.toNat → exec (.pushv k value) s = .next (failed s .bqFault)) ∧
      (s.bq.length + k.toNat ≤ 32 →
        exec (.pushv k value) s = .next (ok { s with bq := s.bq ++ bitList k.toNat value.toNat } 0)))

/-- R151: POPV, its errors in their order. -/
def Obligations.PopvTakesValue : Prop :=
  ∀ (s : State) (k : BitVec 8),
    OnlyWord (.popv k) 0x14 k 0 0 ∧
    (k.toNat < 1 ∨ 32 < k.toNat → exec (.popv k) s = .next (failed s .range)) ∧
    (1 ≤ k.toNat → k.toNat ≤ 32 →
      (s.bq.length < k.toNat → exec (.popv k) s = .next (failed s .bqFault)) ∧
      (k.toNat ≤ s.bq.length → ∃ v, exec (.popv k) s = .next (ok { s with bq := s.bq.drop k.toNat } v) ∧
        IsValue (s.bq.take k.toNat) v.toNat))

/-- R152: PACK, its errors in their order, and the unit bit by bit. -/
def Obligations.PackReplacesLowBits : Prop :=
  ∀ (s : State) (k : BitVec 8) (index : Word), Memory.wf s.cover →
    OnlyWord (.pack k index) 0x15 k 0 index ∧
    (k.toNat < 1 ∨ s.cfg.mMax < k.toNat → exec (.pack k index) s = .next (failed s .invalidParameterM)) ∧
    (1 ≤ k.toNat → k.toNat ≤ s.cfg.mMax →
      (s.cfg.coverSize ≤ index.toNat → exec (.pack k index) s = .next (failed s .range)) ∧
      (index.toNat < s.cfg.coverSize →
        (s.bq.length < k.toNat → exec (.pack k index) s = .next (failed s .bqFault)) ∧
        (k.toNat ≤ s.bq.length → ∃ cover' unit',
          exec (.pack k index) s = .next (ok { s with bq := s.bq.drop k.toNat, cover := cover' } 0) ∧
          Updated s.cover cover' index.toNat unit' ∧
          ∀ j, unit'.getLsbD j = if j < k.toNat then s.bq.getD (k.toNat - 1 - j) false
            else (Memory.read s.cover index.toNat).getLsbD j)))

/-- R153: UNPACK, its errors in their order. -/
def Obligations.UnpackAppendsLowBits : Prop :=
  ∀ (s : State) (k : BitVec 8) (index : Word),
    OnlyWord (.unpack k index) 0x16 k 0 index ∧
    (k.toNat < 1 ∨ s.cfg.mMax < k.toNat → exec (.unpack k index) s = .next (failed s .invalidParameterM)) ∧
    (1 ≤ k.toNat → k.toNat ≤ s.cfg.mMax →
      (s.cfg.coverSize ≤ index.toNat → exec (.unpack k index) s = .next (failed s .range)) ∧
      (index.toNat < s.cfg.coverSize →
        (32 < s.bq.length + k.toNat → exec (.unpack k index) s = .next (failed s .bqFault)) ∧
        (s.bq.length + k.toNat ≤ 32 → exec (.unpack k index) s =
          .next (ok { s with bq := s.bq ++ bitList k.toNat (Memory.read s.cover index.toNat).toNat } 0))))

/-- R31, R32: the views of the queue. -/
def Obligations.QueueViewsDetermineQueue : Prop :=
  ∀ s : State, s.bq.length ≤ 32 →
    (s.reg .bqn).toNat = s.bq.length ∧ (s.reg .bqv).toNat < 2 ^ (s.reg .bqn).toNat ∧
    IsValue s.bq (s.reg .bqv).toNat ∧ s.bq = bitList (s.reg .bqn).toNat (s.reg .bqv).toNat ∧
    (s.bq = [] → s.reg .bqv = 0) ∧
    (∀ b, s.bq.length < 32 →
      ({ s with bq := s.bq ++ [b] }.reg .bqv).toNat = 2 * (s.reg .bqv).toNat + b.toNat) ∧
    (∀ k, k ≤ s.bq.length →
      ({ s with bq := s.bq.drop k }.reg .bqv).toNat = (s.reg .bqv).toNat % 2 ^ ((s.reg .bqn).toNat - k))

/-- R154 (a) to (c): a value pushed comes back, and bits packed into a unit come back. -/
def Obligations.PushPopAndPackUnpackComeBack : Prop :=
  (∀ (s : State) (b : BitVec 16), s.bq = [] → b.toNat < 256 → ∃ t u,
    exec (.pushb b) s = .next t ∧ exec .popb t = .next (ok u (BitVec.ofNat 32 b.toNat)) ∧ u.bq = []) ∧
  (∀ (s : State) (k : BitVec 8) (v : Word), s.bq = [] → 1 ≤ k.toNat → k.toNat ≤ 32 → v.toNat < 2 ^ k.toNat → ∃ t u,
    exec (.pushv k v) s = .next t ∧ exec (.popv k) t = .next (ok u v) ∧ u.bq = []) ∧
  (∀ (s : State) (k : BitVec 8) (index : Word), Memory.wf s.cover → s.bq.length = k.toNat → 1 ≤ k.toNat →
    k.toNat ≤ s.cfg.mMax → index.toNat < s.cfg.coverSize → ∃ t u,
    exec (.pack k index) s = .next t ∧ t.bq = [] ∧ exec (.unpack k index) t = .next u ∧ u.bq = s.bq ∧
      u.cover = t.cover)

/-- R140, R141: bytes to bits by index, and bits to bytes is its inverse or fails. -/
def Obligations.BytesAndBitsAreInverse : Prop :=
  (∀ (xs : List Byte) i, i < 8 * xs.length →
    (bytesToBits xs).getD i false = (xs.getD (i / 8) 0).getLsbD (7 - i % 8)) ∧
  (∀ xs : List Byte, (bytesToBits xs).length = 8 * xs.length ∧ bitsToBytes (bytesToBits xs) = some xs) ∧
  (∀ bits : List Bool, bits.length % 8 = 0 → ∃ xs, bitsToBytes bits = some xs ∧ bytesToBits xs = bits) ∧
  (∀ bits : List Bool, bits.length % 8 ≠ 0 → bitsToBytes bits = none)

/-! ## Family 42 -/

/-- R175: DSEED. -/
def Obligations.DseedDerivesSeed : Prop :=
  ∀ s : State,
    OnlyWord .dseed 0x20 0 0 0 ∧
    (s.cfg.keySize < s.klen.toNat → exec .dseed s = .next (failed s .range)) ∧
    (s.klen.toNat ≤ s.cfg.keySize → exec .dseed s = .next (ok { s with seed := keySeed s } (keySeed s)))

/-- R176: SEEDACC. -/
def Obligations.SeedaccAddsOneCharacter : Prop :=
  ∀ (s : State) (cp : Word),
    OnlyWord (.seedacc cp) 0x21 0 0 cp ∧
    ∃ v, exec (.seedacc cp) s = .next (ok { s with seed := v } v) ∧
      v.toNat = (s.seed.toNat * 31 + cp.toNat) % 2 ^ 32

/-- R170, R176: the commands of `SEEDTEXT` (R103) leave `deriveSeed` of the text in SEED. The run is by the model's
command port (log 5). -/
def Obligations.SeedTextDerivesSeed : Prop :=
  ∀ (s : State) (text : List Word), ∃ t, RunsProgram (pseudoSeedText text) s t ∧
    t.seed.toNat = seedOf (fun i => (text.getD i 0).toNat) text.length

/-- R177, R178: ENC and DEC, their errors in their order, and DATA byte by byte. -/
def Obligations.EncAndDecTransformData : Prop :=
  ∀ s : State, Memory.wf s.data →
    OnlyWord .enc 0x22 0 0 0 ∧ OnlyWord .dec 0x23 0 0 0 ∧
    (s.cfg.dataSize < s.dlen.toNat ∨ s.cfg.keySize < s.klen.toNat →
      exec .enc s = .next (failed s .range) ∧ exec .dec s = .next (failed s .range)) ∧
    (s.dlen.toNat ≤ s.cfg.dataSize → s.klen.toNat ≤ s.cfg.keySize →
      (s.klen.toNat = 0 → exec .enc s = .next (failed s .emptyKey) ∧ exec .dec s = .next (failed s .emptyKey)) ∧
      (s.klen.toNat ≠ 0 →
        (∃ data', exec .enc s = .next (ok { s with data := data' } 0) ∧ Memory.wf data' ∧
          ∀ i, (Memory.read data' i).toNat =
            if i < s.dlen.toNat then ((Memory.read s.data i).toNat + keyByte s i) % 256
            else (Memory.read s.data i).toNat) ∧
        ∃ data', exec .dec s = .next (ok { s with data := data' } 0) ∧ Memory.wf data' ∧
          ∀ i, (Memory.read data' i).toNat =
            if i < s.dlen.toNat then ((Memory.read s.data i).toNat + 256 - keyByte s i) % 256
            else (Memory.read s.data i).toNat))

/-- R174: ENC and DEC undo each other, in both orders, on the whole of DATA. -/
def Obligations.EncAndDecUndoEachOther : Prop :=
  ∀ s : State, Memory.wf s.data → s.dlen.toNat ≤ s.cfg.dataSize → s.klen.toNat ≤ s.cfg.keySize → s.klen.toNat ≠ 0 →
    (∃ t, exec .enc s = .next t ∧ exec .dec t = .next (ok (ok s 0) 0)) ∧
    ∃ t, exec .dec s = .next t ∧ exec .enc t = .next (ok (ok s 0) 0)

/-! ## Family 43 -/

/-- R196: CSTART, its errors in their order; the offset by the five steps of R191. -/
def Obligations.CstartComputesStart : Prop :=
  ∀ (s : State) (units : Nat),
    OnlyWord .cstart 0x30 0 0 0 ∧
    (s.m.toNat < 1 ∨ s.cfg.mMax < s.m.toNat → exec .cstart s = .next (failed s .invalidParameterM)) ∧
    (1 ≤ s.m.toNat → s.m.toNat ≤ s.cfg.mMax → IsCeilDiv s.pbl.toNat s.m.toNat units →
      ((s.cap.toNat : Int) - units - 35 - s.cfg.safety ≤ 0 → exec .cstart s = .next (failed s .insufficientCapacity)) ∧
      (0 < (s.cap.toNat : Int) - units - 35 - s.cfg.safety → ∃ r,
        exec .cstart s = .next (ok { s with start := r } r) ∧
        r.toNat = 35 + s.cfg.safety +
          prngDraw s.cfg.generator s.seed (s.cap.toNat - units - 35 - s.cfg.safety)))

/-- R198: the range of `computeStart`. -/
def Obligations.ComputedStartLiesInCover : Prop :=
  ∀ (cfg : Config) (len m cap units : Nat) (seed : Word) (r : Nat), 1 ≤ m → IsCeilDiv len m units →
    computeStart cfg len m cap seed = some r →
    35 + cfg.safety ≤ r ∧ r + units ≤ cap ∧ (cap < 2 ^ 32 → r < 2 ^ 32)

/-- R197: DRAW; the draw is at most `n` whatever the generator (R13, R199). -/
def Obligations.DrawAnswersWithinRange : Prop :=
  ∀ (s : State) (n : Word),
    OnlyWord (.draw n) 0x31 0 0 n ∧
    ∃ v, exec (.draw n) s = .next (ok s v) ∧ v.toNat = prngDraw s.cfg.generator s.seed n.toNat ∧ v.toNat ≤ n.toNat

/-- R192, R193: the reference generator. -/
def Obligations.ReferenceGeneratorIsTheLfsr : Prop :=
  (∀ s : Word, (lfsrStep s).toNat =
    if s.toNat % 2 = 0 then s.toNat / 2 else (s.toNat / 2) ^^^ 0x80200003) ∧
  (∀ (seed : Word) n, prngDraw .reference seed n =
    (lfsrStep^[32] (if seed = 0 then 0xFFFFFFFF#32 else seed)).toNat % (n + 1)) ∧
  (∀ g seed n, prngDraw g seed n ≤ n) ∧
  lfsrStep 0 = 0 ∧ lfsrStep 0x00000001 = 0x80200003#32 ∧ lfsrStep 0x80200003 = 0xC0300002#32 ∧
  lfsrStep 0xC0300002 = 0x60180001#32 ∧ lfsrStep 0x0000006B = 0x80200036#32 ∧
  prngDraw .reference 107 0 = 0 ∧ prngDraw .reference 107 1 = 1 ∧ prngDraw .reference 107 916 = 805 ∧
  prngDraw .reference 107 716 = 425 ∧ prngDraw .reference 106079 915 = 820 ∧ prngDraw .reference 0 100 = 53 ∧
  prngDraw .reference 107 (2 ^ 32 - 1) = 29388821 ∧ prngDraw .reference 0 (2 ^ 32 - 1) = 0x79FAEB6C ∧
  prngDraw .reference 0xFFFFFFFF (2 ^ 32 - 1) = 0x79FAEB6C ∧ prngDraw .reference 106079 (2 ^ 32 - 1) = 0xF8FE6FBC ∧
  prngDraw .reference 1 (2 ^ 32 - 1) = 0x8A0F3DB5

/-! ## Family 44 -/

/-- R217: the errors of EMBED in the order checked; each writes nothing (R218). -/
def Obligations.EmbedErrorsInOrder : Prop :=
  ∀ (s : State) (units : Nat), OnlyWord .embed 0x40 0 0 0 ∧
    (s.cfg.coverSize < s.cap.toNat ∨ s.cfg.dataSize < s.dlen.toNat ∨ s.cfg.keySize < s.klen.toNat →
      exec .embed s = .next (failed s .range)) ∧
    (s.cap.toNat ≤ s.cfg.coverSize → s.dlen.toNat ≤ s.cfg.dataSize → s.klen.toNat ≤ s.cfg.keySize →
      (s.m.toNat < 1 ∨ 4 < s.m.toNat → exec .embed s = .next (failed s .invalidParameterM)) ∧
      (1 ≤ s.m.toNat → s.m.toNat ≤ 4 →
        (s.ctrl.getLsbD 1 = true ∨ s.ctrl.getLsbD 0 = true → s.klen.toNat = 0 →
          exec .embed s = .next (failed s .emptyKey)) ∧
        ((s.ctrl.getLsbD 1 = true ∨ s.ctrl.getLsbD 0 = true → s.klen.toNat ≠ 0) →
          IsCeilDiv (81 + 8 * s.dlen.toNat) s.m.toNat units → ¬HasRoom s (s.ctrl.getLsbD 0) units →
          exec .embed s = .next (failed s .insufficientCapacity))))

/-- R216: EMBED completes when its checks pass: the response, PBL, START and SEED, and everything but COVER unchanged. -/
def Obligations.EmbedCompletes : Prop :=
  ∀ (s : State) (units : Nat), s.cfg.Ok → EmbedReady s units → ∃ cover' pbl' start',
    exec .embed s = .next (ok { s with
      cover := cover', pbl := pbl', start := start',
      seed := seedIfRandom s (s.ctrl.getLsbD 0) } start') ∧
    pbl'.toNat = 81 + 8 * s.dlen.toNat ∧ start'.toNat = startOffset s (s.ctrl.getLsbD 0) units

/-- R210, R211: after EMBED unit `i` below 35 carries header bit `i` in its bit 0 and keeps its other bits. -/
def Obligations.EmbedWritesHeader : Prop :=
  ∀ (s t : State) (units : Nat), Memory.wf s.cover → EmbedReady s units → exec .embed s = .next t →
    ∀ i, i < 35 → ∀ j, (Memory.read t.cover i).getLsbD j =
      if j = 0 then headerBit (s.ctrl.getLsbD 0) s.m.toNat (81 + 8 * s.dlen.toNat) i
      else (Memory.read s.cover i).getLsbD j

/-- R214, R215: after EMBED payload unit `j` carries payload bits `j*m` to `j*m + r_j - 1`, the first the highest, and
keeps its other bits; every unit outside the header and the payload region is as before, and so is DATA. -/
def Obligations.EmbedWritesPayload : Prop :=
  ∀ (s t : State) (units : Nat), Memory.wf s.cover → EmbedReady s units → exec .embed s = .next t →
    (∀ j, j < units → ∀ b, (Memory.read t.cover (t.start.toNat + j)).getLsbD b =
      if b < groupSize (81 + 8 * s.dlen.toNat) s.m.toNat j
      then payloadBit s (j * s.m.toNat + (groupSize (81 + 8 * s.dlen.toNat) s.m.toNat j - 1 - b))
      else (Memory.read s.cover (t.start.toNat + j)).getLsbD b) ∧
    (∀ u, 35 ≤ u → (u < t.start.toNat ∨ t.start.toNat + units ≤ u) →
      Memory.read t.cover u = Memory.read s.cover u) ∧
    t.data = s.data

/-- R70, R286: after a successful EMBED or EXTRACT the payload region starts at 35 or later, by `SAFETY` later when
drawn, and ends inside the cover. -/
def Obligations.PayloadRegionAvoidsHeader : Prop :=
  ∀ (i : Instr) (s t : State) v, s.cfg.Ok → i = .embed ∨ i = .extract → exec i s = .next t →
    t.rsps = s.rsps ++ [⟨.ok, v⟩] →
    35 ≤ t.start.toNat ∧ (t.ctrl.getLsbD 0 = true → 35 + s.cfg.safety ≤ t.start.toNat) ∧ 1 ≤ t.m.toNat ∧
    ∀ units, IsCeilDiv t.pbl.toNat t.m.toNat units → t.start.toNat + units ≤ s.cap.toNat

/-- R220: the errors of EXTRACT in the order checked; each writes nothing (R221). -/
def Obligations.ExtractErrorsInOrder : Prop :=
  ∀ (s : State) (len units : Nat), OnlyWord .extract 0x41 0 0 0 ∧
    (s.cfg.coverSize < s.cap.toNat ∨ s.cfg.keySize < s.klen.toNat → exec .extract s = .next (failed s .range)) ∧
    (s.cap.toNat ≤ s.cfg.coverSize → s.klen.toNat ≤ s.cfg.keySize →
      (s.cap.toNat < 35 → exec .extract s = .next (failed s .insufficientCapacity)) ∧
      (35 ≤ s.cap.toNat → IsValue ((List.range 32).map (fun i => coverBit s (3 + i))) len →
        IsCeilDiv len (headerM s) units →
        (1 ≤ headerM s ∧ headerM s ≤ s.cfg.mMax) ∧
        (coverBit s 0 = true → s.klen.toNat = 0 → exec .extract s = .next (failed s .emptyKey)) ∧
        ((coverBit s 0 = true → s.klen.toNat ≠ 0) →
          (¬HasRoom s (coverBit s 0) units → exec .extract s = .next (failed s .corruptHeader)) ∧
          (HasRoom s (coverBit s 0) units →
            (len < 81 ∨ (len - 81) % 8 ≠ 0 → exec .extract s = .next (failed s .malformedPayload)) ∧
            (81 ≤ len → (len - 81) % 8 = 0 →
              (s.cfg.dataSize < (len - 81) / 8 → exec .extract s = .next (failed s .range)) ∧
              ((len - 81) / 8 ≤ s.cfg.dataSize → s.klen.toNat = 0 →
                readBit s (startOffset s (coverBit s 0) units) (headerM s) len 80 = true →
                exec .extract s = .next (failed s .emptyKey)))))))

/-- R219: EXTRACT completes when its checks pass: the tag, the content (decrypted when the payload's flag is 1), the
registers it writes, and everything else unchanged. -/
def Obligations.ExtractRecoversTagAndContent : Prop :=
  ∀ (s : State) (len units n : Nat), Memory.wf s.tag → Memory.wf s.data → ExtractReady s len units →
    len = 81 + 8 * n → n ≤ s.cfg.dataSize →
    let bit := readBit s (startOffset s (coverBit s 0) units) (headerM s) len
    (bit 80 = true → s.klen.toNat ≠ 0) →
    ∃ tag' data' start' v,
      exec .extract s = .next (ok { s with
        tag := tag', data := data', dlen := v, m := BitVec.ofNat 32 (headerM s), pbl := BitVec.ofNat 32 len,
        ctrl := BitVec.ofNat 32 ((coverBit s 0).toNat + 2 * (bit 80).toNat), start := start',
        seed := seedIfRandom s (coverBit s 0) } v) ∧
      v.toNat = n ∧ start'.toNat = startOffset s (coverBit s 0) units ∧ Memory.wf tag' ∧ Memory.wf data' ∧
      (∀ i, (if i < 10 then ∀ j, j < 8 → (Memory.read tag' i).getLsbD (7 - j) = bit (8 * i + j)
        else Memory.read tag' i = Memory.read s.tag i)) ∧
      ∃ cipher : Nat → Byte, (∀ i, i < n → ∀ j, j < 8 → (cipher i).getLsbD (7 - j) = bit (81 + 8 * i + j)) ∧
        ∀ i, (Memory.read data' i).toNat =
          if i < n then (if bit 80 then ((cipher i).toNat + 256 - keyByte s i) % 256 else (cipher i).toNat)
          else (Memory.read s.data i).toNat

/-- R223: EXTRACT after EMBED gives back the content, the tag, CTRL and `m`, whatever the host does in between
to anything but COVER, KEY, KLEN and CAP. -/
def Obligations.ExtractInvertsEmbed : Prop :=
  ∀ (s : State) (units : Nat), s.cfg.Ok → s.Inv → EmbedReady s units →
    ∃ t, exec .embed s = .next t ∧
      ∀ u : State, u.cfg = t.cfg → u.cover = t.cover → u.key = t.key → u.klen = t.klen → u.cap = t.cap →
        Memory.wf u.tag → Memory.wf u.data →
        ∃ v, exec .extract u = .next v ∧ v.rsps = u.rsps ++ [⟨.ok, s.dlen⟩] ∧ v.dlen = s.dlen ∧
          (∀ i, i < s.dlen.toNat → Memory.read v.data i = Memory.read s.data i) ∧
          (∀ i, i < 10 → Memory.read v.tag i = Memory.read s.tag i) ∧ v.ctrl = s.ctrl ∧ v.m = s.m

/-- R222: with the CAP of EMBED and any key that is not empty, EXTRACT of a cover EMBED wrote ends with `OK` and as many
bytes as were embedded; with an empty key it ends with `EMPTY_KEY` where the placement was random or the content
encrypted, and nowhere else. -/
def Obligations.WrongKeyIsNotAnError : Prop :=
  ∀ (s : State) (units : Nat), s.cfg.Ok → s.Inv → EmbedReady s units →
    ∃ t, exec .embed s = .next t ∧
      ∀ (key : Memory 8) (klen : Word), klen.toNat ≤ s.cfg.keySize →
        (klen.toNat ≠ 0 ∨ s.ctrl = 0 →
          ∃ v, exec .extract { t with key := key, klen := klen } = .next v ∧ v.rsps = t.rsps ++ [⟨.ok, s.dlen⟩]) ∧
        (klen.toNat = 0 → s.ctrl ≠ 0 →
          exec .extract { t with key := key, klen := klen } =
            .next (failed { t with key := key, klen := klen } .emptyKey))

/-- R225: where no key is needed, KEY and KLEN change nothing but the RANGE check of KLEN. -/
def Obligations.UnneededKeyIsNotRead : Prop :=
  (∀ (s t : State) (key : Memory 8) (klen : Word), s.ctrl.getLsbD 0 = false → s.ctrl.getLsbD 1 = false →
    s.klen.toNat ≤ s.cfg.keySize → klen.toNat ≤ s.cfg.keySize → exec .embed s = .next t →
    exec .embed { s with key := key, klen := klen } = .next { t with key := key, klen := klen }) ∧
  (∀ (s t : State) (key : Memory 8) (klen : Word) v, coverBit s 0 = false → klen.toNat ≤ s.cfg.keySize →
    exec .extract s = .next t → t.rsps = s.rsps ++ [⟨.ok, v⟩] → t.ctrl.getLsbD 1 = false →
    exec .extract { s with key := key, klen := klen } = .next { t with key := key, klen := klen })

/-- R227, the header: 38 commands of family 41 write the header EMBED writes. The run is by the model's command port
(log 5). -/
def Obligations.HeaderByBitPackerCommands : Prop :=
  ∀ (s : State) (rand : Bool) (m : Nat) (len : Word), s.bq = [] → Memory.wf s.cover → 35 ≤ s.cfg.coverSize →
    s.cfg.coverSize ≤ 2 ^ 32 - 1 → 1 ≤ m → m ≤ 4 →
    ∃ t, RunsProgram
        ([.pushv 1 (BitVec.ofNat 32 rand.toNat), .pack 1 0, .pushv 2 (BitVec.ofNat 32 (m - 1)), .pack 1 1, .pack 1 2,
          .pushv 32 len] ++ (List.range 32).map (fun i => .pack 1 (BitVec.ofNat 32 (3 + i)))) s t ∧
      t.bq = [] ∧ t.err = s.err ∧
      ∀ u j, (Memory.read t.cover u).getLsbD j =
        if u < 35 ∧ j = 0 then headerBit rand m len.toNat u else (Memory.read s.cover u).getLsbD j

/-! ## Across families -/

/-- R69, R73: a load answers what the last store to that element stored, and a store to another element does not
matter. -/
def Obligations.LoadAnswersLastStore : Prop :=
  ∀ (s t : State) (i j : Word) (b : BitVec 16), s.Inv → exec (.stc i b) s = .next t →
    i.toNat < s.cfg.coverSize → b.toNat < 2 ^ s.cfg.unitWidth →
    exec (.ldc i) t = .next (ok t (BitVec.ofNat 32 b.toNat)) ∧
    (j ≠ i → ∀ v, exec (.ldc j) s = .next (ok s v) → exec (.ldc j) t = .next (ok t v))

/-- R103: the commands of `SETKEY` load the key and its length and change nothing else. The run is by the model's command
port (log 5). -/
def Obligations.SetKeyLoadsKey : Prop :=
  ∀ (s : State) (key : List Byte), s.cfg.Ok → Memory.wf s.key → key.length ≤ s.cfg.keySize →
    ∃ key' added,
      RunsProgram (pseudoSetKey key) s ({ s with
        key := key', klen := BitVec.ofNat 32 key.length, cmds := [], rsps := s.rsps ++ added }) ∧
      Memory.wf key' ∧
      ∀ i, Memory.read key' i = if i < key.length then key.getD i 0 else Memory.read s.key i

/-- R62: the signed reading of a sample and its unit. -/
def Obligations.SignedSamplesAreUnitPatterns : Prop :=
  (∀ x : Int, -32768 ≤ x → x ≤ 32767 →
    ((unitOfSample x).toNat : Int) = x % 2 ^ 16 ∧ sampleOfUnit (unitOfSample x) = x) ∧
  ∀ u : CoverUnit, unitOfSample (sampleOfUnit u) = u
end

