-- ==== Sys2Proof/Laws/Bits.lean ====
section
/-! SUPPORT. `bitsof` and `valof` are inverse (R15), and what they say bit by bit; bytes and bits (R140, R141); units
and bits (R142, R143). -/

namespace Sys2Proof.Machine

/-! ## bitsof and valof -/

@[simp] theorem bitsof_length (k v : Nat) : (bitsof k v).length = k := by
  induction k with
  | zero => rfl
  | succ k ih => simp [bitsof, ih]

theorem bitsof_getElem (k v i : Nat) (h : i < (bitsof k v).length) :
    (bitsof k v)[i] = v.testBit (k - 1 - i) := by
  induction k generalizing i with
  | zero => simp [bitsof] at h
  | succ k ih =>
    cases i with
    | zero => simp [bitsof]
    | succ i =>
      simp only [bitsof, List.getElem_cons_succ]
      rw [ih]
      congr 1
      omega

theorem bitsof_eq_map (k v : Nat) : bitsof k v = (List.range k).map (fun i => v.testBit (k - 1 - i)) := by
  apply List.ext_getElem
  · simp
  · intro i h1 h2
    simp [bitsof_getElem]

theorem bitsof_mod (k v : Nat) : bitsof k (v % 2 ^ k) = bitsof k v := by
  apply List.ext_getElem
  · simp
  · intro i h1 h2
    simp only [bitsof_length] at h1
    simp only [bitsof_getElem, Nat.testBit_mod_two_pow]
    have : k - 1 - i < k := by omega
    simp [this]

theorem valof_lt (s : List Bool) : valof s < 2 ^ s.length := by
  induction s with
  | nil => simp [valof]
  | cons b s ih =>
    simp only [valof, List.length_cons, Nat.pow_succ]
    cases b <;> simp <;> omega

theorem valof_append (s t : List Bool) : valof (s ++ t) = valof s * 2 ^ t.length + valof t := by
  induction s with
  | nil => simp [valof]
  | cons b s ih =>
    simp only [List.cons_append, valof, ih, List.length_append, Nat.pow_add]
    ring

theorem valof_testBit (s : List Bool) (i : Nat) (h : i < s.length) :
    (valof s).testBit (s.length - 1 - i) = s[i] := by
  induction s generalizing i with
  | nil => simp at h
  | cons b s ih =>
    have hv := valof_lt s
    rw [valof, Nat.mul_comm, Nat.testBit_two_pow_mul_add _ hv]
    cases i with
    | zero => cases b <;> simp
    | succ i =>
      have hi : i < s.length := by simpa using h
      have h1 : (b :: s).length - 1 - (i + 1) = s.length - 1 - i := by simp; omega
      rw [h1]
      have h2 : s.length - 1 - i < s.length := by omega
      simp [h2, ih i hi]

theorem valof_bitsof (k v : Nat) : valof (bitsof k v) = v % 2 ^ k := by
  apply Nat.eq_of_testBit_eq
  intro j
  rw [Nat.testBit_mod_two_pow]
  by_cases hj : j < k
  · have h := valof_testBit (bitsof k v) (k - 1 - j) (by simp; omega)
    rw [bitsof_getElem] at h
    simp only [bitsof_length] at h
    have e : k - 1 - (k - 1 - j) = j := by omega
    rw [e] at h
    simp [hj, h]
  · have h := valof_lt (bitsof k v)
    simp only [bitsof_length] at h
    have : (valof (bitsof k v)).testBit j = false :=
      Nat.testBit_lt_two_pow (lt_of_lt_of_le h (Nat.pow_le_pow_right (by omega) (by omega)))
    simp [hj, this]

theorem valof_bitsof_of_lt {k v : Nat} (h : v < 2 ^ k) : valof (bitsof k v) = v := by
  rw [valof_bitsof, Nat.mod_eq_of_lt h]

theorem bitsof_valof (s : List Bool) : bitsof s.length (valof s) = s := by
  apply List.ext_getElem
  · simp
  · intro i h1 h2
    rw [bitsof_getElem, valof_testBit s i h2]

theorem bitsof_valof_of_length {s : List Bool} {k : Nat} (h : s.length = k) : bitsof k (valof s) = s := by
  subst h
  exact bitsof_valof s

theorem valof_append_single (s : List Bool) (b : Bool) : valof (s ++ [b]) = 2 * valof s + b.toNat := by
  rw [valof_append]
  simp [valof]
  ring

theorem valof_drop (s : List Bool) (k : Nat) : valof (s.drop k) = valof s % 2 ^ (s.length - k) := by
  have h : valof s = valof (s.take k) * 2 ^ (s.drop k).length + valof (s.drop k) := by
    rw [← valof_append, List.take_append_drop]
  have hl := valof_lt (s.drop k)
  rw [List.length_drop] at h hl
  rw [h, Nat.mul_comm, Nat.mul_add_mod, Nat.mod_eq_of_lt hl]

/-! ## Bytes and bits -/

@[simp] theorem bytesToBits_length (xs : List Byte) : (bytesToBits xs).length = 8 * xs.length := by
  induction xs with
  | nil => rfl
  | cons x xs ih => simp [bytesToBits, ih]; omega

theorem bytesToBits_append (xs ys : List Byte) : bytesToBits (xs ++ ys) = bytesToBits xs ++ bytesToBits ys := by
  induction xs with
  | nil => rfl
  | cons x xs ih => simp [bytesToBits, ih]

theorem bytesToBits_getElem (xs : List Byte) (i : Nat) (h : i < (bytesToBits xs).length) :
    (bytesToBits xs)[i] = (xs.getD (i / 8) 0).getLsbD (7 - i % 8) := by
  induction xs generalizing i with
  | nil => simp [bytesToBits] at h
  | cons x xs ih =>
    simp only [bytesToBits]
    by_cases hi : i < 8
    · rw [List.getElem_append_left (by simpa using hi), bitsof_getElem]
      have h1 : i / 8 = 0 := by omega
      have h2 : i % 8 = i := by omega
      simp [h1, h2, BitVec.getLsbD]
    · rw [List.getElem_append_right (by simpa using hi)]
      simp only [bitsof_length]
      rw [ih]
      have h1 : i / 8 = (i - 8) / 8 + 1 := by omega
      have h2 : i % 8 = (i - 8) % 8 := by omega
      simp [h1, h2]

/-- Eight bits at the head of a sequence make one byte (R141). -/
theorem bitsToBytes_append (s rest : List Bool) (h : s.length = 8) :
    bitsToBytes (s ++ rest) = (bitsToBytes rest).map (BitVec.ofNat 8 (valof s) :: ·) := by
  match s, h with
  | [b7, b6, b5, b4, b3, b2, b1, b0], _ => rfl

theorem bitsToBytes_bytesToBits (xs : List Byte) : bitsToBytes (bytesToBits xs) = some xs := by
  induction xs with
  | nil => rfl
  | cons x xs ih =>
    rw [bytesToBits, bitsToBytes_append _ _ (bitsof_length _ _), ih, valof_bitsof_of_lt x.isLt]
    simp

/-- `bitsToBytes` on a sequence too short for a byte (R141). -/
theorem bitsToBytes_short (s : List Bool) (h0 : s ≠ []) (h : s.length < 8) : bitsToBytes s = none := by
  match s, h0, h with
  | [_], _, _ => rfl
  | [_, _], _, _ => rfl
  | [_, _, _], _, _ => rfl
  | [_, _, _, _], _, _ => rfl
  | [_, _, _, _, _], _, _ => rfl
  | [_, _, _, _, _, _], _, _ => rfl
  | [_, _, _, _, _, _, _], _, _ => rfl

/-- Everything `bitsToBytes` can do (R141): it fails exactly where the length is not a multiple of 8, and what it
gives has the sequence as its bits. -/
theorem bitsToBytes_spec (n : Nat) (s : List Bool) (h : s.length ≤ n) :
    (s.length % 8 ≠ 0 ∧ bitsToBytes s = none) ∨
      ∃ xs, bitsToBytes s = some xs ∧ bytesToBits xs = s := by
  induction n generalizing s with
  | zero =>
    have : s = [] := List.length_eq_zero_iff.mp (by omega)
    subst this
    exact .inr ⟨[], rfl, rfl⟩
  | succ n ih =>
    by_cases h0 : s = []
    · subst h0
      exact .inr ⟨[], rfl, rfl⟩
    by_cases h8 : s.length < 8
    · refine .inl ⟨?_, bitsToBytes_short s h0 h8⟩
      have := List.length_pos_iff.mpr h0
      omega
    · have ht : (s.take 8).length = 8 := by simp; omega
      have hs : s = s.take 8 ++ s.drop 8 := (List.take_append_drop 8 s).symm
      have hd : (s.drop 8).length ≤ n := by simp; omega
      have e : bitsToBytes s = (bitsToBytes (s.drop 8)).map (BitVec.ofNat 8 (valof (s.take 8)) :: ·) := by
        conv_lhs => rw [hs]
        exact bitsToBytes_append _ _ ht
      rcases ih _ hd with ⟨hm, hn⟩ | ⟨xs, hx, hb⟩
      · refine .inl ⟨?_, by rw [e, hn]; rfl⟩
        simp at hm
        omega
      · refine .inr ⟨BitVec.ofNat 8 (valof (s.take 8)) :: xs, by rw [e, hx]; rfl, ?_⟩
        have hv := valof_lt (s.take 8)
        rw [ht] at hv
        have hv' : (BitVec.ofNat 8 (valof (s.take 8))).toNat = valof (s.take 8) := by
          simp only [BitVec.toNat_ofNat]
          exact Nat.mod_eq_of_lt hv
        rw [bytesToBits, hv', bitsof_valof_of_length ht, hb, List.take_append_drop]

theorem bytesToBits_inj {xs ys : List Byte} (h : bytesToBits xs = bytesToBits ys) : xs = ys := by
  have := congrArg bitsToBytes h
  simpa [bitsToBytes_bytesToBits] using this

/-! ## Units and bits -/

@[simp] theorem unpackUnit_length (u : CoverUnit) (k : Nat) : (unpackUnit u k).length = k := by
  simp [unpackUnit]

theorem unpackUnit_getElem (u : CoverUnit) (k i : Nat) (h : i < (unpackUnit u k).length) :
    (unpackUnit u k)[i] = u.getLsbD (k - 1 - i) := by
  simp only [unpackUnit_length] at h
  simp only [unpackUnit, bitsof_mod, bitsof_getElem, BitVec.getLsbD]

theorem packUnit_toNat (u : CoverUnit) (bits : List Bool) (h : bits.length ≤ 16) :
    (packUnit u bits).toNat = u.toNat - u.toNat % 2 ^ bits.length + valof bits := by
  have hv := valof_lt bits
  have hu := u.isLt
  unfold packUnit
  simp only [BitVec.toNat_ofNat]
  apply Nat.mod_eq_of_lt
  have hk : (2 : Nat) ^ 16 = 2 ^ bits.length * 2 ^ (16 - bits.length) := by
    rw [← Nat.pow_add]
    congr 1
    omega
  have hd : u.toNat - u.toNat % 2 ^ bits.length = 2 ^ bits.length * (u.toNat / 2 ^ bits.length) := by
    have := Nat.div_add_mod u.toNat (2 ^ bits.length)
    omega
  have hq : u.toNat / 2 ^ bits.length < 2 ^ (16 - bits.length) := by
    rw [Nat.div_lt_iff_lt_mul (Nat.two_pow_pos _), Nat.mul_comm, ← hk]
    exact hu
  rw [hd, hk]
  calc 2 ^ bits.length * (u.toNat / 2 ^ bits.length) + valof bits
      < 2 ^ bits.length * (u.toNat / 2 ^ bits.length) + 2 ^ bits.length := by omega
    _ = 2 ^ bits.length * (u.toNat / 2 ^ bits.length + 1) := by ring
    _ ≤ 2 ^ bits.length * 2 ^ (16 - bits.length) := Nat.mul_le_mul_left _ hq

/-- `packUnit` bit by bit: low bits from the sequence, first bit highest, the others kept (R142). -/
theorem packUnit_getLsbD (u : CoverUnit) (bits : List Bool) (h : bits.length ≤ 16) (j : Nat) :
    (packUnit u bits).getLsbD j =
      if hj : j < bits.length then bits[bits.length - 1 - j] else u.getLsbD j := by
  have hv := valof_lt bits
  rw [BitVec.getLsbD, packUnit_toNat u bits h]
  have hd : u.toNat - u.toNat % 2 ^ bits.length = 2 ^ bits.length * (u.toNat / 2 ^ bits.length) := by
    have := Nat.div_add_mod u.toNat (2 ^ bits.length)
    omega
  rw [hd, Nat.testBit_two_pow_mul_add _ hv]
  by_cases hj : j < bits.length
  · have := valof_testBit bits (bits.length - 1 - j) (by omega)
    have e : bits.length - 1 - (bits.length - 1 - j) = j := by omega
    rw [e] at this
    simp [hj, this]
  · simp only [hj, if_false, dif_neg, not_false_eq_true, Nat.testBit_div_two_pow, BitVec.getLsbD]
    congr 1
    omega

/-- `packUnit_getLsbD` with the bits of a sequence of known length. -/
theorem packUnit_getD (u : CoverUnit) (bits : List Bool) {k : Nat} (hk : bits.length = k) (h : k ≤ 16) (j : Nat) :
    (packUnit u bits).getLsbD j = if j < k then bits.getD (k - 1 - j) false else u.getLsbD j := by
  subst hk
  rw [packUnit_getLsbD u bits h]
  split_ifs with hj
  · rw [List.getD_eq_getElem?_getD, List.getElem?_eq_getElem (by omega), Option.getD_some]
  · rfl

theorem unpackUnit_packUnit (u : CoverUnit) (bits : List Bool) (h : bits.length ≤ 16) :
    unpackUnit (packUnit u bits) bits.length = bits := by
  apply List.ext_getElem
  · simp
  · intro i h1 h2
    rw [unpackUnit_getElem, packUnit_getLsbD u bits h]
    have hj : bits.length - 1 - i < bits.length := by omega
    have e : bits.length - 1 - (bits.length - 1 - i) = i := by omega
    simp [hj, e]

theorem packUnit_unpackUnit (u : CoverUnit) (k : Nat) (h : k ≤ 16) : packUnit u (unpackUnit u k) = u := by
  apply BitVec.eq_of_getLsbD_eq
  intro j hj
  rw [packUnit_getLsbD _ _ (by simpa using h)]
  by_cases hk : j < k
  · have e : k - 1 - (k - 1 - j) = j := by omega
    simp [hk, unpackUnit_getElem, e]
  · simp [hk]

theorem packUnit_nil (u : CoverUnit) : packUnit u [] = u := by
  simp [packUnit, valof, Nat.mod_one]

/-- Packing at most `w` bits keeps a unit below `2 ^ w` (R142). -/
theorem packUnit_lt (u : CoverUnit) (bits : List Bool) (w : Nat) (hw : w ≤ 16) (h : bits.length ≤ w)
    (hu : u.toNat < 2 ^ w) : (packUnit u bits).toNat < 2 ^ w := by
  apply Nat.lt_pow_two_of_testBit
  intro j hj
  have := packUnit_getLsbD u bits (by omega) j
  rw [BitVec.getLsbD] at this
  rw [this, dif_neg (by omega), BitVec.getLsbD]
  exact Nat.testBit_lt_two_pow (lt_of_lt_of_le hu (Nat.pow_le_pow_right (by omega) hj))

end Sys2Proof.Machine
end

