-- ==== Sys2Proof/Laws/Memory.lean ====
section
/-! SUPPORT. Reading, writing and windows of a memory (R17, R69): read after write, the canonical form, and that equal
readings are equal memories. -/

namespace Sys2Proof.Machine

variable {w : Nat}

@[simp] theorem Memory.read_nil (i : Nat) : Memory.read ([] : Memory w) i = unlisted w := rfl

theorem Memory.read_cons (a : Nat) (v : BitVec w) (rest : Memory w) (i : Nat) :
    Memory.read ((a, v) :: rest) i = if a = i then v else Memory.read rest i := rfl

/-- An index below every listed one reads as unlisted. -/
theorem Memory.read_below (mem : Memory w) (i : Nat) (h : ∀ c ∈ mem, i < c.1) : Memory.read mem i = unlisted w := by
  induction mem with
  | nil => rfl
  | cons c rest ih =>
    obtain ⟨a, v⟩ := c
    have ha : i < a := h (a, v) (by simp)
    rw [Memory.read_cons, if_neg (by omega), ih (fun c hc => h c (by simp [hc]))]

theorem Memory.wf_cons {a : Nat} {v : BitVec w} {rest : Memory w} :
    Memory.wf ((a, v) :: rest) ↔ (∀ c ∈ rest, a < c.1) ∧ v ≠ unlisted w ∧ Memory.wf rest := by
  simp only [Memory.wf, List.pairwise_cons, List.mem_cons, forall_eq_or_imp]
  tauto

theorem Memory.wf_nil : Memory.wf ([] : Memory w) := ⟨List.Pairwise.nil, by simp⟩

/-- Read after write (R69, R73). -/
theorem Memory.read_write (mem : Memory w) (h : Memory.wf mem) (i : Nat) (v : BitVec w) (j : Nat) :
    Memory.read (Memory.write mem i v) j = if j = i then v else Memory.read mem j := by
  induction mem with
  | nil =>
    unfold Memory.write
    split_ifs with h1 h2 h2
    · simp [h1]
    · rfl
    · simp [Memory.read_cons, h2]
    · rw [Memory.read_cons, if_neg (fun e => h2 e.symm)]
  | cons c rest ih =>
    obtain ⟨a, u⟩ := c
    obtain ⟨hb, -, hr⟩ := Memory.wf_cons.mp h
    have hbelow : i < a → Memory.read ((a, u) :: rest) i = unlisted w := fun hia => by
      apply Memory.read_below
      intro c hc
      rcases List.mem_cons.mp hc with e | hc
      · subst e; exact hia
      · exact lt_trans hia (hb c hc)
    unfold Memory.write
    by_cases h1 : i < a
    · rw [if_pos h1]
      by_cases h2 : v = unlisted w
      · rw [if_pos h2]
        by_cases h3 : j = i
        · subst h3; rw [hbelow h1, if_pos rfl, h2]
        · rw [if_neg h3]
      · rw [if_neg h2, Memory.read_cons]
        by_cases h3 : j = i
        · subst h3; simp
        · rw [if_neg (fun e => h3 e.symm), if_neg h3]
    · rw [if_neg h1]
      by_cases h2 : a = i
      · rw [if_pos h2]
        subst h2
        have hrest : Memory.read rest a = unlisted w := Memory.read_below _ _ hb
        by_cases h3 : v = unlisted w
        · rw [if_pos h3]
          by_cases h4 : j = a
          · subst h4; rw [hrest, if_pos rfl, h3]
          · rw [if_neg h4, Memory.read_cons, if_neg (fun e => h4 e.symm)]
        · rw [if_neg h3, Memory.read_cons]
          by_cases h4 : j = a
          · subst h4; simp
          · rw [if_neg (fun e => h4 e.symm), if_neg h4, Memory.read_cons, if_neg (fun e => h4 e.symm)]
      · rw [if_neg h2, Memory.read_cons, ih hr]
        by_cases h3 : a = j
        · subst h3; rw [if_pos rfl, if_neg h2, Memory.read_cons, if_pos rfl]
        · rw [if_neg h3, Memory.read_cons, if_neg h3]

theorem Memory.read_write_same (mem : Memory w) (h : Memory.wf mem) (i : Nat) (v : BitVec w) :
    Memory.read (Memory.write mem i v) i = v := by
  rw [Memory.read_write mem h, if_pos rfl]

theorem Memory.read_write_other (mem : Memory w) (h : Memory.wf mem) (i : Nat) (v : BitVec w) (j : Nat) (hj : j ≠ i) :
    Memory.read (Memory.write mem i v) j = Memory.read mem j := by
  rw [Memory.read_write mem h, if_neg hj]

/-- What a write can list: the written pair, unless it reads as unlisted, and pairs listed before. -/
theorem Memory.mem_write (mem : Memory w) (i : Nat) (v : BitVec w) (c : Nat × BitVec w)
    (hc : c ∈ Memory.write mem i v) : (c = (i, v) ∧ v ≠ unlisted w) ∨ c ∈ mem := by
  induction mem with
  | nil =>
    unfold Memory.write at hc
    split_ifs at hc with h1
    · simp at hc
    · exact .inl ⟨by simpa using hc, h1⟩
  | cons d rest ih =>
    obtain ⟨a, u⟩ := d
    unfold Memory.write at hc
    split_ifs at hc with h1 h2 h2 h3
    · exact .inr hc
    · rcases List.mem_cons.mp hc with e | hc
      · exact .inl ⟨e, h2⟩
      · exact .inr hc
    · exact .inr (List.mem_cons_of_mem _ hc)
    · rcases List.mem_cons.mp hc with e | hc
      · exact .inl ⟨e, h3⟩
      · exact .inr (List.mem_cons_of_mem _ hc)
    · rcases List.mem_cons.mp hc with e | hc
      · exact .inr (e ▸ List.mem_cons_self)
      · rcases ih hc with h | h
        · exact .inl h
        · exact .inr (List.mem_cons_of_mem _ h)

/-- A write keeps the canonical form. -/
theorem Memory.wf_write (mem : Memory w) (h : Memory.wf mem) (i : Nat) (v : BitVec w) :
    Memory.wf (Memory.write mem i v) := by
  induction mem with
  | nil =>
    unfold Memory.write
    split_ifs with h1
    · exact Memory.wf_nil
    · exact Memory.wf_cons.mpr ⟨by simp, h1, Memory.wf_nil⟩
  | cons c rest ih =>
    obtain ⟨a, u⟩ := c
    have hall := Memory.wf_cons.mp h
    obtain ⟨hb, hu, hr⟩ := hall
    unfold Memory.write
    split_ifs with h1 h2 h2 h3
    · exact h
    · refine Memory.wf_cons.mpr ⟨?_, h2, h⟩
      intro c hc
      rcases List.mem_cons.mp hc with e | hc
      · subst e; exact h1
      · exact lt_trans h1 (hb c hc)
    · exact hr
    · exact Memory.wf_cons.mpr ⟨h2 ▸ hb, h3, hr⟩
    · refine Memory.wf_cons.mpr ⟨?_, hu, ih hr⟩
      intro c hc
      rcases Memory.mem_write rest i v c hc with ⟨e, -⟩ | hc
      · subst e; show a < i; omega
      · exact hb c hc

/-- A write inside the memory of an element below `2 ^ bits` keeps `Memory.Inv`. -/
theorem Memory.Inv.write {size bits : Nat} {mem : Memory w} (h : Memory.Inv size bits mem) {i : Nat} (hi : i < size)
    {v : BitVec w} (hv : v.toNat < 2 ^ bits) : Memory.Inv size bits (Memory.write mem i v) := by
  refine ⟨Memory.wf_write mem h.1 i v, fun c hc => ?_⟩
  rcases Memory.mem_write mem i v c hc with ⟨e, -⟩ | hc
  · subst e; exact ⟨hi, hv⟩
  · exact h.2 c hc

theorem Memory.Inv.read_lt {size bits : Nat} {mem : Memory w} (h : Memory.Inv size bits mem) (i : Nat) :
    (Memory.read mem i).toNat < 2 ^ bits := by
  obtain ⟨-, hb⟩ := h
  induction mem with
  | nil => simp [unlisted]
  | cons c rest ih =>
    obtain ⟨a, v⟩ := c
    rw [Memory.read_cons]
    split_ifs with e
    · exact (hb (a, v) (by simp)).2
    · exact ih (fun c hc => hb c (by simp [hc]))

theorem Memory.Inv.nil (size bits : Nat) : Memory.Inv size bits ([] : Memory w) := ⟨Memory.wf_nil, by simp⟩

/-- A listed element reads as it is listed. -/
theorem Memory.read_of_mem {mem : Memory w} (h : Memory.wf mem) {c : Nat × BitVec w} (hc : c ∈ mem) :
    Memory.read mem c.1 = c.2 := by
  induction mem with
  | nil => simp at hc
  | cons d rest ih =>
    obtain ⟨a, v⟩ := d
    obtain ⟨hb, -, hr⟩ := Memory.wf_cons.mp h
    rw [Memory.read_cons]
    rcases List.mem_cons.mp hc with e | hc'
    · subst e; simp
    · rw [if_neg (by have := hb c hc'; omega), ih hr hc']

/-- Memories in canonical form that read alike are equal. -/
theorem Memory.ext_read {m1 m2 : Memory w} (h1 : Memory.wf m1) (h2 : Memory.wf m2)
    (h : ∀ i, Memory.read m1 i = Memory.read m2 i) : m1 = m2 := by
  induction m1 generalizing m2 with
  | nil =>
    cases m2 with
    | nil => rfl
    | cons c rest =>
      obtain ⟨a, v⟩ := c
      have := h a
      rw [Memory.read_cons, if_pos rfl] at this
      exact absurd this.symm (Memory.wf_cons.mp h2).2.1
  | cons c rest ih =>
    obtain ⟨a, v⟩ := c
    obtain ⟨hb, hv, hr⟩ := Memory.wf_cons.mp h1
    cases m2 with
    | nil =>
      have := h a
      rw [Memory.read_cons, if_pos rfl] at this
      exact absurd this hv
    | cons d rest2 =>
      obtain ⟨b, u⟩ := d
      obtain ⟨hb2, hu, hr2⟩ := Memory.wf_cons.mp h2
      have hab : a = b := by
        rcases lt_trichotomy a b with hlt | he | hlt
        · have := h a
          rw [Memory.read_cons, if_pos rfl, Memory.read_below ((b, u) :: rest2) a] at this
          · exact absurd this hv
          · intro c hc
            rcases List.mem_cons.mp hc with e | hc
            · subst e; exact hlt
            · exact lt_trans hlt (hb2 c hc)
        · exact he
        · have := h b
          rw [Memory.read_cons b u, if_pos rfl, Memory.read_below ((a, v) :: rest) b] at this
          · exact absurd this.symm hu
          · intro c hc
            rcases List.mem_cons.mp hc with e | hc
            · subst e; exact hlt
            · exact lt_trans hlt (hb c hc)
      subst hab
      have hvu : v = u := by
        have := h a
        simpa [Memory.read_cons] using this
      subst hvu
      congr 1
      apply ih hr hr2
      intro i
      by_cases hi : a = i
      · subst hi
        rw [Memory.read_below rest a hb, Memory.read_below rest2 a hb2]
      · have := h i
        simpa [Memory.read_cons, hi] using this

/-! ## Windows -/

@[simp] theorem Memory.window_length (mem : Memory w) (n : Nat) : (Memory.window mem n).length = n := by
  simp [Memory.window]

@[simp] theorem Memory.window_getElem (mem : Memory w) (n i : Nat) (h : i < (Memory.window mem n).length) :
    (Memory.window mem n)[i] = Memory.read mem i := by
  simp [Memory.window]

theorem Memory.wf_writeFrom (vs : List (BitVec w)) (mem : Memory w) (h : Memory.wf mem) (i : Nat) :
    Memory.wf (Memory.writeFrom mem i vs) := by
  induction vs generalizing mem i with
  | nil => exact h
  | cons v vs ih => exact ih _ (Memory.wf_write mem h i v) _

/-- Everything `writeFrom` does: the listed elements take the list's values, the others keep theirs. -/
theorem Memory.read_writeFrom (vs : List (BitVec w)) (mem : Memory w) (h : Memory.wf mem) (i j : Nat) :
    Memory.read (Memory.writeFrom mem i vs) j =
      if hj : i ≤ j ∧ j < i + vs.length then vs[j - i]'(by omega) else Memory.read mem j := by
  induction vs generalizing mem i with
  | nil =>
    have : ¬(i ≤ j ∧ j < i + ([] : List (BitVec w)).length) := by simp
    rw [dif_neg this]
    rfl
  | cons v vs ih =>
    rw [Memory.writeFrom, ih _ (Memory.wf_write mem h i v)]
    by_cases h1 : i + 1 ≤ j ∧ j < i + 1 + vs.length
    · have h2 : i ≤ j ∧ j < i + (v :: vs).length := by simp; omega
      rw [dif_pos h1, dif_pos h2]
      have e : j - i = (j - (i + 1)) + 1 := by omega
      simp [e]
    · rw [dif_neg h1, Memory.read_write mem h]
      by_cases h3 : j = i
      · subst h3
        have h2 : j ≤ j ∧ j < j + (v :: vs).length := by simp
        rw [if_pos rfl, dif_pos h2]
        simp
      · have h2 : ¬(i ≤ j ∧ j < i + (v :: vs).length) := by simp; omega
        rw [if_neg h3, dif_neg h2]

theorem Memory.Inv.writeFrom {size bits : Nat} (vs : List (BitVec w)) {mem : Memory w} (h : Memory.Inv size bits mem)
    {i : Nat} (hi : i + vs.length ≤ size) (hv : ∀ v ∈ vs, v.toNat < 2 ^ bits) :
    Memory.Inv size bits (Memory.writeFrom mem i vs) := by
  induction vs generalizing mem i with
  | nil => exact h
  | cons v vs ih =>
    simp only [List.length_cons] at hi
    exact ih (Memory.Inv.write h (by omega) (hv v (by simp))) (by omega) (fun u hu => hv u (by simp [hu]))

/-- Reading back a window just written. -/
theorem Memory.window_writeFrom (vs : List (BitVec w)) (mem : Memory w) (h : Memory.wf mem) :
    Memory.window (Memory.writeFrom mem 0 vs) vs.length = vs := by
  apply List.ext_getElem
  · simp
  · intro i h1 h2
    rw [Memory.window_getElem, Memory.read_writeFrom vs mem h, dif_pos (by omega)]
    rfl

end Sys2Proof.Machine
end

