-- ==== Sys2Proof/Laws/State.lean ====
section
/-! SUPPORT. One lemma per field and update of the state, each true by `rfl`, so that no proof unfolds an update. -/

namespace Sys2Proof.Machine

section Answer

variable (s : State) (c : Status) (v : Word)

@[simp] theorem State.answer_cfg : (s.answer c v).cfg = s.cfg := rfl
@[simp] theorem State.answer_ctrl : (s.answer c v).ctrl = s.ctrl := rfl
@[simp] theorem State.answer_m : (s.answer c v).m = s.m := rfl
@[simp] theorem State.answer_cap : (s.answer c v).cap = s.cap := rfl
@[simp] theorem State.answer_pbl : (s.answer c v).pbl = s.pbl := rfl
@[simp] theorem State.answer_dlen : (s.answer c v).dlen = s.dlen := rfl
@[simp] theorem State.answer_klen : (s.answer c v).klen = s.klen := rfl
@[simp] theorem State.answer_seed : (s.answer c v).seed = s.seed := rfl
@[simp] theorem State.answer_start : (s.answer c v).start = s.start := rfl
@[simp] theorem State.answer_err : (s.answer c v).err = s.err := rfl
@[simp] theorem State.answer_bq : (s.answer c v).bq = s.bq := rfl
@[simp] theorem State.answer_cover : (s.answer c v).cover = s.cover := rfl
@[simp] theorem State.answer_data : (s.answer c v).data = s.data := rfl
@[simp] theorem State.answer_key : (s.answer c v).key = s.key := rfl
@[simp] theorem State.answer_tag : (s.answer c v).tag = s.tag := rfl
@[simp] theorem State.answer_cmds : (s.answer c v).cmds = s.cmds := rfl
@[simp] theorem State.answer_rsps : (s.answer c v).rsps = s.rsps ++ [⟨c, v⟩] := rfl

end Answer

section Queue

variable (s : State) (bits : List Bool) (k : Nat)

@[simp] theorem State.push_cfg : (s.push bits).cfg = s.cfg := rfl
@[simp] theorem State.push_ctrl : (s.push bits).ctrl = s.ctrl := rfl
@[simp] theorem State.push_m : (s.push bits).m = s.m := rfl
@[simp] theorem State.push_cap : (s.push bits).cap = s.cap := rfl
@[simp] theorem State.push_pbl : (s.push bits).pbl = s.pbl := rfl
@[simp] theorem State.push_dlen : (s.push bits).dlen = s.dlen := rfl
@[simp] theorem State.push_klen : (s.push bits).klen = s.klen := rfl
@[simp] theorem State.push_seed : (s.push bits).seed = s.seed := rfl
@[simp] theorem State.push_start : (s.push bits).start = s.start := rfl
@[simp] theorem State.push_err : (s.push bits).err = s.err := rfl
@[simp] theorem State.push_bq : (s.push bits).bq = s.bq ++ bits := rfl
@[simp] theorem State.push_cover : (s.push bits).cover = s.cover := rfl
@[simp] theorem State.push_data : (s.push bits).data = s.data := rfl
@[simp] theorem State.push_key : (s.push bits).key = s.key := rfl
@[simp] theorem State.push_tag : (s.push bits).tag = s.tag := rfl
@[simp] theorem State.push_cmds : (s.push bits).cmds = s.cmds := rfl
@[simp] theorem State.push_rsps : (s.push bits).rsps = s.rsps := rfl
@[simp] theorem State.pop_cfg : (s.pop k).cfg = s.cfg := rfl
@[simp] theorem State.pop_ctrl : (s.pop k).ctrl = s.ctrl := rfl
@[simp] theorem State.pop_m : (s.pop k).m = s.m := rfl
@[simp] theorem State.pop_cap : (s.pop k).cap = s.cap := rfl
@[simp] theorem State.pop_pbl : (s.pop k).pbl = s.pbl := rfl
@[simp] theorem State.pop_dlen : (s.pop k).dlen = s.dlen := rfl
@[simp] theorem State.pop_klen : (s.pop k).klen = s.klen := rfl
@[simp] theorem State.pop_seed : (s.pop k).seed = s.seed := rfl
@[simp] theorem State.pop_start : (s.pop k).start = s.start := rfl
@[simp] theorem State.pop_err : (s.pop k).err = s.err := rfl
@[simp] theorem State.pop_bq : (s.pop k).bq = s.bq.drop k := rfl
@[simp] theorem State.pop_cover : (s.pop k).cover = s.cover := rfl
@[simp] theorem State.pop_data : (s.pop k).data = s.data := rfl
@[simp] theorem State.pop_key : (s.pop k).key = s.key := rfl
@[simp] theorem State.pop_tag : (s.pop k).tag = s.tag := rfl
@[simp] theorem State.pop_cmds : (s.pop k).cmds = s.cmds := rfl
@[simp] theorem State.pop_rsps : (s.pop k).rsps = s.rsps := rfl

end Queue

section Registers

variable (s : State) (r : Reg) (v : Word)

@[simp] theorem State.setReg_ctrl : s.setReg .ctrl v = { s with ctrl := v &&& ctrlMask } := rfl
@[simp] theorem State.setReg_m : s.setReg .m v = { s with m := v } := rfl
@[simp] theorem State.setReg_cap : s.setReg .cap v = { s with cap := v } := rfl
@[simp] theorem State.setReg_pbl : s.setReg .pbl v = { s with pbl := v } := rfl
@[simp] theorem State.setReg_dlen : s.setReg .dlen v = { s with dlen := v } := rfl
@[simp] theorem State.setReg_klen : s.setReg .klen v = { s with klen := v } := rfl
@[simp] theorem State.setReg_seed : s.setReg .seed v = { s with seed := v } := rfl
@[simp] theorem State.setReg_start : s.setReg .start v = { s with start := v } := rfl
@[simp] theorem State.setReg_err : s.setReg .err v = { s with err := v &&& errMask } := rfl
@[simp] theorem State.setReg_bqv : s.setReg .bqv v = s := rfl
@[simp] theorem State.setReg_bqn : s.setReg .bqn v = s := rfl
@[simp] theorem State.setReg_keeps_cfg : (s.setReg r v).cfg = s.cfg := by cases r <;> rfl
@[simp] theorem State.setReg_keeps_bq : (s.setReg r v).bq = s.bq := by cases r <;> rfl
@[simp] theorem State.setReg_keeps_cover : (s.setReg r v).cover = s.cover := by cases r <;> rfl
@[simp] theorem State.setReg_keeps_data : (s.setReg r v).data = s.data := by cases r <;> rfl
@[simp] theorem State.setReg_keeps_key : (s.setReg r v).key = s.key := by cases r <;> rfl
@[simp] theorem State.setReg_keeps_tag : (s.setReg r v).tag = s.tag := by cases r <;> rfl
@[simp] theorem State.setReg_keeps_cmds : (s.setReg r v).cmds = s.cmds := by cases r <;> rfl
@[simp] theorem State.setReg_keeps_rsps : (s.setReg r v).rsps = s.rsps := by cases r <;> rfl
@[simp] theorem State.reg_ctrl : s.reg .ctrl = s.ctrl := rfl
@[simp] theorem State.reg_m : s.reg .m = s.m := rfl
@[simp] theorem State.reg_cap : s.reg .cap = s.cap := rfl
@[simp] theorem State.reg_pbl : s.reg .pbl = s.pbl := rfl
@[simp] theorem State.reg_dlen : s.reg .dlen = s.dlen := rfl
@[simp] theorem State.reg_klen : s.reg .klen = s.klen := rfl
@[simp] theorem State.reg_seed : s.reg .seed = s.seed := rfl
@[simp] theorem State.reg_start : s.reg .start = s.start := rfl
@[simp] theorem State.reg_err : s.reg .err = s.err := rfl
@[simp] theorem State.reg_bqv : s.reg .bqv = BitVec.ofNat 32 (valof s.bq) := rfl
@[simp] theorem State.reg_bqn : s.reg .bqn = BitVec.ofNat 32 s.bq.length := rfl

end Registers

section Reset

variable (cfg : Config) (cover : Memory 16) (data key tag : Memory 8)

@[simp] theorem State.afterReset_cfg : (State.afterReset cfg cover data key tag).cfg = cfg := rfl
@[simp] theorem State.afterReset_ctrl : (State.afterReset cfg cover data key tag).ctrl = 0 := rfl
@[simp] theorem State.afterReset_m : (State.afterReset cfg cover data key tag).m = 0 := rfl
@[simp] theorem State.afterReset_cap : (State.afterReset cfg cover data key tag).cap = 0 := rfl
@[simp] theorem State.afterReset_pbl : (State.afterReset cfg cover data key tag).pbl = 0 := rfl
@[simp] theorem State.afterReset_dlen : (State.afterReset cfg cover data key tag).dlen = 0 := rfl
@[simp] theorem State.afterReset_klen : (State.afterReset cfg cover data key tag).klen = 0 := rfl
@[simp] theorem State.afterReset_seed : (State.afterReset cfg cover data key tag).seed = 0 := rfl
@[simp] theorem State.afterReset_start : (State.afterReset cfg cover data key tag).start = 0 := rfl
@[simp] theorem State.afterReset_err : (State.afterReset cfg cover data key tag).err = 0 := rfl
@[simp] theorem State.afterReset_bq : (State.afterReset cfg cover data key tag).bq = [] := rfl
@[simp] theorem State.afterReset_cover : (State.afterReset cfg cover data key tag).cover = cover := rfl
@[simp] theorem State.afterReset_data : (State.afterReset cfg cover data key tag).data = data := rfl
@[simp] theorem State.afterReset_key : (State.afterReset cfg cover data key tag).key = key := rfl
@[simp] theorem State.afterReset_tag : (State.afterReset cfg cover data key tag).tag = tag := rfl
@[simp] theorem State.afterReset_cmds : (State.afterReset cfg cover data key tag).cmds = [] := rfl
@[simp] theorem State.afterReset_rsps : (State.afterReset cfg cover data key tag).rsps = [] := rfl

end Reset

/-! ## The checks a command makes -/

theorem State.noRoom_iff (s : State) (k : Nat) : s.noRoom k = true ↔ 32 < s.bq.length + k := by
  simp only [State.noRoom, decide_eq_true_eq]
  exact Iff.rfl

theorem State.tooFew_iff (s : State) (k : Nat) : s.tooFew k = true ↔ s.bq.length < k := by
  simp only [State.tooFew, decide_eq_true_eq]

theorem State.outsideCover_iff (s : State) (index : Word) :
    s.outsideCover index = true ↔ s.cfg.coverSize ≤ index.toNat := by
  simp only [State.outsideCover, decide_eq_true_eq]

theorem validCount_iff (s : State) (k : BitVec 8) : validCount s k = true ↔ 1 ≤ k.toNat ∧ k.toNat ≤ s.cfg.mMax := by
  simp only [validCount, decide_eq_true_eq]

theorem validWidth_iff (k : BitVec 8) : validWidth k = true ↔ 1 ≤ k.toNat ∧ k.toNat ≤ 32 := by
  simp only [validWidth, decide_eq_true_eq]

theorem State.lengthsOutside_iff (s : State) :
    s.lengthsOutside = true ↔ s.cfg.dataSize < s.dlen.toNat ∨ s.cfg.keySize < s.klen.toNat := by
  simp only [State.lengthsOutside, Bool.or_eq_true, decide_eq_true_eq]

theorem State.embedOutside_iff (s : State) :
    s.embedOutside = true ↔
      s.cfg.coverSize < s.cap.toNat ∨ s.cfg.dataSize < s.dlen.toNat ∨ s.cfg.keySize < s.klen.toNat := by
  simp only [State.embedOutside, Bool.or_eq_true, decide_eq_true_eq, State.lengthsOutside_iff]

theorem mMax_le (c : Config) : c.mMax ≤ 16 := by
  unfold Config.mMax
  split <;> decide

theorem mMax_ge (c : Config) : 4 ≤ c.mMax := by
  unfold Config.mMax
  split <;> decide

end Sys2Proof.Machine
end

