-- ==== Sys2Proof/Laws/Exec.lean ====
section
/-! SUPPORT. Said once: how a command ends. It fails by `raise`, or it answers `OK` from a state that differs from its
start by the command's own writes, `Effect` (R40, R254). Every statement about all commands is read off `exec_cases`. -/

namespace Sys2Proof.Machine

theorem respond_eq (v : Word) (s : State) : respond v s = .next (s.answer .ok v) := rfl

theorem raise_eq (c : Status) (s : State) :
    raise c s = .next (State.answer { s with err := errAfter s.err c } c 0) := rfl

/-! ## The arms of `exec` -/

section Arms

variable (s : State)

theorem exec_wrr (reg : BitVec 8) (value : Word) :
    exec (.wrr reg value) s = execWrr reg value s := rfl
theorem exec_rdr (reg : BitVec 8) :
    exec (.rdr reg) s = execRdr reg s := rfl
theorem exec_stc (index : Word) (unit : BitVec 16) :
    exec (.stc index unit) s = execStc index unit s := rfl
theorem exec_ldc (index : Word) :
    exec (.ldc index) s = execLdc index s := rfl
theorem exec_std (index : Word) (b : BitVec 16) :
    exec (.std index b) s = execStd index b s := rfl
theorem exec_ldd (index : Word) :
    exec (.ldd index) s = execLdd index s := rfl
theorem exec_stk (index : Word) (b : BitVec 16) :
    exec (.stk index b) s = execStk index b s := rfl
theorem exec_ldk (index : Word) :
    exec (.ldk index) s = execLdk index s := rfl
theorem exec_stt (index : Word) (b : BitVec 16) :
    exec (.stt index b) s = execStt index b s := rfl
theorem exec_ldt (index : Word) :
    exec (.ldt index) s = execLdt index s := rfl
theorem exec_bqclr :
    exec .bqclr s = execBqclr s := rfl
theorem exec_pushb (b : BitVec 16) :
    exec (.pushb b) s = execPushb b s := rfl
theorem exec_popb :
    exec .popb s = execPopb s := rfl
theorem exec_pushv (k : BitVec 8) (value : Word) :
    exec (.pushv k value) s = execPushv k value s := rfl
theorem exec_popv (k : BitVec 8) :
    exec (.popv k) s = execPopv k s := rfl
theorem exec_pack (k : BitVec 8) (index : Word) :
    exec (.pack k index) s = execPack k index s := rfl
theorem exec_unpack (k : BitVec 8) (index : Word) :
    exec (.unpack k index) s = execUnpack k index s := rfl
theorem exec_dseed :
    exec .dseed s = execDseed s := rfl
theorem exec_seedacc (cp : Word) :
    exec (.seedacc cp) s = execSeedacc cp s := rfl
theorem exec_enc :
    exec .enc s = execEnc s := rfl
theorem exec_dec :
    exec .dec s = execDec s := rfl
theorem exec_cstart :
    exec .cstart s = execCstart s := rfl
theorem exec_draw (n : Word) :
    exec (.draw n) s = execDraw n s := rfl
theorem exec_embed :
    exec .embed s = execEmbed s := rfl
theorem exec_extract :
    exec .extract s = execExtract s := rfl

end Arms

/-- The writes of a command that ends with `OK` and value `v`: from `s` to `t`, before the response is given. -/
def Effect (i : Instr) (s : State) (v : Word) (t : State) : Prop :=
  match i with
  | .wrr reg value => v = 0 ∧ ∃ r, regOfNumber reg = some r ∧ hostWritable r = true ∧ t = s.setReg r value
  | .rdr reg => t = s ∧ ∃ r, regOfNumber reg = some r ∧ v = s.reg r
  | .stc index unit => v = 0 ∧ index.toNat < s.cfg.coverSize ∧ unit.toNat < 2 ^ s.cfg.unitWidth ∧
      t = { s with cover := Memory.write s.cover index.toNat unit }
  | .ldc index => t = s ∧ index.toNat < s.cfg.coverSize ∧ v = zext32 (Memory.read s.cover index.toNat)
  | .std index b => v = 0 ∧ index.toNat < s.cfg.dataSize ∧
      t = { s with data := Memory.write s.data index.toNat (byteOperand b) }
  | .ldd index => t = s ∧ index.toNat < s.cfg.dataSize ∧ v = zext32 (Memory.read s.data index.toNat)
  | .stk index b => v = 0 ∧ index.toNat < s.cfg.keySize ∧
      t = { s with key := Memory.write s.key index.toNat (byteOperand b) }
  | .ldk index => t = s ∧ index.toNat < s.cfg.keySize ∧ v = zext32 (Memory.read s.key index.toNat)
  | .stt index b => v = 0 ∧ index.toNat < tagBytes ∧
      t = { s with tag := Memory.write s.tag index.toNat (byteOperand b) }
  | .ldt index => t = s ∧ index.toNat < tagBytes ∧ v = zext32 (Memory.read s.tag index.toNat)
  | .bqclr => v = 0 ∧ t = { s with bq := [] }
  | .pushb b => v = 0 ∧ s.bq.length + 8 ≤ bqDepth ∧ t = s.push (bitsof 8 (byteOperand b).toNat)
  | .popb => 8 ≤ s.bq.length ∧ v = BitVec.ofNat 32 (valof (s.bq.take 8)) ∧ t = s.pop 8
  | .pushv k value => v = 0 ∧ validWidth k = true ∧ value.toNat < 2 ^ k.toNat ∧ s.bq.length + k.toNat ≤ bqDepth ∧
      t = s.push (bitsof k.toNat value.toNat)
  | .popv k => validWidth k = true ∧ k.toNat ≤ s.bq.length ∧ v = BitVec.ofNat 32 (valof (s.bq.take k.toNat)) ∧
      t = s.pop k.toNat
  | .pack k index => v = 0 ∧ validCount s k = true ∧ index.toNat < s.cfg.coverSize ∧ k.toNat ≤ s.bq.length ∧
      t = { s.pop k.toNat with
        cover := Memory.write s.cover index.toNat
          (packUnit (Memory.read s.cover index.toNat) (s.bq.take k.toNat)) }
  | .unpack k index => v = 0 ∧ validCount s k = true ∧ index.toNat < s.cfg.coverSize ∧
      s.bq.length + k.toNat ≤ bqDepth ∧ t = s.push (unpackUnit (Memory.read s.cover index.toNat) k.toNat)
  | .dseed => s.klen.toNat ≤ s.cfg.keySize ∧ v = deriveSeedOfBytes s.keyWindow ∧ t = { s with seed := v }
  | .seedacc cp => v = seedStep s.seed cp ∧ t = { s with seed := v }
  | .enc => v = 0 ∧ s.lengthsOutside = false ∧ ∃ bytes, encrypt s.dataWindow s.keyWindow = .ok bytes ∧
      t = { s with data := Memory.writeFrom s.data 0 bytes }
  | .dec => v = 0 ∧ s.lengthsOutside = false ∧ ∃ bytes, decrypt s.dataWindow s.keyWindow = .ok bytes ∧
      t = { s with data := Memory.writeFrom s.data 0 bytes }
  | .cstart => 1 ≤ s.m.toNat ∧ s.m.toNat ≤ s.cfg.mMax ∧
      ∃ r, computeStart s.cfg s.pbl.toNat s.m.toNat s.cap.toNat s.seed = some r ∧ v = BitVec.ofNat 32 r ∧
        t = { s with start := v }
  | .draw n => t = s ∧ v = BitVec.ofNat 32 (prngDraw s.cfg.generator s.seed n.toNat)
  | .embed => ∃ p, embedPlan s = .ok p ∧ v = BitVec.ofNat 32 p.start ∧
      t = { s with
        cover := embedCover s.cover (isRand s.ctrl) s.m.toNat p
        pbl := BitVec.ofNat 32 p.len
        start := v
        seed := seedAfter s.seed p.seed }
  | .extract => ∃ p, extractPlan s = .ok p ∧ v = BitVec.ofNat 32 p.content.length ∧
      t = { s with
        tag := Memory.writeFrom s.tag 0 p.tag
        data := Memory.writeFrom s.data 0 p.content
        dlen := v
        ctrl := ctrlOf p.rand p.enc
        m := BitVec.ofNat 32 p.m
        pbl := BitVec.ofNat 32 p.len
        start := BitVec.ofNat 32 p.start
        seed := seedAfter s.seed p.seed }

/-- The command fails, with an error status. -/
def Fails (i : Instr) (s : State) : Prop := ∃ c, c ≠ Status.ok ∧ exec i s = raise c s

/-- The command answers `OK`. -/
def Succeeds (i : Instr) (s : State) : Prop := ∃ v t, Effect i s v t ∧ exec i s = respond v t

theorem loadElement_cases {w : Nat} (size : Nat) (mem : Memory w) (index : Word) (s : State) :
    loadElement size mem index s = raise .range s ∨
      (index.toNat < size ∧ loadElement size mem index s = respond (zext32 (Memory.read mem index.toNat)) s) := by
  unfold loadElement
  split_ifs with h
  · exact .inl rfl
  · exact .inr ⟨by omega, rfl⟩

theorem encrypt_error {data key : List Byte} {c : Status} (h : encrypt data key = .error c) : c = .emptyKey := by
  unfold encrypt extendKey at h
  cases key <;> simp_all

theorem decrypt_error {data key : List Byte} {c : Status} (h : decrypt data key = .error c) : c = .emptyKey := by
  unfold decrypt extendKey at h
  cases key <;> simp_all

theorem embedPlan_error {s : State} {c : Status} (h : embedPlan s = .error c) : c ≠ .ok := by
  unfold embedPlan at h
  simp only at h
  split_ifs at h
  · cases h; decide
  · cases h; decide
  · cases h; decide
  · split at h
    · cases h; decide
    · split_ifs at h
      · cases h; decide
      · split at h
        · rename_i hc
          cases h
          unfold embeddedContent at hc
          split_ifs at hc
          rw [encrypt_error hc]; decide
        · cases h

theorem parsePayload_error {n : Nat} {key : List Byte} {len : Nat} {p : List Bool} {c : Status}
    (h : parsePayload n key len p = .error c) : c ≠ .ok := by
  unfold parsePayload at h
  simp only at h
  split_ifs at h
  · cases h; decide
  · cases h; decide
  · split at h
    · split at h
      · rename_i hc
        cases h
        unfold extractedContent at hc
        split_ifs at hc
        rw [decrypt_error hc]; decide
      · cases h
    · cases h; decide

theorem extractWithHeader_error {s : State} {h : Header} {c : Status} (hp : extractWithHeader s h = .error c) :
    c ≠ .ok := by
  unfold extractWithHeader at hp
  split_ifs at hp
  · cases hp; decide
  · cases hp; decide
  · split at hp
    · cases hp; decide
    · split_ifs at hp
      · cases hp; decide
      · split at hp
        · rename_i hc
          cases hp
          exact parsePayload_error hc
        · cases hp

theorem extractPlan_error {s : State} {c : Status} (h : extractPlan s = .error c) : c ≠ .ok := by
  unfold extractPlan at h
  split_ifs at h
  · cases h; decide
  · cases h; decide
  · exact extractWithHeader_error h

theorem fails_of {i : Instr} {s : State} {c : Status} (hc : c ≠ .ok) (h : exec i s = raise c s) :
    Fails i s ∨ Succeeds i s := .inl ⟨c, hc, h⟩

theorem succeeds_of {i : Instr} {s t : State} {v : Word} (h : Effect i s v t) (he : exec i s = respond v t) :
    Fails i s ∨ Succeeds i s := .inr ⟨v, t, h, he⟩

/-- How every command ends (R250, R254). -/
theorem exec_cases (i : Instr) (s : State) : Fails i s ∨ Succeeds i s := by
  cases i with
  | wrr reg value =>
    cases h : regOfNumber reg with
    | none => exact fails_of (c := .illegalCommand) (by decide) (by simp [exec_wrr, execWrr, h])
    | some r =>
      cases hw : hostWritable r with
      | false => exact fails_of (c := .illegalCommand) (by decide) (by simp [exec_wrr, execWrr, h, hw])
      | true => exact succeeds_of ⟨rfl, r, h, hw, rfl⟩ (by simp [exec_wrr, execWrr, h, hw])
  | rdr reg =>
    cases h : regOfNumber reg with
    | none => exact fails_of (c := .illegalCommand) (by decide) (by simp [exec_rdr, execRdr, h])
    | some r => exact succeeds_of ⟨rfl, r, h, rfl⟩ (by simp [exec_rdr, execRdr, h])
  | stc index unit =>
    by_cases h1 : s.cfg.coverSize ≤ index.toNat
    · exact fails_of (c := .range) (by decide) (by simp [exec_stc, execStc, State.outsideCover, h1])
    by_cases h2 : 2 ^ s.cfg.unitWidth ≤ unit.toNat
    · exact fails_of (c := .range) (by decide) (by simp [exec_stc, execStc, State.outsideCover, h2])
    · exact succeeds_of ⟨rfl, by omega, by omega, rfl⟩ (by simp [exec_stc, execStc, State.outsideCover, h1, h2])
  | std index b =>
    by_cases h1 : s.cfg.dataSize ≤ index.toNat
    · exact fails_of (c := .range) (by decide) (by simp [exec_std, execStd, h1])
    · exact succeeds_of ⟨rfl, by omega, rfl⟩ (by simp [exec_std, execStd, h1])
  | stk index b =>
    by_cases h1 : s.cfg.keySize ≤ index.toNat
    · exact fails_of (c := .range) (by decide) (by simp [exec_stk, execStk, h1])
    · exact succeeds_of ⟨rfl, by omega, rfl⟩ (by simp [exec_stk, execStk, h1])
  | stt index b =>
    by_cases h1 : tagBytes ≤ index.toNat
    · exact fails_of (c := .range) (by decide) (by simp [exec_stt, execStt, h1])
    · exact succeeds_of ⟨rfl, by omega, rfl⟩ (by simp [exec_stt, execStt, h1])
  | ldc index =>
    rcases loadElement_cases s.cfg.coverSize s.cover index s with h | ⟨hi, h⟩
    · exact fails_of (c := .range) (by decide) h
    · exact succeeds_of ⟨rfl, hi, rfl⟩ h
  | ldd index =>
    rcases loadElement_cases s.cfg.dataSize s.data index s with h | ⟨hi, h⟩
    · exact fails_of (c := .range) (by decide) h
    · exact succeeds_of ⟨rfl, hi, rfl⟩ h
  | ldk index =>
    rcases loadElement_cases s.cfg.keySize s.key index s with h | ⟨hi, h⟩
    · exact fails_of (c := .range) (by decide) h
    · exact succeeds_of ⟨rfl, hi, rfl⟩ h
  | ldt index =>
    rcases loadElement_cases tagBytes s.tag index s with h | ⟨hi, h⟩
    · exact fails_of (c := .range) (by decide) h
    · exact succeeds_of ⟨rfl, hi, rfl⟩ h
  | bqclr => exact succeeds_of ⟨rfl, rfl⟩ rfl
  | pushb b =>
    by_cases h1 : bqDepth < s.bq.length + 8
    · exact fails_of (c := .bqFault) (by decide) (by simp [exec_pushb, execPushb, State.noRoom, h1])
    · exact succeeds_of ⟨rfl, by omega, rfl⟩ (by simp [exec_pushb, execPushb, State.noRoom, h1])
  | popb =>
    by_cases h1 : s.bq.length < 8
    · exact fails_of (c := .malformedPayload) (by decide) (by simp [exec_popb, execPopb, State.tooFew, h1])
    · exact succeeds_of ⟨by omega, rfl, rfl⟩ (by simp [exec_popb, execPopb, State.tooFew, h1, State.popped])
  | pushv k value =>
    cases h1 : validWidth k with
    | false => exact fails_of (c := .range) (by decide) (by simp [exec_pushv, execPushv, h1])
    | true =>
      by_cases h2 : 2 ^ k.toNat ≤ value.toNat
      · exact fails_of (c := .range) (by decide) (by simp [exec_pushv, execPushv, h1, h2])
      by_cases h3 : bqDepth < s.bq.length + k.toNat
      · exact fails_of (c := .bqFault) (by decide) (by simp [exec_pushv, execPushv, State.noRoom, h1, h2, h3])
      · exact succeeds_of ⟨rfl, h1, by omega, by omega, rfl⟩
          (by simp [exec_pushv, execPushv, State.noRoom, h1, h2, h3])
  | popv k =>
    cases h1 : validWidth k with
    | false => exact fails_of (c := .range) (by decide) (by simp [exec_popv, execPopv, h1])
    | true =>
      by_cases h2 : s.bq.length < k.toNat
      · exact fails_of (c := .bqFault) (by decide) (by simp [exec_popv, execPopv, State.tooFew, h1, h2])
      · exact succeeds_of ⟨h1, by omega, rfl, rfl⟩
          (by simp [exec_popv, execPopv, State.tooFew, h1, h2, State.popped])
  | pack k index =>
    cases h1 : validCount s k with
    | false => exact fails_of (c := .invalidParameterM) (by decide) (by simp [exec_pack, execPack, h1])
    | true =>
      by_cases h2 : s.cfg.coverSize ≤ index.toNat
      · exact fails_of (c := .range) (by decide) (by simp [exec_pack, execPack, State.outsideCover, h1, h2])
      by_cases h3 : s.bq.length < k.toNat
      · exact fails_of (c := .bqFault) (by decide)
          (by simp [exec_pack, execPack, State.outsideCover, State.tooFew, h1, h2, h3])
      · exact succeeds_of ⟨rfl, h1, by omega, by omega, rfl⟩
          (by simp [exec_pack, execPack, State.outsideCover, State.tooFew, h1, h2, h3, State.popped])
  | unpack k index =>
    cases h1 : validCount s k with
    | false => exact fails_of (c := .invalidParameterM) (by decide) (by simp [exec_unpack, execUnpack, h1])
    | true =>
      by_cases h2 : s.cfg.coverSize ≤ index.toNat
      · exact fails_of (c := .range) (by decide) (by simp [exec_unpack, execUnpack, State.outsideCover, h1, h2])
      by_cases h3 : bqDepth < s.bq.length + k.toNat
      · exact fails_of (c := .bqFault) (by decide)
          (by simp [exec_unpack, execUnpack, State.outsideCover, State.noRoom, h1, h2, h3])
      · exact succeeds_of ⟨rfl, h1, by omega, by omega, rfl⟩
          (by simp [exec_unpack, execUnpack, State.outsideCover, State.noRoom, h1, h2, h3])
  | dseed =>
    by_cases h1 : s.cfg.keySize < s.klen.toNat
    · exact fails_of (c := .range) (by decide) (by simp [exec_dseed, execDseed, h1])
    · exact succeeds_of ⟨by omega, rfl, rfl⟩ (by simp [exec_dseed, execDseed, h1])
  | seedacc cp => exact succeeds_of ⟨rfl, rfl⟩ rfl
  | enc =>
    cases h1 : s.lengthsOutside with
    | true => exact fails_of (c := .range) (by decide) (by simp [exec_enc, execEnc, h1])
    | false =>
      cases h2 : encrypt s.dataWindow s.keyWindow with
      | error c => exact fails_of (c := c) (by rw [encrypt_error h2]; decide) (by simp [exec_enc, execEnc, h1, h2])
      | ok bytes => exact succeeds_of ⟨rfl, h1, bytes, h2, rfl⟩ (by simp [exec_enc, execEnc, h1, h2])
  | dec =>
    cases h1 : s.lengthsOutside with
    | true => exact fails_of (c := .range) (by decide) (by simp [exec_dec, execDec, h1])
    | false =>
      cases h2 : decrypt s.dataWindow s.keyWindow with
      | error c => exact fails_of (c := c) (by rw [decrypt_error h2]; decide) (by simp [exec_dec, execDec, h1, h2])
      | ok bytes => exact succeeds_of ⟨rfl, h1, bytes, h2, rfl⟩ (by simp [exec_dec, execDec, h1, h2])
  | cstart =>
    by_cases h1 : s.m.toNat < 1 ∨ s.cfg.mMax < s.m.toNat
    · exact fails_of (c := .invalidParameterM) (by decide) (by rw [exec_cstart, execCstart, if_pos h1])
    · cases h2 : computeStart s.cfg s.pbl.toNat s.m.toNat s.cap.toNat s.seed with
      | none =>
        exact fails_of (c := .insufficientCapacity) (by decide) (by rw [exec_cstart, execCstart, if_neg h1, h2])
      | some r =>
        exact succeeds_of ⟨by omega, by omega, r, h2, rfl, rfl⟩ (by rw [exec_cstart, execCstart, if_neg h1, h2])
  | draw n => exact succeeds_of ⟨rfl, rfl⟩ rfl
  | embed =>
    cases h : embedPlan s with
    | error c => exact fails_of (c := c) (embedPlan_error h) (by rw [exec_embed, execEmbed, h])
    | ok p => exact succeeds_of ⟨p, h, rfl, rfl⟩ (by rw [exec_embed, execEmbed, h])
  | extract =>
    cases h : extractPlan s with
    | error c => exact fails_of (c := c) (extractPlan_error h) (by rw [exec_extract, execExtract, h])
    | ok p => exact succeeds_of ⟨p, h, rfl, rfl⟩ (by rw [exec_extract, execExtract, h])

/-- What no command's own effect changes: the configuration (R6) and the two ports. -/
theorem Effect.keeps_ports {i : Instr} {s t : State} {v : Word} (h : Effect i s v t) :
    t.cfg = s.cfg ∧ t.cmds = s.cmds ∧ t.rsps = s.rsps := by
  cases i <;> simp only [Effect] at h <;>
    grind [State.setReg_keeps_cfg, State.setReg_keeps_cmds, State.setReg_keeps_rsps, State.push, State.pop]

/-- An `OK` response comes with the command's effect. -/
theorem Effect.of_exec_ok {i : Instr} {s t : State} {v : Word} (h : exec i s = .next t)
    (hr : t.rsps = s.rsps ++ [⟨.ok, v⟩]) : ∃ u, Effect i s v u ∧ t = u.answer .ok v := by
  rcases exec_cases i s with ⟨c, hc, he⟩ | ⟨v', u, hu, he⟩
  · rw [h, raise_eq] at he
    cases he
    simp at hr
    exact absurd hr.1 hc
  · rw [h, respond_eq] at he
    cases he
    simp [hu.keeps_ports.2.2] at hr
    subst hr
    exact ⟨u, hu, rfl⟩

end Sys2Proof.Machine
end

