-- ==== Sys2Proof/Laws/Aside.lean ====
section
/-! SUPPORT. What no command looks at: ERR and the two ports (R18, R35). Two states that differ in these alone run every
command alike. -/

namespace Sys2Proof.Machine

/-- `s` with another ERR and other port contents. -/
abbrev State.withAside (s : State) (e : Word) (cs : List CommandWord) (rs : List Response) : State :=
  { s with err := e, cmds := cs, rsps := rs }

/-- The two runs of `i`, from `s` and from `s.withAside e cs rs`, fail alike. -/
def FailsAlike (i : Instr) (s : State) (e : Word) (cs : List CommandWord) (rs : List Response) : Prop :=
  ∃ c, c ≠ .ok ∧ exec i s = raise c s ∧ exec i (s.withAside e cs rs) = raise c (s.withAside e cs rs)

/-- The two runs of `i` answer `OK` and differ afterwards as they did before: in ERR, unless WRR writes it, and in the
ports. The values are the same unless RDR reads ERR. -/
def SucceedsAlike (i : Instr) (s : State) (e : Word) (cs : List CommandWord) (rs : List Response) : Prop :=
  ∃ v v' t e', exec i s = respond v t ∧ exec i (s.withAside e cs rs) = respond v' (t.withAside e' cs rs) ∧
    t.cmds = s.cmds ∧ t.rsps = s.rsps ∧
    (v' = v ∨ i = .rdr 10 ∧ v = s.err ∧ v' = e) ∧ (t.err = s.err ∧ e' = e ∨ (∃ x, i = .wrr 10 x) ∧ e' = t.err)

/-- Register number 10 alone names ERR (R21). -/
theorem regOfNumber_err {a : BitVec 8} (h : regOfNumber a = some .err) : a = 10 := by
  have : a.toNat = 10 := by
    revert h; unfold regOfNumber; split <;> simp_all
  exact BitVec.eq_of_toNat_eq (by simpa)

/-- How a command ends is decided without ERR and the ports (R18, R35). -/
theorem exec_withAside (i : Instr) (s : State) (e : Word) (cs : List CommandWord) (rs : List Response) :
    FailsAlike i s e cs rs ∨ SucceedsAlike i s e cs rs := by
  cases i with
  | wrr reg value =>
    simp only [exec_wrr, execWrr, FailsAlike, SucceedsAlike]
    cases h : regOfNumber reg with
    | none => exact .inl ⟨.illegalCommand, by decide, rfl, rfl⟩
    | some r =>
      cases r
      case bqv => exact .inl ⟨.illegalCommand, by decide, rfl, rfl⟩
      case bqn => exact .inl ⟨.illegalCommand, by decide, rfl, rfl⟩
      case err => exact .inr ⟨_, _, _, _, rfl, rfl, rfl, rfl, .inl rfl, .inr ⟨⟨value, by rw [regOfNumber_err h]⟩, rfl⟩⟩
      all_goals exact .inr ⟨_, _, _, _, rfl, rfl, rfl, rfl, .inl rfl, .inl ⟨rfl, rfl⟩⟩
  | rdr reg =>
    simp only [exec_rdr, execRdr, FailsAlike, SucceedsAlike]
    cases h : regOfNumber reg with
    | none => exact .inl ⟨.illegalCommand, by decide, rfl, rfl⟩
    | some r =>
      cases r
      case err => exact .inr ⟨_, _, _, _, rfl, rfl, rfl, rfl, .inr ⟨by rw [regOfNumber_err h], rfl, rfl⟩, .inl ⟨rfl, rfl⟩⟩
      all_goals exact .inr ⟨_, _, _, _, rfl, rfl, rfl, rfl, .inl rfl, .inl ⟨rfl, rfl⟩⟩
  | dseed =>
    simp only [FailsAlike, SucceedsAlike, exec_dseed, execDseed]
    split_ifs <;>
      first
      | exact .inl ⟨_, by decide, rfl, rfl⟩
      | exact .inr ⟨_, _, _, _, rfl, rfl, rfl, rfl, .inl rfl, .inl ⟨rfl, rfl⟩⟩
  | enc =>
    have h1 : (s.withAside e cs rs).lengthsOutside = s.lengthsOutside := rfl
    have h2 : (s.withAside e cs rs).dataWindow = s.dataWindow := rfl
    have h3 : (s.withAside e cs rs).keyWindow = s.keyWindow := rfl
    simp only [FailsAlike, SucceedsAlike, exec_enc, execEnc, h1, h2, h3]
    cases h : s.lengthsOutside <;> cases g : encrypt s.dataWindow s.keyWindow
    · exact .inl ⟨_, by rw [encrypt_error g]; decide, rfl, rfl⟩
    · exact .inr ⟨_, _, _, _, rfl, rfl, rfl, rfl, .inl rfl, .inl ⟨rfl, rfl⟩⟩
    all_goals exact .inl ⟨_, by decide, rfl, rfl⟩
  | dec =>
    have h1 : (s.withAside e cs rs).lengthsOutside = s.lengthsOutside := rfl
    have h2 : (s.withAside e cs rs).dataWindow = s.dataWindow := rfl
    have h3 : (s.withAside e cs rs).keyWindow = s.keyWindow := rfl
    simp only [FailsAlike, SucceedsAlike, exec_dec, execDec, h1, h2, h3]
    cases h : s.lengthsOutside <;> cases g : decrypt s.dataWindow s.keyWindow
    · exact .inl ⟨_, by rw [decrypt_error g]; decide, rfl, rfl⟩
    · exact .inr ⟨_, _, _, _, rfl, rfl, rfl, rfl, .inl rfl, .inl ⟨rfl, rfl⟩⟩
    all_goals exact .inl ⟨_, by decide, rfl, rfl⟩
  | cstart =>
    simp only [FailsAlike, SucceedsAlike, exec_cstart, execCstart]
    split_ifs
    · exact .inl ⟨_, by decide, rfl, rfl⟩
    · cases computeStart s.cfg s.pbl.toNat s.m.toNat s.cap.toNat s.seed
      · exact .inl ⟨_, by decide, rfl, rfl⟩
      · exact .inr ⟨_, _, _, _, rfl, rfl, rfl, rfl, .inl rfl, .inl ⟨rfl, rfl⟩⟩
  | embed =>
    have h : embedPlan (s.withAside e cs rs) = embedPlan s := rfl
    simp only [FailsAlike, SucceedsAlike, exec_embed, execEmbed, h]
    cases g : embedPlan s
    · exact .inl ⟨_, embedPlan_error g, rfl, rfl⟩
    · exact .inr ⟨_, _, _, _, rfl, rfl, rfl, rfl, .inl rfl, .inl ⟨rfl, rfl⟩⟩
  | extract =>
    have h : extractPlan (s.withAside e cs rs) = extractPlan s := by
      have hw : ∀ h, extractWithHeader (s.withAside e cs rs) h = extractWithHeader s h := fun h => by
        unfold extractWithHeader; rfl
      simp only [extractPlan, hw]
    simp only [FailsAlike, SucceedsAlike, exec_extract, execExtract, h]
    cases g : extractPlan s
    · exact .inl ⟨_, extractPlan_error g, rfl, rfl⟩
    · exact .inr ⟨_, _, _, _, rfl, rfl, rfl, rfl, .inl rfl, .inl ⟨rfl, rfl⟩⟩
  | _ =>
    simp only [FailsAlike, SucceedsAlike, exec_stc, execStc, exec_ldc, execLdc, exec_std, execStd, exec_ldd, execLdd,
      exec_stk, execStk, exec_ldk, execLdk, exec_stt, execStt, exec_ldt, execLdt, loadElement, exec_bqclr, execBqclr,
      exec_pushb, execPushb, exec_popb, execPopb, exec_pushv, execPushv, exec_popv, execPopv, exec_pack, execPack,
      exec_unpack, execUnpack, exec_seedacc, execSeedacc, exec_draw, execDraw, State.outsideCover, State.noRoom,
      State.tooFew, validCount, validWidth, decide_eq_true_eq]
    (try split_ifs) <;>
      first
      | exact .inl ⟨_, by decide, rfl, rfl⟩
      | exact .inr ⟨_, _, _, _, rfl, rfl, rfl, rfl, .inl rfl, .inl ⟨rfl, rfl⟩⟩

end Sys2Proof.Machine
end

