-- ==== Sys2Proof/Laws/Stream.lean ====
section
/-! SUPPORT. Families 42 and 43, one lemma per function: the seed, the key stream, the two ciphers, the unit count and
the start offset (R16, R170 to R173, R190, R191). -/

namespace Sys2Proof.Machine

/-! ## The seed -/

@[simp] theorem deriveSeed_nil : deriveSeed [] = 0 := rfl

theorem deriveSeed_snoc (text : List Word) (c : Word) :
    deriveSeed (text ++ [c]) = seedStep (deriveSeed text) c := by
  simp [deriveSeed]

theorem seedStep_toNat (seed c : Word) : (seedStep seed c).toNat = (seed.toNat * 31 + c.toNat) % 2 ^ 32 := by
  simp [seedStep, BitVec.toNat_add, BitVec.toNat_mul]

/-! ## The two ciphers -/

/-- The one way the key stream fails is the empty key (R171). -/
theorem extendKey_spec (d : Nat) (key : List Byte) :
    (key = [] ∧ extendKey d key = .error .emptyKey) ∨
      (key ≠ [] ∧ extendKey d key = .ok ((List.range d).map (fun i => key.getD (i % key.length) 0))) := by
  cases key with
  | nil => exact .inl ⟨rfl, rfl⟩
  | cons k ks => exact .inr ⟨by simp, rfl⟩

/-- Everything `encrypt` can do (R172). -/
theorem encrypt_spec (data key : List Byte) :
    (key = [] ∧ encrypt data key = .error .emptyKey) ∨
      (key ≠ [] ∧ ∃ out, encrypt data key = .ok out ∧ out.length = data.length ∧
        ∀ i (h : i < out.length) (h' : i < data.length),
          out[i].toNat = (data[i].toNat + (key.getD (i % key.length) 0).toNat) % 256) := by
  unfold encrypt
  rcases extendKey_spec data.length key with ⟨h, e⟩ | ⟨h, e⟩
  · exact .inl ⟨h, by rw [e]⟩
  · refine .inr ⟨h, _, by rw [e], by simp, fun i h1 h2 => ?_⟩
    simp

/-- Everything `decrypt` can do (R173). -/
theorem decrypt_spec (cipher key : List Byte) :
    (key = [] ∧ decrypt cipher key = .error .emptyKey) ∨
      (key ≠ [] ∧ ∃ out, decrypt cipher key = .ok out ∧ out.length = cipher.length ∧
        ∀ i (h : i < out.length) (h' : i < cipher.length),
          out[i].toNat = (cipher[i].toNat + 256 - (key.getD (i % key.length) 0).toNat) % 256) := by
  unfold decrypt
  rcases extendKey_spec cipher.length key with ⟨h, e⟩ | ⟨h, e⟩
  · exact .inl ⟨h, by rw [e]⟩
  · refine .inr ⟨h, _, by rw [e], by simp, fun i h1 h2 => ?_⟩
    simp

/-- The key in use is empty exactly when KLEN is 0. -/
theorem State.keyWindow_eq_nil (s : State) : s.keyWindow = [] ↔ s.klen.toNat = 0 := by
  rw [← List.length_eq_zero_iff, State.keyWindow, Memory.window_length]

theorem State.keyWindow_getD (s : State) (i : Nat) (h : i < s.klen.toNat) :
    s.keyWindow.getD i 0 = Memory.read s.key i := by
  rw [List.getD_eq_getElem?_getD, List.getElem?_eq_getElem (by simpa [State.keyWindow] using h), Option.getD_some]
  exact Memory.window_getElem ..

/-- A write of a window leaves what ciphering it twice finds (R174). -/
theorem decrypt_encrypt {data key out : List Byte} (h : encrypt data key = .ok out) : decrypt out key = .ok data := by
  rcases encrypt_spec data key with ⟨-, e⟩ | ⟨hk, o, e, hl, ho⟩
  · rw [e] at h; cases h
  · rw [e] at h; cases h
    rcases decrypt_spec out key with ⟨hk', -⟩ | ⟨-, o', e', hl', ho'⟩
    · exact absurd hk' hk
    · rw [e']
      congr 1
      apply List.ext_getElem (hl'.trans hl)
      intro i h1 h2
      apply BitVec.eq_of_toNat_eq
      rw [ho' i h1 (by omega), ho i (by omega) h2]
      have := (key.getD (i % key.length) 0).isLt
      have := data[i].isLt
      omega

theorem encrypt_decrypt {cipher key out : List Byte} (h : decrypt cipher key = .ok out) :
    encrypt out key = .ok cipher := by
  rcases decrypt_spec cipher key with ⟨-, e⟩ | ⟨hk, o, e, hl, ho⟩
  · rw [e] at h; cases h
  · rw [e] at h; cases h
    rcases encrypt_spec out key with ⟨hk', -⟩ | ⟨-, o', e', hl', ho'⟩
    · exact absurd hk' hk
    · rw [e']
      congr 1
      apply List.ext_getElem (hl'.trans hl)
      intro i h1 h2
      apply BitVec.eq_of_toNat_eq
      rw [ho' i h1 (by omega), ho i (by omega) h2]
      have := (key.getD (i % key.length) 0).isLt
      have := cipher[i].isLt
      omega

/-! ## The unit count and the start offset -/

/-- `ceilDiv` is the least count of units that holds `a` bits (R16). -/
theorem ceilDiv_spec (a b : Nat) (hb : 1 ≤ b) : a ≤ ceilDiv a b * b ∧ ∀ r, a ≤ r * b → ceilDiv a b ≤ r := by
  unfold ceilDiv
  constructor
  · have h1 := Nat.div_add_mod (a + (b - 1)) b
    have h2 := Nat.mod_lt (a + (b - 1)) (show b > 0 by omega)
    rw [Nat.mul_comm] at h1
    omega
  · intro r hr
    apply Nat.le_of_lt_succ
    rw [Nat.div_lt_iff_lt_mul (by omega), Nat.succ_mul]
    omega

theorem ceilDiv_unique {a b q : Nat} (hb : 1 ≤ b) (h1 : a ≤ q * b) (h2 : ∀ r, a ≤ r * b → q ≤ r) : q = ceilDiv a b :=
  Nat.le_antisymm (h2 _ (ceilDiv_spec a b hb).1) ((ceilDiv_spec a b hb).2 _ h1)

/-- Every draw lies in its range, whatever the generator (R13, R199). -/
theorem prngDraw_le (g : Generator) (seed : Word) (n : Nat) : prngDraw g seed n ≤ n := by
  cases g with
  | reference => exact Nat.le_of_lt_succ (Nat.mod_lt _ (Nat.succ_pos n))
  | other index => exact Nat.le_of_lt_succ (Config.otherDraw index seed n).isLt

/-- Everything `computeStart` can do (R191). -/
theorem computeStart_spec (cfg : Config) (len m cap : Nat) (seed : Word) :
    (cap ≤ neededUnits len m + 35 + cfg.safety ∧ computeStart cfg len m cap seed = none) ∨
      (neededUnits len m + 35 + cfg.safety < cap ∧
        computeStart cfg len m cap seed =
          some (35 + cfg.safety + prngDraw cfg.generator seed (cap - neededUnits len m - 35 - cfg.safety))) := by
  have hs : availableSpace cfg len m cap = (cap : Int) - neededUnits len m - 35 - cfg.safety := rfl
  unfold computeStart
  by_cases h : cap ≤ neededUnits len m + 35 + cfg.safety
  · exact .inl ⟨h, by simp only [hs]; rw [if_pos (by omega)]⟩
  · refine .inr ⟨by omega, ?_⟩
    have e : ((cap : Int) - neededUnits len m - 35 - cfg.safety).toNat = cap - neededUnits len m - 35 - cfg.safety := by
      omega
    simp only [hs]
    rw [if_neg (by omega), e]
    rfl

/-- Everything `placement` can do (R191, R195): it fails only when drawn, and then exactly where `computeStart` does; a
drawn start lies between the header with its safety and the last place the payload fits. -/
theorem placement_spec (cfg : Config) (rand : Bool) (len m cap : Nat) (key : List Byte) :
    (rand = true ∧ cap ≤ neededUnits len m + 35 + cfg.safety ∧ placement cfg rand len m cap key = none) ∨
    (rand = true ∧ neededUnits len m + 35 + cfg.safety < cap ∧ ∃ start,
      placement cfg rand len m cap key = some (start, some (deriveSeedOfBytes key)) ∧
      start = 35 + cfg.safety +
        prngDraw cfg.generator (deriveSeedOfBytes key) (cap - neededUnits len m - 35 - cfg.safety) ∧
      start + neededUnits len m ≤ cap) ∨
    (rand = false ∧ placement cfg rand len m cap key = some (35, none)) := by
  cases rand with
  | false => exact .inr (.inr ⟨rfl, rfl⟩)
  | true =>
    rcases computeStart_spec cfg len m cap (deriveSeedOfBytes key) with ⟨h, e⟩ | ⟨h, e⟩
    · exact .inl ⟨rfl, h, by simp [placement, e]⟩
    · refine .inr (.inl ⟨rfl, h, _, by simp [placement, e], rfl, ?_⟩)
      have := prngDraw_le cfg.generator (deriveSeedOfBytes key) (cap - neededUnits len m - 35 - cfg.safety)
      omega

end Sys2Proof.Machine
end

