-- ==== Sys2Proof/Laws/Units.lean ====
section
/-! SUPPORT. A bit sequence in consecutive cover units (R144, R215): what `packUnits` writes and leaves, what
`unpackUnits` reads, and that the one undoes the other. -/

namespace Sys2Proof.Machine

theorem wf_packUnits (m n : Nat) (cover : Memory 16) (h : Memory.wf cover) (i : Nat) (bits : List Bool) :
    Memory.wf (packUnits m n cover i bits) := by
  induction n generalizing cover i bits with
  | zero => exact h
  | succ n ih => exact ih _ (Memory.wf_write cover h _ _) _ _

/-- Unit `u` after `packUnits`: within the `n` units from `i` on it carries its group of the sequence, elsewhere it is
as before. -/
theorem read_packUnits (m n : Nat) (cover : Memory 16) (h : Memory.wf cover) (i : Nat) (bits : List Bool) (u : Nat) :
    Memory.read (packUnits m n cover i bits) u =
      if i ≤ u ∧ u < i + n then packUnit (Memory.read cover u) ((bits.drop ((u - i) * m)).take m)
      else Memory.read cover u := by
  induction n generalizing cover i bits with
  | zero => rw [if_neg (by omega)]; rfl
  | succ n ih =>
    rw [packUnits, ih _ (Memory.wf_write cover h _ _), Memory.read_write cover h]
    by_cases hu : u = i
    · subst hu
      rw [if_neg (by omega), if_pos rfl, if_pos (by omega)]
      simp
    · rw [if_neg hu]
      by_cases hi : i ≤ u ∧ u < i + (n + 1)
      · have e : (u - i) * m = m + (u - (i + 1)) * m := by
          rw [show u - i = u - (i + 1) + 1 by omega, Nat.add_mul, Nat.one_mul, Nat.add_comm]
        rw [if_pos (by omega), if_pos hi, List.drop_drop, e]
      · rw [if_neg (by omega), if_neg hi]

/-- The units stay within their width when no unit carries more bits than the width (R41). -/
theorem Inv_packUnits {size w : Nat} (hw : w ≤ 16) (m n : Nat) (hm : m ≤ w) (cover : Memory 16)
    (h : Memory.Inv size w cover) (i : Nat) (hi : i + n ≤ size) (bits : List Bool) :
    Memory.Inv size w (packUnits m n cover i bits) := by
  induction n generalizing cover i bits with
  | zero => exact h
  | succ n ih =>
    refine ih _ (h.write (by omega) ?_) _ (by omega) _
    exact packUnit_lt _ _ w hw (by simp; omega) (h.read_lt i)

theorem unpackUnits_length (m : Nat) (cover : Memory 16) (n i len : Nat) :
    (unpackUnits m cover n i len).length = min (n * m) len := by
  induction n generalizing i len with
  | zero => simp [unpackUnits]
  | succ n ih =>
    simp only [unpackUnits, List.length_append, unpackUnit_length, ih, Nat.add_mul, Nat.one_mul]
    omega

/-- Only the units read matter. -/
theorem unpackUnits_congr (m : Nat) {c1 c2 : Memory 16} (n i len : Nat)
    (h : ∀ u, i ≤ u → u < i + n → Memory.read c1 u = Memory.read c2 u) :
    unpackUnits m c1 n i len = unpackUnits m c2 n i len := by
  induction n generalizing i len with
  | zero => rfl
  | succ n ih =>
    rw [unpackUnits, unpackUnits, h i (by omega) (by omega), ih _ _ (fun u h1 h2 => h u (by omega) (by omega))]

/-- Bit `t` of the sequence, in unit `t / m`, the group's first bit the highest (R215). -/
theorem unpackUnits_getD (m : Nat) (hm : 1 ≤ m) (cover : Memory 16) (n i len t : Nat) (ht : t < n * m) (hl : t < len) :
    (unpackUnits m cover n i len).getD t false =
      (Memory.read cover (i + t / m)).getLsbD (min m (len - t / m * m) - 1 - t % m) := by
  induction n generalizing i len t with
  | zero => omega
  | succ n ih =>
    rw [unpackUnits, List.getD_eq_getElem?_getD]
    by_cases h : t < m
    · have hlen : t < (unpackUnit (Memory.read cover i) (min m len)).length := by
        rw [unpackUnit_length]; omega
      rw [List.getElem?_append_left hlen, List.getElem?_eq_getElem hlen, Option.getD_some, unpackUnit_getElem,
        Nat.div_eq_of_lt h, Nat.mod_eq_of_lt h]
      simp
    · have hd : t / m = (t - m) / m + 1 := by
        rw [← Nat.add_div_right _ (by omega)]
        congr 1
        omega
      have hmod : t % m = (t - m) % m := (Nat.mod_eq_sub_mod (by omega))
      rw [List.getElem?_append_right (by rw [unpackUnit_length]; omega), unpackUnit_length,
        show t - min m len = t - m by omega, ← List.getD_eq_getElem?_getD,
        ih (i + 1) (len - m) (t - m) (by rw [Nat.add_mul, Nat.one_mul] at ht; omega) (by omega), hd, hmod, Nat.add_mul,
        Nat.one_mul]
      rw [show i + 1 + (t - m) / m = i + ((t - m) / m + 1) by omega,
        show len - m - (t - m) / m * m = len - ((t - m) / m * m + m) by omega]

/-- What `packUnits` wrote, `unpackUnits` reads back (R145). -/
theorem unpackUnits_packUnits (m n : Nat) (hm : 1 ≤ m) (h16 : m ≤ 16) (cover : Memory 16) (h : Memory.wf cover) (i : Nat)
    (bits : List Bool) (hb : bits.length ≤ n * m) :
    unpackUnits m (packUnits m n cover i bits) n i bits.length = bits := by
  induction n generalizing cover i bits with
  | zero =>
    have : bits = [] := List.length_eq_zero_iff.1 (by omega)
    subst this
    rfl
  | succ n ih =>
    have hh : Memory.read (packUnits m (n + 1) cover i bits) i = packUnit (Memory.read cover i) (bits.take m) := by
      rw [read_packUnits _ _ _ h, if_pos (by omega)]
      simp
    have ht : min m bits.length = (bits.take m).length := by simp
    rw [unpackUnits, hh, ht, unpackUnit_packUnit _ _ (by simp; omega)]
    have hd := ih _ (Memory.wf_write cover h i (packUnit (Memory.read cover i) (bits.take m))) (i + 1) (bits.drop m)
      (by rw [Nat.add_mul, Nat.one_mul] at hb; simp; omega)
    rw [List.length_drop] at hd
    rw [packUnits, hd, List.take_append_drop]

end Sys2Proof.Machine
end

