-- ==== Sys2Proof/Laws/Codec.lean ====
section
/-! SUPPORT. Family 44, one lemma per function: the header's and the payload's bits (R210 to R214), and everything the
checks of EMBED and EXTRACT can answer (R216, R219). -/

namespace Sys2Proof.Machine

/-! ## The layouts -/

@[simp] theorem headerBits_length (rand : Bool) (m len : Nat) : (headerBits rand m len).length = 35 := by
  simp [headerBits]

@[simp] theorem payloadBits_length (tag : List Byte) (enc : Bool) (content : List Byte) :
    (payloadBits tag enc content).length = 8 * tag.length + 1 + 8 * content.length := by
  simp [payloadBits]; omega

/-- The header's fields come back (R210, R211). -/
theorem headerOfBits_headerBits (rand : Bool) (m len : Nat) (h1 : 1 ≤ m) (h4 : m ≤ 4) (hl : len < 2 ^ 32) :
    headerOfBits (headerBits rand m len) = { rand, m, len } := by
  have hm : valof (bitsof 2 (m - 1)) = m - 1 := valof_bitsof_of_lt (by omega)
  have hn : valof (bitsof 32 len) = len := valof_bitsof_of_lt hl
  have e1 : ((headerBits rand m len).drop 1).take 2 = bitsof 2 (m - 1) := by
    simp [headerBits]
  have e2 : (headerBits rand m len).drop 3 = bitsof 32 len := by
    rw [headerBits, List.drop_append_of_le_length (by simp)]
    simp
  have e3 : (headerBits rand m len).getD 0 false = rand := rfl
  rw [headerOfBits, e1, e2, e3, hm, hn, Nat.sub_add_cancel h1]

/-- A header read has `m` from 1 to 4 and a length below `2 ^ 32` (R211). -/
theorem headerOfBits_bounds (h : List Bool) (hl : h.length = 35) :
    1 ≤ (headerOfBits h).m ∧ (headerOfBits h).m ≤ 4 ∧ (headerOfBits h).len < 2 ^ 32 := by
  have h1 := valof_lt ((h.drop 1).take 2)
  have h2 := valof_lt (h.drop 3)
  have e1 : ((h.drop 1).take 2).length = 2 := by simp [hl]
  have e2 : (h.drop 3).length = 32 := by simp [hl]
  rw [e1] at h1
  rw [e2] at h2
  simp only [headerOfBits]
  omega

/-- The header read depends on units 0 to 34 alone. -/
theorem readHeader_congr {c1 c2 : Memory 16} (h : ∀ u, u < 35 → Memory.read c1 u = Memory.read c2 u) :
    readHeader c1 = readHeader c2 := by
  rw [readHeader, readHeader, unpackUnits_congr 1 (c1 := c1) (c2 := c2) _ _ _ (fun u _ hu => h u (by simpa [hdrUnits] using hu))]

theorem readHeader_bounds (cover : Memory 16) :
    1 ≤ (readHeader cover).m ∧ (readHeader cover).m ≤ 4 ∧ (readHeader cover).len < 2 ^ 32 :=
  headerOfBits_bounds _ (by rw [unpackUnits_length]; rfl)

/-! ## EMBED -/

theorem neededUnits_ge (len m : Nat) (hm : 1 ≤ m) : len ≤ neededUnits len m * m := (ceilDiv_spec len m hm).1

/-- When the checks of EMBED pass (R216), and what is then to be written. -/
structure EmbedPasses (s : State) (p : EmbedPlan) : Prop where
  inside : s.cap.toNat ≤ s.cfg.coverSize ∧ s.dlen.toNat ≤ s.cfg.dataSize ∧ s.klen.toNat ≤ s.cfg.keySize
  m : 1 ≤ s.m.toNat ∧ s.m.toNat ≤ 4
  key : isEnc s.ctrl = true ∨ isRand s.ctrl = true → s.klen ≠ 0
  len : p.len = payloadLength s.dlen.toNat
  units : p.units = neededUnits p.len s.m.toNat
  place : placement s.cfg (isRand s.ctrl) p.len s.m.toNat s.cap.toNat s.keyWindow = some (p.start, p.seed)
  room : p.start + p.units ≤ s.cap.toNat
  payload : ∃ content, embeddedContent (isEnc s.ctrl) s.dataWindow s.keyWindow = .ok content ∧
    p.payload = payloadBits s.tagWindow (isEnc s.ctrl) content

/-- The plan of EMBED is exactly what passes its checks. -/
theorem embedPlan_ok_iff (s : State) (p : EmbedPlan) : embedPlan s = .ok p ↔ EmbedPasses s p := by
  constructor
  · intro h
    unfold embedPlan at h
    simp only at h
    by_cases h1 : s.embedOutside = true
    · rw [if_pos h1] at h; cases h
    rw [if_neg h1] at h
    by_cases h2 : s.m.toNat < 1 ∨ hdrMMax < s.m.toNat
    · rw [if_pos h2] at h; cases h
    rw [if_neg h2] at h
    by_cases h3 : (isEnc s.ctrl = true ∨ isRand s.ctrl = true) ∧ s.klen = 0
    · rw [if_pos h3] at h; cases h
    rw [if_neg h3] at h
    cases h4 : placement s.cfg (isRand s.ctrl) (payloadLength s.dlen.toNat) s.m.toNat s.cap.toNat s.keyWindow with
    | none => rw [h4] at h; cases h
    | some q =>
      obtain ⟨start, seed⟩ := q
      rw [h4] at h
      simp only at h
      by_cases h5 : s.cap.toNat < start + neededUnits (payloadLength s.dlen.toNat) s.m.toNat
      · rw [if_pos h5] at h; cases h
      rw [if_neg h5] at h
      cases h6 : embeddedContent (isEnc s.ctrl) s.dataWindow s.keyWindow with
      | error c => rw [h6] at h; cases h
      | ok content =>
        rw [h6] at h
        cases h
        rw [State.embedOutside_iff] at h1
        have h2' : ¬(s.m.toNat < 1 ∨ 4 < s.m.toNat) := h2
        exact ⟨by omega, by omega, fun hk h0 => h3 ⟨hk, h0⟩, rfl, rfl, h4, by simpa using h5, content, h6, rfl⟩
  · rintro ⟨h1, h2, h3, h4, h5, h6, h7, content, h8, h9⟩
    obtain ⟨len, units, start, seed, payload⟩ := p
    simp only at h4 h5 h6 h7 h9
    subst h4 h5 h9
    unfold embedPlan
    have h2' : ¬(s.m.toNat < 1 ∨ hdrMMax < s.m.toNat) := by unfold hdrMMax; omega
    simp only
    rw [if_neg (by rw [State.embedOutside_iff]; omega), if_neg h2', if_neg (fun hh => h3 hh.1 hh.2), h6]
    simp only
    rw [if_neg (by omega), h8]

/-- The payload of a plan has the plan's length (R213, R214). -/
theorem EmbedPasses.payload_length {s : State} {p : EmbedPlan} (h : EmbedPasses s p) : p.payload.length = p.len := by
  obtain ⟨content, hc, hp⟩ := h.payload
  have hl : content.length = s.dlen.toNat := by
    unfold embeddedContent at hc
    have hd : s.dataWindow.length = s.dlen.toNat := Memory.window_length ..
    split_ifs at hc
    · rcases encrypt_spec s.dataWindow s.keyWindow with ⟨-, e⟩ | ⟨-, out, e, hl, -⟩
      · rw [e] at hc; cases hc
      · rw [e] at hc; cases hc; omega
    · cases hc; exact hd
  have ht : s.tagWindow.length = 10 := Memory.window_length ..
  rw [hp, payloadBits_length, hl, ht, h.len]
  rfl

/-- The start of a plan lies after the header. -/
theorem EmbedPasses.start_ge {s : State} {p : EmbedPlan} (h : EmbedPasses s p) : 35 ≤ p.start := by
  have hp := h.place
  rcases placement_spec s.cfg (isRand s.ctrl) p.len s.m.toNat s.cap.toNat s.keyWindow with
    ⟨-, -, e⟩ | ⟨-, -, start, e, hs, -⟩ | ⟨-, e⟩
  · rw [e] at hp; cases hp
  · rw [e, Option.some.injEq, Prod.mk.injEq] at hp
    omega
  · rw [e, Option.some.injEq, Prod.mk.injEq] at hp
    omega

/-- Unit `u` of the cover EMBED leaves: header below 35, payload in its region, elsewhere as before. -/
theorem EmbedPasses.read_embedCover {s : State} {p : EmbedPlan} (h : EmbedPasses s p) (hw : Memory.wf s.cover) (u : Nat) :
    Memory.read (embedCover s.cover (isRand s.ctrl) s.m.toNat p) u =
      if u < 35 then packUnit (Memory.read s.cover u) [(headerBits (isRand s.ctrl) s.m.toNat p.len).getD u false]
      else if p.start ≤ u ∧ u < p.start + p.units then
        packUnit (Memory.read s.cover u) ((p.payload.drop ((u - p.start) * s.m.toNat)).take s.m.toNat)
      else Memory.read s.cover u := by
  have hs := h.start_ge
  have hh : ∀ u, Memory.read (packUnits 1 hdrUnits s.cover 0 (headerBits (isRand s.ctrl) s.m.toNat p.len)) u =
      if u < 35 then packUnit (Memory.read s.cover u) [(headerBits (isRand s.ctrl) s.m.toNat p.len).getD u false]
      else Memory.read s.cover u := by
    intro u
    rw [read_packUnits _ _ _ hw]
    by_cases hu : u < 35
    · rw [if_pos (by unfold hdrUnits; omega), if_pos hu]
      congr 1
      have hl : u < (headerBits (isRand s.ctrl) s.m.toNat p.len).length := by simpa using hu
      rw [Nat.sub_zero, Nat.mul_one, List.drop_eq_getElem_cons hl, List.take_succ_cons, List.take_zero,
        List.getD_eq_getElem?_getD, List.getElem?_eq_getElem hl, Option.getD_some]
    · rw [if_neg (by unfold hdrUnits; omega), if_neg hu]
  rw [embedCover, read_packUnits _ _ _ (wf_packUnits _ _ _ hw _ _), hh]
  by_cases hu : u < 35
  · rw [if_neg (by omega)]
    simp only [if_pos hu]
  · simp only [if_neg hu]

/-- What EMBED leaves in COVER reads as its header and, with its own start and unit count, its payload (R223). -/
theorem EmbedPasses.reads_back {s : State} {p : EmbedPlan} (h : EmbedPasses s p) (hw : Memory.wf s.cover)
    (hl : p.len < 2 ^ 32) :
    readHeader (embedCover s.cover (isRand s.ctrl) s.m.toNat p) =
        { rand := isRand s.ctrl, m := s.m.toNat, len := p.len } ∧
      unpackUnits s.m.toNat (embedCover s.cover (isRand s.ctrl) s.m.toNat p) p.units p.start p.len = p.payload := by
  obtain ⟨h1, h4⟩ := h.m
  have hs := h.start_ge
  constructor
  · have hc : ∀ u, u < 35 → Memory.read (embedCover s.cover (isRand s.ctrl) s.m.toNat p) u =
        Memory.read (packUnits 1 hdrUnits s.cover 0 (headerBits (isRand s.ctrl) s.m.toNat p.len)) u := by
      intro u hu
      rw [embedCover, read_packUnits _ _ _ (wf_packUnits _ _ _ hw _ _), if_neg (by omega)]
    rw [readHeader_congr hc, readHeader]
    have := unpackUnits_packUnits 1 hdrUnits le_rfl (by omega) s.cover hw 0
      (headerBits (isRand s.ctrl) s.m.toNat p.len) (by simp [hdrUnits])
    rw [headerBits_length] at this
    rw [show hdrUnits = 35 from rfl] at this ⊢
    rw [this]
    exact headerOfBits_headerBits _ _ _ h1 h4 hl
  · rw [embedCover]
    have := unpackUnits_packUnits s.m.toNat p.units h1 (by omega) _ (wf_packUnits 1 hdrUnits _ hw 0
      (headerBits (isRand s.ctrl) s.m.toNat p.len)) p.start p.payload
      (by rw [h.payload_length, h.units]; exact neededUnits_ge _ _ h1)
    rwa [h.payload_length] at this

/-! ## EXTRACT -/

/-- A payload of the layout of R214 is parsed into its parts. -/
theorem parsePayload_payloadBits (dataSize : Nat) (key tag content : List Byte) (enc : Bool) (ht : tag.length = 10)
    (hd : content.length ≤ dataSize) :
    parsePayload dataSize key (payloadLength content.length) (payloadBits tag enc content) =
      match extractedContent enc content key with
      | .error c => .error c
      | .ok plain => .ok (tag, enc, plain) := by
  have hb : (bytesToBits tag).length = 80 := by rw [bytesToBits_length, ht]
  have e1 : (payloadBits tag enc content).take tagBits = bytesToBits tag := by
    rw [payloadBits, List.append_assoc, List.take_append_of_le_length (by rw [hb]; exact le_rfl)]
    exact List.take_of_length_le (by rw [hb]; exact le_rfl)
  have e2 : (payloadBits tag enc content).drop (tagBits + 1) = bytesToBits content := by
    rw [payloadBits]
    exact List.drop_left' (by simp [hb, tagBits])
  have e3 : (payloadBits tag enc content).getD tagBits false = enc := by
    rw [payloadBits, List.append_assoc, List.getD_eq_getElem?_getD,
      List.getElem?_append_right (by rw [hb]; exact le_rfl), hb]
    rfl
  have h1 : ¬(payloadLength content.length < payloadLength 0 ∨ (payloadLength content.length - payloadLength 0) % 8 ≠ 0) := by
    unfold payloadLength
    omega
  have h2 : ¬dataSize < (payloadLength content.length - payloadLength 0) / 8 := by
    unfold payloadLength
    omega
  unfold parsePayload
  rw [if_neg h1, if_neg h2, e1, e2, e3]
  simp only [bitsToBytes_bytesToBits] <;> cases extractedContent enc content key <;> rfl

/-- When the checks of EXTRACT pass (R219), and what is then to be written. -/
structure ExtractPasses (s : State) (p : ExtractPlan) : Prop where
  inside : s.cap.toNat ≤ s.cfg.coverSize ∧ s.klen.toNat ≤ s.cfg.keySize
  header : 35 ≤ s.cap.toNat ∧ readHeader s.cover = { rand := p.rand, m := p.m, len := p.len }
  key : p.rand = true → s.klen ≠ 0
  place : placement s.cfg p.rand p.len p.m s.cap.toNat s.keyWindow = some (p.start, p.seed)
  room : p.start + neededUnits p.len p.m ≤ s.cap.toNat
  parse : parsePayload s.cfg.dataSize s.keyWindow p.len
    (unpackUnits p.m s.cover (neededUnits p.len p.m) p.start p.len) = .ok (p.tag, p.enc, p.content)

/-- With a header in its range the steps of EXTRACT are the key, the place, the room and the payload. -/
theorem extractWithHeader_ok_iff (s : State) (h : Header) (hm : 1 ≤ h.m ∧ h.m ≤ 4) (p : ExtractPlan) :
    extractWithHeader s h = .ok p ↔
      h = { rand := p.rand, m := p.m, len := p.len } ∧ (p.rand = true → s.klen ≠ 0) ∧
      placement s.cfg p.rand p.len p.m s.cap.toNat s.keyWindow = some (p.start, p.seed) ∧
      p.start + neededUnits p.len p.m ≤ s.cap.toNat ∧
      parsePayload s.cfg.dataSize s.keyWindow p.len
        (unpackUnits p.m s.cover (neededUnits p.len p.m) p.start p.len) = .ok (p.tag, p.enc, p.content) := by
  have h16 := mMax_ge s.cfg
  have hM : ¬(h.m < 1 ∨ s.cfg.mMax < h.m) := by omega
  unfold extractWithHeader
  rw [if_neg hM]
  constructor
  · intro e
    by_cases h1 : h.rand = true ∧ s.klen = 0
    · rw [if_pos h1] at e; cases e
    rw [if_neg h1] at e
    cases h2 : placement s.cfg h.rand h.len h.m s.cap.toNat s.keyWindow with
    | none => rw [h2] at e; cases e
    | some q =>
      obtain ⟨start, seed⟩ := q
      rw [h2] at e
      simp only at e
      by_cases h3 : s.cap.toNat < start + neededUnits h.len h.m
      · rw [if_pos h3] at e; cases e
      rw [if_neg h3] at e
      cases h4 : parsePayload s.cfg.dataSize s.keyWindow h.len
          (unpackUnits h.m s.cover (neededUnits h.len h.m) start h.len) with
      | error c => rw [h4] at e; cases e
      | ok r =>
        obtain ⟨tag, enc, content⟩ := r
        rw [h4] at e
        cases e
        exact ⟨rfl, fun hr h0 => h1 ⟨hr, h0⟩, h2, by simpa using h3, h4⟩
  · rintro ⟨rfl, h1, h2, h3, h4⟩
    simp only
    rw [if_neg (fun hh => h1 hh.1 hh.2), h2]
    simp only
    rw [if_neg (by omega), h4]

/-- The plan of EXTRACT is exactly what passes its checks. -/
theorem extractPlan_ok_iff (s : State) (p : ExtractPlan) : extractPlan s = .ok p ↔ ExtractPasses s p := by
  have hb := readHeader_bounds s.cover
  have hx := extractWithHeader_ok_iff s (readHeader s.cover) ⟨hb.1, hb.2.1⟩ p
  unfold extractPlan
  constructor
  · intro e
    by_cases h1 : s.cfg.coverSize < s.cap.toNat ∨ s.cfg.keySize < s.klen.toNat
    · rw [if_pos h1] at e; cases e
    rw [if_neg h1] at e
    by_cases h2 : s.cap.toNat < hdrUnits
    · rw [if_pos h2] at e; cases e
    rw [if_neg h2, hx] at e
    have h2' : ¬s.cap.toNat < 35 := h2
    exact ⟨by omega, ⟨by omega, e.1⟩, e.2.1, e.2.2.1, e.2.2.2.1, e.2.2.2.2⟩
  · rintro ⟨h1, h2, h3, h4, h5, h6⟩
    have h2' : ¬s.cap.toNat < hdrUnits := by unfold hdrUnits; omega
    rw [if_neg (by omega), if_neg h2', hx]
    exact ⟨h2.2, h3, h4, h5, h6⟩

/-- Everything `parsePayload` answers when it succeeds: ten tag bytes and as many content bytes as the length says. -/
theorem parsePayload_lengths {dataSize : Nat} {key tag content : List Byte} {enc : Bool} {len : Nat} {bits : List Bool}
    (hb : bits.length = len) (h : parsePayload dataSize key len bits = .ok (tag, enc, content)) :
    tag.length = 10 ∧ len = 81 + 8 * content.length ∧ content.length ≤ dataSize := by
  unfold parsePayload at h
  by_cases h1 : len < payloadLength 0 ∨ (len - payloadLength 0) % 8 ≠ 0
  · rw [if_pos h1] at h; cases h
  rw [if_neg h1] at h
  by_cases h2 : dataSize < (len - payloadLength 0) / 8
  · rw [if_pos h2] at h; cases h
  rw [if_neg h2] at h
  have h1' : ¬(len < 81 ∨ (len - 81) % 8 ≠ 0) := h1
  have h2' : ¬dataSize < (len - 81) / 8 := h2
  have l1 : (bits.take tagBits).length = 80 := by
    rw [List.length_take, hb, tagBits]; omega
  have l2 : (bits.drop (tagBits + 1)).length = len - 81 := by
    rw [List.length_drop, hb, tagBits]
  rcases bitsToBytes_spec _ (bits.take tagBits) le_rfl with ⟨hne, -⟩ | ⟨t, et, rt⟩
  · rw [l1] at hne; omega
  rcases bitsToBytes_spec _ (bits.drop (tagBits + 1)) le_rfl with ⟨hne, -⟩ | ⟨c, ec, rc⟩
  · rw [l2] at hne; omega
  rw [et, ec] at h
  simp only at h
  have t8 := congrArg List.length rt
  have c8 := congrArg List.length rc
  rw [bytesToBits_length, l1] at t8
  rw [bytesToBits_length, l2] at c8
  cases hx : extractedContent (bits.getD tagBits false) c key with
  | error e => rw [hx] at h; cases h
  | ok content' =>
    rw [hx] at h
    cases h
    have hlen : content.length = c.length := by
      unfold extractedContent at hx
      split_ifs at hx
      · rcases decrypt_spec c key with ⟨-, e⟩ | ⟨-, out, e, hl, -⟩
        · rw [e] at hx; cases hx
        · rw [e] at hx; cases hx; exact hl
      · cases hx; rfl
    omega

end Sys2Proof.Machine
end

