-- ==== Sys2Proof/Laws/Decode.lean ====
section
/-! SUPPORT. The fields of a word put together from fields (R91), and what selecting a row means field by field (R94). -/

namespace Sys2Proof

variable (op a : BitVec 8) (b : BitVec 16) (imm : Word)

theorem commandWord_getLsbD (i : Nat) : (commandWord op a b imm).getLsbD i =
    if i < 32 then imm.getLsbD i else if i < 48 then b.getLsbD (i - 32)
    else if i < 56 then a.getLsbD (i - 48) else op.getLsbD (i - 56) := by
  show BitVec.getLsbD (((op ++ a) ++ b) ++ imm) i = _
  rw [BitVec.getLsbD_append, BitVec.getLsbD_append, BitVec.getLsbD_append]
  by_cases h1 : i < 32
  · simp [h1]
  · by_cases h2 : i < 48
    · have : i - 32 < 16 := by omega
      simp [h1, h2, this]
    · by_cases h3 : i < 56
      · have h4 : ¬(i - 32 < 16) := by omega
        have h5 : i - 48 < 8 := by omega
        have h6 : i - 32 - 16 = i - 48 := by omega
        simp only [h1, h2, h3, h4, h5, if_false, if_true, h6]
      · have h4 : ¬(i - 32 < 16) := by omega
        have h5 : ¬(i - 32 - 16 < 8) := by omega
        have h6 : i - 32 - 16 - 8 = i - 56 := by omega
        simp only [h1, h2, h3, h4, h5, if_false, h6]

@[simp] theorem opField_commandWord : opField (commandWord op a b imm) = op := by
  apply BitVec.eq_of_getLsbD_eq
  intro i hi
  have h1 : ¬(56 + i < 32) := by omega
  have h2 : ¬(56 + i < 48) := by omega
  have h3 : ¬(56 + i < 56) := by omega
  have e : 56 + i - 56 = i := by omega
  simp only [opField, BitVec.getLsbD_extractLsb', commandWord_getLsbD, hi, h1, h2, h3, e, if_false, decide_true,
    Bool.true_and]

@[simp] theorem aField_commandWord : aField (commandWord op a b imm) = a := by
  apply BitVec.eq_of_getLsbD_eq
  intro i hi
  have h1 : ¬(48 + i < 32) := by omega
  have h2 : ¬(48 + i < 48) := by omega
  have h3 : 48 + i < 56 := by omega
  have e : 48 + i - 48 = i := by omega
  simp only [aField, BitVec.getLsbD_extractLsb', commandWord_getLsbD, hi, h1, h2, h3, e, if_false, if_true, decide_true,
    Bool.true_and]

@[simp] theorem bField_commandWord : bField (commandWord op a b imm) = b := by
  apply BitVec.eq_of_getLsbD_eq
  intro i hi
  have h1 : ¬(32 + i < 32) := by omega
  have h2 : 32 + i < 48 := by omega
  have e : 32 + i - 32 = i := by omega
  simp only [bField, BitVec.getLsbD_extractLsb', commandWord_getLsbD, hi, h1, h2, e, if_false, if_true, decide_true,
    Bool.true_and]

@[simp] theorem immField_commandWord : immField (commandWord op a b imm) = imm := by
  apply BitVec.eq_of_getLsbD_eq
  intro i hi
  have h1 : 0 + i < 32 := by omega
  have e : 0 + i = i := by omega
  simp only [immField, BitVec.getLsbD_extractLsb', commandWord_getLsbD, hi, e, if_true, decide_true, Bool.true_and]

/-- A word is its four fields. -/
theorem commandWord_fields (w : CommandWord) : commandWord (opField w) (aField w) (bField w) (immField w) = w := by
  apply BitVec.eq_of_getLsbD_eq
  intro i hi
  rw [commandWord_getLsbD]
  simp only [opField, aField, bField, immField, BitVec.getLsbD_extractLsb']
  split_ifs with h1 h2 h3
  · simp [h1]
  · have h : i - 32 < 16 := by omega
    have e : 32 + (i - 32) = i := by omega
    simp [h, e]
  · have h : i - 48 < 8 := by omega
    have e : 48 + (i - 48) = i := by omega
    simp [h, e]
  · have h : i - 56 < 8 := by omega
    have e : 56 + (i - 56) = i := by omega
    simp [h, e]

theorem commandWord_inj {op' a' : BitVec 8} {b' : BitVec 16} {imm' : Word} :
    commandWord op a b imm = commandWord op' a' b' imm' ↔ op = op' ∧ a = a' ∧ b = b' ∧ imm = imm' := by
  constructor
  · intro h
    exact ⟨by simpa using congrArg opField h, by simpa using congrArg aField h, by simpa using congrArg bField h,
      by simpa using congrArg immField h⟩
  · rintro ⟨rfl, rfl, rfl, rfl⟩
    rfl

/-- The number of a word is the sum R91 gives. -/
theorem commandWord_toNat : (commandWord op a b imm).toNat =
    op.toNat * 2 ^ 56 + a.toNat * 2 ^ 48 + b.toNat * 2 ^ 32 + imm.toNat := by
  show BitVec.toNat (((op ++ a) ++ b) ++ imm) = _
  rw [BitVec.toNat_append, BitVec.toNat_append, BitVec.toNat_append]
  rw [← Nat.shiftLeft_add_eq_or_of_lt a.isLt, ← Nat.shiftLeft_add_eq_or_of_lt b.isLt,
    ← Nat.shiftLeft_add_eq_or_of_lt imm.isLt]
  simp only [Nat.shiftLeft_eq]
  ring

theorem commandWord_and {op' a' : BitVec 8} {b' : BitVec 16} {imm' : Word} :
    commandWord op a b imm &&& commandWord op' a' b' imm' =
      commandWord (op &&& op') (a &&& a') (b &&& b') (imm &&& imm') := by
  apply BitVec.eq_of_getLsbD_eq
  intro i hi
  simp only [BitVec.getLsbD_and, commandWord_getLsbD]
  split_ifs <;> rfl

theorem byteField_iff (b : BitVec 16) : byteField b = true ↔ b &&& 0xFF00#16 = 0 := by
  unfold byteField
  rw [beq_iff_eq]
  constructor
  · intro h
    apply BitVec.eq_of_getLsbD_eq
    intro i hi
    by_cases h8 : i < 8
    · have : (0xFF00#16).getLsbD i = false := by interval_cases i <;> rfl
      simp [this]
    · have e := congrArg (fun v => v.getLsbD (i - 8)) h
      have hlt : i - 8 < 8 := by omega
      have ea : 8 + (i - 8) = i := by omega
      simp only [BitVec.getLsbD_extractLsb', hlt, ea, decide_true, Bool.true_and] at e
      simp [e]
  · intro h
    apply BitVec.eq_of_getLsbD_eq
    intro i hi
    have e := congrArg (fun v => v.getLsbD (8 + i)) h
    have : (0xFF00#16).getLsbD (8 + i) = true := by interval_cases i <;> rfl
    simp only [BitVec.getLsbD_and, this, Bool.and_true] at e
    simpa [hi] using e

/-- Selecting a row is having its opcode and zero in every unused field (R94). -/
theorem Row.selects_iff (r : Row) (w : CommandWord) :
    r.selects w = true ↔ opField w = r.op ∧ r.unusedZero w = true := by
  have hw := commandWord_fields w
  rw [Row.selects, beq_iff_eq]
  conv_lhs => rw [← hw]
  rw [Row.mask, Row.pattern, commandWord_and, commandWord_inj]
  have hop : opField w &&& 0xFF#8 = opField w := BitVec.and_allOnes (x := opField w)
  rw [hop]
  apply and_congr_right
  intro _
  rw [Row.unusedZero]
  obtain ⟨mn, op, au, bu, iu, build⟩ := r
  have ha : aField w &&& 0xFF#8 = aField w := BitVec.and_allOnes (x := aField w)
  have hb : bField w &&& 0xFFFF#16 = bField w := BitVec.and_allOnes (x := bField w)
  have hi : immField w &&& 0xFFFFFFFF#32 = immField w := BitVec.and_allOnes (x := immField w)
  cases au <;> cases bu <;> cases iu <;> simp [ha, hb, hi, byteField_iff, and_assoc]

/-- No two rows share an opcode (R95). -/
theorem commandTable_op_inj : ∀ q ∈ commandTable, ∀ r ∈ commandTable, q.op = r.op → q = r := by
  have hn : (commandTable.map Row.op).Nodup := by decide
  intro q hq r hr h
  exact List.inj_on_of_nodup_map hn hq hr h

/-- Decoding is selection of a row, and the row builds the command from the word's fields (R93). -/
theorem decode_ok_iff (w : CommandWord) (i : Instr) :
    decode w = .ok i ↔ ∃ r ∈ commandTable, r.op = opField w ∧ r.unusedZero w = true ∧
      i = r.build (aField w) (bField w) (immField w) := by
  unfold decode
  cases h : commandTable.find? (fun r => r.op == opField w) with
  | none =>
    rw [List.find?_eq_none] at h
    constructor
    · intro h'; cases h'
    · rintro ⟨r, hr, ho, _⟩
      exact absurd (by simpa using ho) (h r hr)
  | some r =>
    have hm := List.mem_of_find?_eq_some h
    have ho : r.op = opField w := by simpa using List.find?_some h
    constructor
    · intro h'
      refine ⟨r, hm, ho, ?_⟩
      by_cases hu : r.unusedZero w = true
      · simp only [hu, if_true, Except.ok.injEq] at h'
        exact ⟨hu, h'.symm⟩
      · simp [hu] at h'
    · rintro ⟨q, hq, hqo, hu, rfl⟩
      have : q = r := commandTable_op_inj q hq r hm (hqo.trans ho.symm)
      subst this
      simp [hu]

end Sys2Proof
end

