-- ==== Sys2Proof/Laws/PerInstr.lean ====
section
/-! SUPPORT. One lemma per command about its word (R94, R95): the family `OwnRow`. -/

namespace Sys2Proof.Laws.OwnRow

/-- The word of a well-formed command selects a row of the opcode table with the command's mnemonic (R94, R95). -/
def Statement (i : Instr) : Prop :=
  i.wellFormed = true → ∃ r ∈ commandTable, r.mnemonic = i.mnemonic ∧ r.selects (encode i) = true

/-- The row that is the command's, with its opcode and its unused fields zero. -/
theorem of_row (i : Instr) (r : Row) (hr : r ∈ commandTable) (hm : r.mnemonic = i.mnemonic)
    (ho : opField (encode i) = r.op) (hz : i.wellFormed = true → r.unusedZero (encode i) = true) : Statement i :=
  fun h => ⟨r, hr, hm, (Row.selects_iff r _).mpr ⟨ho, hz h⟩⟩

theorem wrr (reg : BitVec 8) (value : Word) : Statement (.wrr reg value) :=
  of_row _ ⟨"WRR", 0x01, true, .zero, true, fun a _ imm => .wrr a imm⟩ (by simp [commandTable, hostAccessRows, bitPackerRows, streamRows])
    rfl (by simp [encode]) (by simp [Row.unusedZero, encode, Instr.wellFormed])

theorem rdr (reg : BitVec 8) : Statement (.rdr reg) :=
  of_row _ ⟨"RDR", 0x02, true, .zero, false, fun a _ _ => .rdr a⟩ (by simp [commandTable, hostAccessRows, bitPackerRows, streamRows])
    rfl (by simp [encode]) (by simp [Row.unusedZero, encode, Instr.wellFormed])

theorem stc (index : Word) (unit : BitVec 16) : Statement (.stc index unit) :=
  of_row _ ⟨"STC", 0x03, false, .whole, true, fun _ b imm => .stc imm b⟩ (by simp [commandTable, hostAccessRows, bitPackerRows, streamRows])
    rfl (by simp [encode]) (by simp [Row.unusedZero, encode, Instr.wellFormed])

theorem ldc (index : Word) : Statement (.ldc index) :=
  of_row _ ⟨"LDC", 0x04, false, .zero, true, fun _ _ imm => .ldc imm⟩ (by simp [commandTable, hostAccessRows, bitPackerRows, streamRows])
    rfl (by simp [encode]) (by simp [Row.unusedZero, encode, Instr.wellFormed])

theorem std (index : Word) (b : BitVec 16) : Statement (.std index b) :=
  of_row _ ⟨"STD", 0x05, false, .byte, true, fun _ b imm => .std imm b⟩ (by simp [commandTable, hostAccessRows, bitPackerRows, streamRows])
    rfl (by simp [encode]) (by simp [Row.unusedZero, encode, Instr.wellFormed])

theorem ldd (index : Word) : Statement (.ldd index) :=
  of_row _ ⟨"LDD", 0x06, false, .zero, true, fun _ _ imm => .ldd imm⟩ (by simp [commandTable, hostAccessRows, bitPackerRows, streamRows])
    rfl (by simp [encode]) (by simp [Row.unusedZero, encode, Instr.wellFormed])

theorem stk (index : Word) (b : BitVec 16) : Statement (.stk index b) :=
  of_row _ ⟨"STK", 0x07, false, .byte, true, fun _ b imm => .stk imm b⟩ (by simp [commandTable, hostAccessRows, bitPackerRows, streamRows])
    rfl (by simp [encode]) (by simp [Row.unusedZero, encode, Instr.wellFormed])

theorem ldk (index : Word) : Statement (.ldk index) :=
  of_row _ ⟨"LDK", 0x08, false, .zero, true, fun _ _ imm => .ldk imm⟩ (by simp [commandTable, hostAccessRows, bitPackerRows, streamRows])
    rfl (by simp [encode]) (by simp [Row.unusedZero, encode, Instr.wellFormed])

theorem stt (index : Word) (b : BitVec 16) : Statement (.stt index b) :=
  of_row _ ⟨"STT", 0x09, false, .byte, true, fun _ b imm => .stt imm b⟩ (by simp [commandTable, hostAccessRows, bitPackerRows, streamRows])
    rfl (by simp [encode]) (by simp [Row.unusedZero, encode, Instr.wellFormed])

theorem ldt (index : Word) : Statement (.ldt index) :=
  of_row _ ⟨"LDT", 0x0A, false, .zero, true, fun _ _ imm => .ldt imm⟩ (by simp [commandTable, hostAccessRows, bitPackerRows, streamRows])
    rfl (by simp [encode]) (by simp [Row.unusedZero, encode, Instr.wellFormed])

theorem bqclr : Statement (.bqclr) :=
  of_row _ ⟨"BQCLR", 0x10, false, .zero, false, fun _ _ _ => .bqclr⟩ (by simp [commandTable, hostAccessRows, bitPackerRows, streamRows])
    rfl (by simp [encode]) (by simp [Row.unusedZero, encode, Instr.wellFormed])

theorem pushb (b : BitVec 16) : Statement (.pushb b) :=
  of_row _ ⟨"PUSHB", 0x11, false, .byte, false, fun _ b _ => .pushb b⟩ (by simp [commandTable, hostAccessRows, bitPackerRows, streamRows])
    rfl (by simp [encode]) (by simp [Row.unusedZero, encode, Instr.wellFormed])

theorem popb : Statement (.popb) :=
  of_row _ ⟨"POPB", 0x12, false, .zero, false, fun _ _ _ => .popb⟩ (by simp [commandTable, hostAccessRows, bitPackerRows, streamRows])
    rfl (by simp [encode]) (by simp [Row.unusedZero, encode, Instr.wellFormed])

theorem pushv (k : BitVec 8) (value : Word) : Statement (.pushv k value) :=
  of_row _ ⟨"PUSHV", 0x13, true, .zero, true, fun a _ imm => .pushv a imm⟩ (by simp [commandTable, hostAccessRows, bitPackerRows, streamRows])
    rfl (by simp [encode]) (by simp [Row.unusedZero, encode, Instr.wellFormed])

theorem popv (k : BitVec 8) : Statement (.popv k) :=
  of_row _ ⟨"POPV", 0x14, true, .zero, false, fun a _ _ => .popv a⟩ (by simp [commandTable, hostAccessRows, bitPackerRows, streamRows])
    rfl (by simp [encode]) (by simp [Row.unusedZero, encode, Instr.wellFormed])

theorem pack (k : BitVec 8) (index : Word) : Statement (.pack k index) :=
  of_row _ ⟨"PACK", 0x15, true, .zero, true, fun a _ imm => .pack a imm⟩ (by simp [commandTable, hostAccessRows, bitPackerRows, streamRows])
    rfl (by simp [encode]) (by simp [Row.unusedZero, encode, Instr.wellFormed])

theorem unpack (k : BitVec 8) (index : Word) : Statement (.unpack k index) :=
  of_row _ ⟨"UNPACK", 0x16, true, .zero, true, fun a _ imm => .unpack a imm⟩ (by simp [commandTable, hostAccessRows, bitPackerRows, streamRows])
    rfl (by simp [encode]) (by simp [Row.unusedZero, encode, Instr.wellFormed])

theorem dseed : Statement (.dseed) :=
  of_row _ ⟨"DSEED", 0x20, false, .zero, false, fun _ _ _ => .dseed⟩ (by simp [commandTable, hostAccessRows, bitPackerRows, streamRows])
    rfl (by simp [encode]) (by simp [Row.unusedZero, encode, Instr.wellFormed])

theorem seedacc (cp : Word) : Statement (.seedacc cp) :=
  of_row _ ⟨"SEEDACC", 0x21, false, .zero, true, fun _ _ imm => .seedacc imm⟩ (by simp [commandTable, hostAccessRows, bitPackerRows, streamRows])
    rfl (by simp [encode]) (by simp [Row.unusedZero, encode, Instr.wellFormed])

theorem enc : Statement (.enc) :=
  of_row _ ⟨"ENC", 0x22, false, .zero, false, fun _ _ _ => .enc⟩ (by simp [commandTable, hostAccessRows, bitPackerRows, streamRows])
    rfl (by simp [encode]) (by simp [Row.unusedZero, encode, Instr.wellFormed])

theorem dec : Statement (.dec) :=
  of_row _ ⟨"DEC", 0x23, false, .zero, false, fun _ _ _ => .dec⟩ (by simp [commandTable, hostAccessRows, bitPackerRows, streamRows])
    rfl (by simp [encode]) (by simp [Row.unusedZero, encode, Instr.wellFormed])

theorem cstart : Statement (.cstart) :=
  of_row _ ⟨"CSTART", 0x30, false, .zero, false, fun _ _ _ => .cstart⟩ (by simp [commandTable, hostAccessRows, bitPackerRows, streamRows])
    rfl (by simp [encode]) (by simp [Row.unusedZero, encode, Instr.wellFormed])

theorem draw (n : Word) : Statement (.draw n) :=
  of_row _ ⟨"DRAW", 0x31, false, .zero, true, fun _ _ imm => .draw imm⟩ (by simp [commandTable, hostAccessRows, bitPackerRows, streamRows])
    rfl (by simp [encode]) (by simp [Row.unusedZero, encode, Instr.wellFormed])

theorem embed : Statement (.embed) :=
  of_row _ ⟨"EMBED", 0x40, false, .zero, false, fun _ _ _ => .embed⟩ (by simp [commandTable, hostAccessRows, bitPackerRows, streamRows])
    rfl (by simp [encode]) (by simp [Row.unusedZero, encode, Instr.wellFormed])

theorem extract : Statement (.extract) :=
  of_row _ ⟨"EXTRACT", 0x41, false, .zero, false, fun _ _ _ => .extract⟩ (by simp [commandTable, hostAccessRows, bitPackerRows, streamRows])
    rfl (by simp [encode]) (by simp [Row.unusedZero, encode, Instr.wellFormed])

end Sys2Proof.Laws.OwnRow
end

