-- ==== Sys2Proof/Laws/Run.lean ====
section
/-! SUPPORT. A step and a run taken apart: how `exec` answers the command port (R18), what a step can be, and a run as
its first step and the rest (R19). -/

namespace Sys2Proof.Machine

/-- `exec` answers one response and leaves the waiting words and the configuration (R18, R250). -/
theorem exec_answers (i : Instr) (s : State) :
    ∃ t r, exec i s = .next t ∧ t.cmds = s.cmds ∧ t.rsps = s.rsps ++ [r] ∧ t.cfg = s.cfg ∧
      (r.status ≠ .ok → r.value = 0) := by
  rcases exec_cases i s with ⟨c, _, he⟩ | ⟨v, t, hE, he⟩
  · exact ⟨_, ⟨c, 0⟩, he, rfl, rfl, rfl, fun _ => rfl⟩
  · obtain ⟨h1, h2, h3⟩ := hE.keeps_ports
    exact ⟨_, ⟨.ok, v⟩, he, by simp [h2], by simp [h3], by simp [h1], by simp⟩

/-- A word that is no command fails with `ILLEGAL_COMMAND`, whichever test of R93 refused it. -/
theorem rejectWord_eq (e : DecodeError) (s : State) : rejectWord e s = raise .illegalCommand s := by
  cases e <;> rfl

/-- Everything a step can be: idle, a command, or a word that is no command. -/
theorem step_cases (s : State) :
    (s.cmds = [] ∧ step s = .next s) ∨
    (∃ w rest i, s.cmds = w :: rest ∧ decode w = .ok i ∧ step s = exec i { s with cmds := rest }) ∨
    ∃ w rest e, s.cmds = w :: rest ∧ decode w = .error e ∧ step s = raise .illegalCommand { s with cmds := rest } := by
  cases hc : s.cmds with
  | nil => exact .inl ⟨rfl, by simp [step, fetch, hc]⟩
  | cons w rest =>
    cases hd : decode w with
    | ok i => exact .inr (.inl ⟨w, rest, i, rfl, hd, by simp [step, fetch, hc, hd]⟩)
    | error e => exact .inr (.inr ⟨w, rest, e, rfl, hd, by simp [step, fetch, hc, hd, rejectWord_eq]⟩)

theorem runs_zero (s t : State) : Runs 0 s t ↔ s = t := by
  constructor
  · intro h; exact Host.Outcome.next.inj h
  · rintro rfl; rfl

theorem run_succ (M : Host.Core) (n : Nat) (s t : M.State) :
    M.run (n + 1) s = .next t ↔ ∃ u, M.step s = .next u ∧ M.run n u = .next t := by
  rw [Host.Core.run]
  cases M.step s <;> simp

theorem runs_succ (n : Nat) (s t : State) : Runs (n + 1) s t ↔ ∃ u, step s = .next u ∧ Runs n u t :=
  run_succ Sys2Proof.core n s t

/-- A run of `m + n` steps is one of `m` steps and then one of `n`. -/
theorem runs_add (m n : Nat) (s t : State) : Runs (m + n) s t ↔ ∃ u, Runs m s u ∧ Runs n u t := by
  induction m generalizing s with
  | zero => simp [runs_zero]
  | succ m ih =>
    rw [Nat.add_right_comm, runs_succ]
    simp only [runs_succ, ih]
    constructor
    · rintro ⟨u, hu, v, hv, ht⟩; exact ⟨v, ⟨u, hu, hv⟩, ht⟩
    · rintro ⟨v, ⟨u, hu, hv⟩, ht⟩; exact ⟨u, hu, v, hv, ht⟩

end Sys2Proof.Machine
end

