-- ==== Sys2Proof/Tests/Slice0.lean ====
section
/-! SUPPORT. Tests: the decoder on words written out from R91 and R95, commands against the vectors of
95_test_vectors.md (their ids are cited), and for every statement with hypotheses a state and operands that meet them,
with each clause at the ends of its range. -/

namespace Sys2Proof.Tests

open Sys2Proof Sys2Proof.Machine Sys2Proof.Spec

/-! ## Helpers -/

/-- The next state, where there is one. -/
def stateOf (r : Result) : Option State :=
  match r with
  | .next t => some t
  | .fault _ => none
  | .refused _ => none

/-- Profile `BYTE` with the sizes of the vectors, after reset. -/
def base : State := State.reset

/-- Profile `SAMPLE` with the same sizes, after reset. -/
def sample : State := State.afterReset (Config.sampleProfile 4096 1024 64) [] [] [] []

/-- A queue of `n` bits, all 1. -/
def queued (n : Nat) : State := { base with bq := List.replicate n true }

/-- The response of a command run from a state. -/
def responseOf (i : Instr) (s : State) : Option Response := (stateOf (exec i s)).bind (fun t => t.rsps.getLast?)

/-- A value of the next state of a command. -/
def seen {α : Type} (f : State → α) (i : Instr) (s : State) : Option α := (stateOf (exec i s)).map f

/-- Every response of a list of commands run from one state is the one given. -/
def answersAll (s : State) (l : List (Instr × Status × Word)) : Bool :=
  l.all (fun x => responseOf x.1 s == some ⟨x.2.1, x.2.2⟩)

/-- Every command of the list fails from `s` with `c`. -/
def allFail (s : State) (c : Status) (l : List Instr) : Bool := l.all (fun i => responseOf i s == some ⟨c, 0⟩)

/-- Every command of the list answers `OK` from `s`. -/
def allOk (s : State) (l : List Instr) : Bool :=
  l.all (fun i => (responseOf i s).map Response.status == some .ok)

/-! ## WellFormed: an ill-formed term for each check (R94) -/

theorem test_std_wide_byte_ill_formed :
    (Instr.std 0 0x0168).wellFormed = false ∧ (Instr.std 0 0x0068).wellFormed = true := by decide

theorem test_stk_wide_byte_ill_formed :
    (Instr.stk 0 0x8000).wellFormed = false ∧ (Instr.stk 0 0x00FF).wellFormed = true := by decide

theorem test_stt_wide_byte_ill_formed :
    (Instr.stt 9 0x0100).wellFormed = false ∧ (Instr.stt 9 0x0074).wellFormed = true := by decide

theorem test_pushb_wide_byte_ill_formed :
    (Instr.pushb 0xFF00).wellFormed = false ∧ (Instr.pushb 0x00FF).wellFormed = true := by decide

/-! ## Decoding: words put together from R91 and R95, field by field -/

theorem test_decode_wrr : decode (0x01#8 ++ 0x02#8 ++ 0x0000#16 ++ 0x000003E8#32) = .ok (.wrr 2 1000) := by
  decide +kernel
theorem test_decode_rdr : decode (0x02#8 ++ 0x0A#8 ++ 0x0000#16 ++ 0x00000000#32) = .ok (.rdr 10) := by decide +kernel
theorem test_decode_stc : decode (0x03#8 ++ 0x00#8 ++ 0x80FF#16 ++ 0x00000023#32) = .ok (.stc 35 0x80FF) := by
  decide +kernel
theorem test_decode_ldc : decode (0x04#8 ++ 0x00#8 ++ 0x0000#16 ++ 0xFFFFFFFF#32) = .ok (.ldc 0xFFFFFFFF) := by
  decide +kernel
theorem test_decode_std : decode (0x05#8 ++ 0x00#8 ++ 0x0068#16 ++ 0x00000001#32) = .ok (.std 1 0x68) := by
  decide +kernel
theorem test_decode_ldd : decode (0x06#8 ++ 0x00#8 ++ 0x0000#16 ++ 0x00000001#32) = .ok (.ldd 1) := by decide +kernel
theorem test_decode_stk : decode (0x07#8 ++ 0x00#8 ++ 0x006B#16 ++ 0x00000002#32) = .ok (.stk 2 0x6B) := by
  decide +kernel
theorem test_decode_ldk : decode (0x08#8 ++ 0x00#8 ++ 0x0000#16 ++ 0x00000040#32) = .ok (.ldk 64) := by decide +kernel
theorem test_decode_stt : decode (0x09#8 ++ 0x00#8 ++ 0x0074#16 ++ 0x00000009#32) = .ok (.stt 9 0x74) := by
  decide +kernel
theorem test_decode_ldt : decode (0x0A#8 ++ 0x00#8 ++ 0x0000#16 ++ 0x00000009#32) = .ok (.ldt 9) := by decide +kernel
theorem test_decode_bqclr : decode (0x10#8 ++ 0x00#8 ++ 0x0000#16 ++ 0x00000000#32) = .ok .bqclr := by decide +kernel
theorem test_decode_pushb : decode (0x11#8 ++ 0x00#8 ++ 0x0074#16 ++ 0x00000000#32) = .ok (.pushb 0x74) := by
  decide +kernel
theorem test_decode_popb : decode (0x12#8 ++ 0x00#8 ++ 0x0000#16 ++ 0x00000000#32) = .ok .popb := by decide +kernel
theorem test_decode_pushv : decode (0x13#8 ++ 0x20#8 ++ 0x0000#16 ++ 0x00000061#32) = .ok (.pushv 32 97) := by
  decide +kernel
theorem test_decode_popv : decode (0x14#8 ++ 0x06#8 ++ 0x0000#16 ++ 0x00000000#32) = .ok (.popv 6) := by decide +kernel
theorem test_decode_pack : decode (0x15#8 ++ 0x02#8 ++ 0x0000#16 ++ 0x00000023#32) = .ok (.pack 2 35) := by
  decide +kernel
theorem test_decode_unpack : decode (0x16#8 ++ 0x04#8 ++ 0x0000#16 ++ 0x00000028#32) = .ok (.unpack 4 40) := by
  decide +kernel
theorem test_decode_dseed : decode (0x20#8 ++ 0x00#8 ++ 0x0000#16 ++ 0x00000000#32) = .ok .dseed := by decide +kernel
theorem test_decode_seedacc : decode (0x21#8 ++ 0x00#8 ++ 0x0000#16 ++ 0x000020AC#32) = .ok (.seedacc 0x20AC) := by
  decide +kernel
theorem test_decode_enc : decode (0x22#8 ++ 0x00#8 ++ 0x0000#16 ++ 0x00000000#32) = .ok .enc := by decide +kernel
theorem test_decode_dec : decode (0x23#8 ++ 0x00#8 ++ 0x0000#16 ++ 0x00000000#32) = .ok .dec := by decide +kernel
theorem test_decode_cstart : decode (0x30#8 ++ 0x00#8 ++ 0x0000#16 ++ 0x00000000#32) = .ok .cstart := by decide +kernel
theorem test_decode_draw : decode (0x31#8 ++ 0x00#8 ++ 0x0000#16 ++ 0x00000394#32) = .ok (.draw 916) := by
  decide +kernel
theorem test_decode_embed : decode (0x40#8 ++ 0x00#8 ++ 0x0000#16 ++ 0x00000000#32) = .ok .embed := by decide +kernel
theorem test_decode_extract : decode (0x41#8 ++ 0x00#8 ++ 0x0000#16 ++ 0x00000000#32) = .ok .extract := by
  decide +kernel

/-- V30.1 to V30.5: unassigned opcodes. -/
theorem test_decode_unassigned :
    ([0x0000000000000000#64, 0xFFFFFFFFFFFFFFFF#64, 0x0B00000000000000#64, 0x1700000000000000#64,
      0x4200000000000000#64].all (fun w => decide (decode w = .error .unassignedOpcode))) = true := by decide +kernel

/-- V30.6 to V30.12: a field the command does not use is not zero. -/
theorem test_decode_nonzero_unused :
    ([0x4000000000000001#64, 0x4001000000000000#64, 0x1000000100000000#64, 0x0500016800000000#64, 0x0201000000000001#64,
      0x0101000100000002#64, 0x1100007400000001#64].all
        (fun w => decide (decode w = .error .nonzeroUnusedField))) = true := by decide +kernel

/-- R102, the assembler form of three commands. -/
theorem test_assembler :
    assembler (.stc 35 255) = "STC [35], 255" ∧ assembler (.wrr 2 1000) = "WRR CAP, 1000" ∧
      assembler .embed = "EMBED" := by decide +kernel

/-! ## The step -/

/-- R104, R121: the first command after reset. -/
theorem test_first_step_after_reset :
    stateOf (step (State.reset.withFetchWord 64 0x01020000000003E8)) =
      some { State.reset with cap := 1000, rsps := [⟨.ok, 0⟩] } := by decide +kernel

/-- V30.1: an illegal word as the first after reset. -/
theorem test_illegal_first_step :
    stateOf (step (State.reset.withFetchWord 64 0)) =
      some { State.reset with err := 0x40, rsps := [⟨.illegalCommand, 0⟩] } := by decide +kernel

/-- R90: the table word is the command word. -/
theorem test_decode_table_word :
    decodeTableWord 64 0x1502000000000023 = some (.pack 2 35) ∧ decodeTableWord 64 0x0B00000000000000 = none := by
  decide +kernel

/-- R92: the response port's word. -/
theorem test_response_word : (Response.mk .bqFault 0).word = 0x800000000#36 ∧
    (Response.mk .ok 0xFFFFFFFF).word = 0x0FFFFFFFF#36 := by decide

/-! ## Family 40 -/

/-- V40.1 to V40.4. -/
theorem test_wrr : seen State.m (.wrr 1 2) base = some 2 ∧ seen State.ctrl (.wrr 0 0xFFFFFFFF) base = some 3 ∧
    seen State.m (.wrr 1 0xFFFFFFFF) base = some 0xFFFFFFFF ∧
    seen State.err (.wrr 10 0xFFFFFFFF) base = some 0x1FE := by decide +kernel

/-- V30.14 to V30.16, V40.8: the ends of the register numbers that WRR and RDR refuse and take. -/
theorem test_register_numbers :
    allFail base .illegalCommand [.wrr 8 5, .wrr 9 1, .wrr 11 0, .wrr 255 0, .rdr 11, .rdr 255] = true ∧
      allOk base [.wrr 0 0, .wrr 7 0, .wrr 10 0, .rdr 0, .rdr 8, .rdr 9, .rdr 10] = true := by decide +kernel

/-- V41.2, V40.6: RDR of the queue's views and of M. -/
theorem test_rdr :
    answersAll { base with m := 0xFFFFFFFF, bq := [true, true, false, true, false, false] }
      [(.rdr 1, .ok, 0xFFFFFFFF), (.rdr 8, .ok, 0x34), (.rdr 9, .ok, 6)] = true := by decide +kernel

/-- V40.11, V40.12, V40.14, V40.15. -/
theorem test_stc :
    seen State.cover (.stc 4095 0xFF) base = some [(4095, 0xFF)] ∧ allFail base .range [.stc 4096 1, .stc 0 0x100] = true ∧
      seen State.cover (.stc 0 0xFFFF) sample = some [(0, 0xFFFF)] := by decide +kernel

/-- V40.10, V40.13, V40.16. -/
theorem test_ldc :
    answersAll { base with cover := [(0, 0x55)] } [(.ldc 0, .ok, 0x55), (.ldc 0xFFFFFFFF, .range, 0),
      (.ldc 4095, .ok, 0), (.ldc 4096, .range, 0)] = true := by decide +kernel

/-- V40.17, V40.19. -/
theorem test_std : seen State.data (.std 1 0x69) base = some [(1, 0x69)] ∧ allFail base .range [.std 1024 0] = true ∧
    allOk base [.std 1023 0] = true := by decide +kernel

/-- V40.18. -/
theorem test_ldd : answersAll { base with data := [(1, 0x69)] } [(.ldd 1, .ok, 0x69), (.ldd 1023, .ok, 0),
    (.ldd 1024, .range, 0)] = true := by decide +kernel

/-- V40.20. -/
theorem test_stk : seen State.key (.stk 0 0x6B) base = some [(0, 0x6B)] ∧ allFail base .range [.stk 64 0] = true ∧
    allOk base [.stk 63 0] = true := by decide +kernel

/-- V40.21, V40.22. -/
theorem test_ldk : answersAll { base with key := [(0, 0x6B)] } [(.ldk 0, .ok, 0x6B), (.ldk 63, .ok, 0),
    (.ldk 64, .range, 0)] = true := by decide +kernel

/-- V40.23, V40.25. -/
theorem test_stt : seen State.tag (.stt 9 0x74) base = some [(9, 0x74)] ∧ allFail base .range [.stt 10 0x74] = true := by
  decide +kernel

/-- V40.24. -/
theorem test_ldt : answersAll { base with tag := [(9, 0x74)] } [(.ldt 9, .ok, 0x74), (.ldt 10, .range, 0)] = true := by
  decide +kernel

/-! ## Family 41 -/

/-- V41.30. -/
theorem test_bqclr : seen State.bq .bqclr (queued 24) = some [] := by decide +kernel

/-- V41.1, V41.11, and the last queue that has room. -/
theorem test_pushb :
    seen State.bq (.pushb 0x74) base = some [false, true, true, true, false, true, false, false] ∧
      allOk (queued 24) [.pushb 0xFF] = true ∧ allFail (queued 25) .bqFault [.pushb 0xFF] = true ∧
      allFail (queued 32) .bqFault [.pushb 0xFF] = true := by decide +kernel

/-- V41.29, V41.5. -/
theorem test_popb :
    answersAll { base with bq := bitList 32 0xABCDEF01 } [(.popb, .ok, 0xAB)] = true ∧
      seen State.bq .popb { base with bq := bitList 32 0xABCDEF01 } = some (bitList 24 0xCDEF01) ∧
      allFail (queued 7) .malformedPayload [.popb] = true ∧ answersAll (queued 8) [(.popb, .ok, 0xFF)] = true := by
  decide +kernel

/-- V41.8, V41.10. -/
theorem test_pushv :
    seen State.bq (.pushv 3 5) { base with bq := [true, false, false] } = some (bitList 6 0x25) ∧
      seen State.bq (.pushv 32 97) base = some (bitList 32 97) := by decide +kernel

/-- V41.12, V41.16 to V41.18, and the ends of the count and of the room. -/
theorem test_pushv_errors :
    allFail base .range [.pushv 0 0, .pushv 33 0, .pushv 255 0, .pushv 1 2, .pushv 2 4] = true ∧
      allFail (queued 32) .bqFault [.pushv 1 0] = true ∧ allFail (queued 1) .bqFault [.pushv 32 0] = true ∧
      allOk base [.pushv 1 1, .pushv 32 0xFFFFFFFF] = true ∧ allOk (queued 31) [.pushv 1 1] = true := by decide +kernel

/-- V41.9, V41.14, V41.15, V41.19, and the ends of the count. -/
theorem test_popv :
    answersAll { base with bq := bitList 6 0x25 } [(.popv 6, .ok, 0x25), (.popv 7, .bqFault, 0), (.popv 0, .range, 0),
      (.popv 33, .range, 0), (.popv 1, .ok, 1)] = true ∧
      answersAll { base with bq := bitList 32 0x61 } [(.popv 32, .ok, 0x61)] = true := by decide +kernel

/-- V41.2 and V41.32. -/
theorem test_pack :
    seen State.cover (.pack 2 35) { base with bq := bitList 8 0x74, cover := [(35, 0xFF)] } = some [(35, 0xFD)] ∧
      seen State.cover (.pack 16 0) { sample with bq := bitList 16 0x7FFE, cover := [(0, 0x8001)] } =
        some [(0, 0x7FFE)] := by decide +kernel

/-- V41.4, V41.6, V41.7, V41.23, V41.35: each check, and the ends of the count, the index and the queue. -/
theorem test_pack_errors :
    allFail (queued 3) .invalidParameterM [.pack 5 36, .pack 0 36, .pack 0 4096] = true ∧
      allFail (queued 3) .range [.pack 4 4096] = true ∧ allFail (queued 3) .bqFault [.pack 4 36] = true ∧
      allOk (queued 4) [.pack 4 36, .pack 1 4095] = true ∧
      allFail sample .invalidParameterM [.pack 17 1] = true := by decide +kernel

/-- V41.20, V41.36. -/
theorem test_unpack :
    seen State.bq (.unpack 4 40) { base with cover := [(40, 0xB6)] } = some [false, true, true, false] ∧
      seen State.bq (.unpack 5 1) { sample with cover := [(1, 0xFFFE)] } = some [true, true, true, true, false] := by
  decide +kernel

/-- V41.13, V41.24, V41.37: each check, and the ends of the count, the index and the queue. -/
theorem test_unpack_errors :
    allFail (queued 32) .invalidParameterM [.unpack 0 1, .unpack 5 1, .unpack 5 4096] = true ∧
      allFail (queued 32) .range [.unpack 2 4096] = true ∧ allFail (queued 32) .bqFault [.unpack 1 40] = true ∧
      allOk (queued 28) [.unpack 4 4095] = true ∧ allFail (queued 29) .bqFault [.unpack 4 4095] = true := by
  decide +kernel

/-! ## Family 42 -/

/-- V42.1, V42.3, V42.13. -/
theorem test_dseed :
    answersAll { base with key := [(0, 0x6B), (1, 0x65), (2, 0x79)], klen := 3 } [(.dseed, .ok, 0x19E5F)] = true ∧
      answersAll base [(.dseed, .ok, 0)] = true ∧ allOk { base with klen := 64 } [.dseed] = true ∧
      allFail { base with klen := 65 } .range [.dseed] = true := by decide +kernel

/-- V42.4. -/
theorem test_seedacc :
    answersAll { base with seed := 0xFFFFFFFF } [(.seedacc 0xFFFFFFFF, .ok, 0xFFFFFFE0)] = true := by decide +kernel

/-- The state of V42.5: `KEY = 01 02`, `DATA = 00 FF FE 80 10`. -/
def cipherState (klen dlen : Word) : State :=
  { base with key := [(0, 1), (1, 2)], klen := klen, data := [(1, 0xFF), (2, 0xFE), (3, 0x80), (4, 0x10)], dlen := dlen }

/-- V42.5, and a window of 3 bytes that leaves the others (as V42.8). -/
theorem test_enc :
    seen State.data .enc (cipherState 2 5) = some [(0, 1), (1, 1), (2, 0xFF), (3, 0x82), (4, 0x11)] ∧
      seen State.data .enc (cipherState 2 3) = some [(0, 1), (1, 1), (2, 0xFF), (3, 0x80), (4, 0x10)] := by
  decide +kernel

/-- V42.7. -/
theorem test_dec :
    seen State.data .dec (cipherState 2 5) = some [(0, 0xFF), (1, 0xFD), (2, 0xFD), (3, 0x7E), (4, 0x0F)] := by
  decide +kernel

/-- V42.9 to V42.12: each check, and the ends of the lengths. -/
theorem test_enc_dec_errors :
    allFail (cipherState 0 5) .emptyKey [.enc, .dec] = true ∧ allFail (cipherState 0 0) .emptyKey [.dec] = true ∧
      allOk (cipherState 2 0) [.enc] = true ∧ allFail (cipherState 0 1025) .range [.enc, .dec] = true ∧
      allFail (cipherState 65 0) .range [.enc, .dec] = true ∧ allOk (cipherState 64 1) [.enc] = true := by decide +kernel

/-! ## Family 43 -/

/-- The state of V43.1 with other values of M and CAP. -/
def planState (m cap : Word) : State := { base with pbl := 97, m := m, cap := cap, seed := 107 }

/-- V43.1 to V43.4: the start, and the capacities around the first that fits. -/
theorem test_cstart :
    answersAll (planState 2 1000) [(.cstart, .ok, 840)] = true ∧
      allFail (planState 2 84) .insufficientCapacity [.cstart] = true ∧
      answersAll (planState 2 85) [(.cstart, .ok, 36)] = true ∧
      answersAll (planState 2 86) [(.cstart, .ok, 37)] = true := by decide +kernel

/-- V43.5, V43.6, V43.19: the ends of M in each profile. -/
theorem test_cstart_m :
    allFail (planState 0 1000) .invalidParameterM [.cstart] = true ∧
      allFail (planState 5 1000) .invalidParameterM [.cstart] = true ∧ allOk (planState 4 1000) [.cstart] = true ∧
      answersAll { sample with pbl := 97, m := 2, cap := 1000, seed := 107 } [(.cstart, .ok, 660)] = true ∧
      allFail { sample with pbl := 97, m := 17, cap := 1000 } .invalidParameterM [.cstart] = true := by decide +kernel

/-- V43.12 to V43.15. -/
theorem test_draw :
    answersAll (planState 2 1000) [(.draw 916, .ok, 805), (.draw 0, .ok, 0), (.draw 1, .ok, 1),
      (.draw 0xFFFFFFFF, .ok, 0x01C07015)] = true := by decide +kernel

/-! ## Family 44 -/

/-- The state of E1 with other values of CTRL, M, CAP, DLEN and KLEN: "hi" tagged "txt", the key "k". -/
def embedState (ctrl m cap dlen klen : Word) : State :=
  { base with
    ctrl := ctrl, m := m, cap := cap, dlen := dlen, klen := klen, data := [(0, 0x68), (1, 0x69)],
    tag := [(0, 0x74), (1, 0x78), (2, 0x74)], key := [(0, 0x6B)] }

/-- E1: the response, PBL, START, SEED and the units 35 to 39. -/
theorem test_embed :
    responseOf .embed (embedState 0 2 1000 2 0) = some ⟨.ok, 35⟩ ∧
      seen (fun t => (t.pbl, t.start, t.seed)) .embed (embedState 0 2 1000 2 0) = some (97, 35, 0) ∧
      seen (fun t => (List.range 5).map (fun i => Memory.read t.cover (35 + i))) .embed (embedState 0 2 1000 2 0) =
        some [1, 3, 1, 0, 1] ∧
      seen (fun t => t.cover.take 4) .embed (embedState 0 2 1000 2 0) = some [(2, 1), (28, 1), (29, 1), (34, 1)] := by
  decide +kernel

/-- E3 and V44's errors: each check of EMBED, and the ends of the ranges it checks. -/
theorem test_embed_errors :
    allFail (embedState 0 2 83 2 0) .insufficientCapacity [.embed] = true ∧ allOk (embedState 0 2 84 2 0) [.embed] = true ∧
      allFail (embedState 1 2 84 2 1) .insufficientCapacity [.embed] = true ∧
      allOk (embedState 1 2 85 2 1) [.embed] = true ∧
      allFail (embedState 0 0 84 2 0) .invalidParameterM [.embed] = true ∧
      allFail (embedState 0 5 84 2 0) .invalidParameterM [.embed] = true ∧
      allOk (embedState 0 1 132 2 0) [.embed] = true ∧ allOk (embedState 0 4 60 2 0) [.embed] = true ∧
      allFail (embedState 1 2 84 2 0) .emptyKey [.embed] = true ∧
      allFail (embedState 2 2 84 2 0) .emptyKey [.embed] = true ∧
      allFail (embedState 2 0 4097 2 0) .range [.embed] = true ∧ allFail (embedState 2 0 84 1025 0) .range [.embed] = true ∧
      allFail (embedState 2 0 84 2 65) .range [.embed] = true := by decide +kernel

/-- The cover EMBED leaves in E2 ("hi" encrypted with "k", CAP 1000), as a state to extract from. -/
def extractState (klen : Word) : State :=
  { (stateOf (exec .embed (embedState 2 2 1000 2 1))).getD base with
    klen := klen, ctrl := 0, m := 0, dlen := 0, data := [], tag := [], rsps := [] }

/-- E2: EXTRACT with the right key. -/
theorem test_extract :
    responseOf .extract (extractState 1) = some ⟨.ok, 2⟩ ∧
      seen (fun t => (t.data, t.tag, t.ctrl, t.m)) .extract (extractState 1) =
        some ([(0, 0x68), (1, 0x69)], [(0, 0x74), (1, 0x78), (2, 0x74)], 2, 2) := by decide +kernel

/-- A header of `len` payload bits, `m` 1, `isRandom` as given, in units of value 1; what follows reads 0. -/
def headerCover (rand : Bool) (len : Nat) : Memory 16 := packUnits 1 35 [] 0 (headerBits rand 1 len)

/-- A state with that header. -/
def headed (rand : Bool) (len : Nat) (cap klen : Word) : State :=
  { base with cover := headerCover rand len, cap := cap, klen := klen }

/-- R220: each check of EXTRACT, and the ends of the ranges it checks. -/
theorem test_extract_errors :
    allFail (headed false 81 4097 0) .range [.extract] = true ∧ allFail (headed false 81 200 65) .range [.extract] = true ∧
      allFail (headed false 81 34 0) .insufficientCapacity [.extract] = true ∧
      allFail (headed true 81 200 0) .emptyKey [.extract] = true ∧
      allFail (headed false 81 115 0) .corruptHeader [.extract] = true ∧
      allOk (headed false 81 116 0) [.extract] = true ∧
      allFail (headed true 81 116 1) .corruptHeader [.extract] = true ∧ allOk (headed true 81 117 1) [.extract] = true ∧
      allFail (headed false 80 4096 0) .malformedPayload [.extract] = true ∧
      allFail (headed false 82 4096 0) .malformedPayload [.extract] = true ∧
      allFail { headed false 89 4096 0 with cfg := Config.byteProfile 4096 0 64 } .range [.extract] = true ∧
      allFail (extractState 0) .emptyKey [.extract] = true := by decide +kernel

/-! ## States and operands that meet the statements' hypotheses

The statements not named here have no hypotheses, or hypotheses that a test above meets by its own state: the response
tests of a family run each clause of that family's statements at both ends of its range. -/

/-- The unit count of E1 (R213, R216). -/
theorem ceil_97_2 : IsCeilDiv 97 2 49 := ⟨by decide, fun r h => by omega⟩

theorem hyp_DecodeInvertsEncode : (Instr.stc 35 0xFFFF).wellFormed = true ∧ (Instr.pushb 0x100).wellFormed = false := by
  decide

theorem hyp_EncodeInvertsDecode : decode 0x030000FF00000023#64 = .ok (.stc 35 0x00FF) := by decide +kernel

theorem hyp_DecodingIsRowSelection :
    ∃ r ∈ commandTable, 0x0500006800000001#64 &&& r.mask = r.pattern ∧ r.mnemonic = "STD" := by decide +kernel

theorem hyp_StepRunsDecodedCommand :
    (base.withFetchWord 64 0x0101000000000002).cmds = [0x0101000000000002#64] ∧
      decode 0x0101000000000002#64 = .ok (.wrr 1 2) := by decide +kernel

/-- Both clauses: an opcode of no row; a row's opcode and a bit its mask does not let pass. -/
theorem hyp_IllegalWordSetsOnlyErr :
    (∀ r ∈ commandTable, r.op ≠ opField 0x0B00000000000000#64) ∧
      ∃ r ∈ commandTable, r.op = opField 0x4000000000000001#64 ∧ 0x4000000000000001#64 &&& r.mask ≠ r.pattern := by
  decide +kernel

theorem hyp_IdleStateHolds : base.cmds = [] := rfl

theorem hyp_EveryWordIsAnsweredOnce : (base.withFetchWord 64 7).cmds = [7#64] := rfl

theorem reset_inv : State.reset.Inv :=
  ⟨by decide, by decide, by decide, Memory.Inv.nil _ _, Memory.Inv.nil _ _, Memory.Inv.nil _ _, Memory.Inv.nil _ _⟩

theorem hyp_InvariantHoldsAfterReset :
    Memory.Inv 4096 8 ([(0, 0xFF), (4095, 1)] : Memory 16) ∧ Memory.Inv 10 8 ([(9, 0x74)] : Memory 8) := by decide

theorem hyp_EveryStepKeepsInvariant :
    ∃ t, step (State.reset.withFetchWord 64 0x0101000000000002) = .next t ∧ t.m = 2 := ⟨_, rfl, rfl⟩

/-- A command that fails, and a command that succeeds. -/
theorem hyp_FailedCommandChangesOnlyErr :
    (∃ t, exec (.popv 1) base = .next t ∧ t.rsps = base.rsps ++ [⟨.bqFault, 0⟩]) ∧
      ∃ t, exec (.wrr 1 2) base = .next t ∧ t.rsps = base.rsps ++ [⟨.ok, 0⟩] := ⟨⟨_, rfl, rfl⟩, ⟨_, rfl, rfl⟩⟩

theorem hyp_SucceedingCommandKeepsErr :
    (∃ t, exec (.wrr 1 2) base = .next t ∧ t.rsps = base.rsps ++ [⟨.ok, 0⟩]) ∧ (∀ x, Instr.wrr 1 2 ≠ .wrr 10 x) ∧
      { base with cmds := [commandWord 0x01 10 1 0] }.cmds = commandWord 0x01 10 1 0 :: [] :=
  ⟨⟨_, rfl, rfl⟩, (fun x h => by cases h), rfl⟩

theorem hyp_ErrBitsAreSticky :
    ∃ t, step { base with err := 0x40, cmds := [encode (.wrr 1 2)] } = .next t ∧ (0x40#32).getLsbD 6 = true ∧
      decode (encode (.wrr 1 2)) = .ok (.wrr 1 2) := ⟨_, rfl, by decide, by decide +kernel⟩

theorem hyp_NoCommandDependsOnErr : (Instr.rdr 9 ≠ .rdr 10) ∧ ∃ t, exec (.rdr 9) base = .next t :=
  ⟨by decide, _, rfl⟩

/-- Each writer's register or memory differs afterwards, from one state each. -/
theorem hyp_ChangesByWriters :
    seen (fun t => (t.cfg, t.klen)) (.wrr 5 3) base = some (base.cfg, 3) ∧ seen State.key (.stk 0 1) base ≠ some base.key ∧
      seen State.tag (.stt 0 1) base ≠ some base.tag ∧ seen State.data .enc (cipherState 2 5) ≠ some (cipherState 2 5).data ∧
      seen State.cover (.pack 1 0) (queued 1) ≠ some base.cover ∧ seen State.bq (.unpack 1 0) base ≠ some base.bq := by
  decide +kernel

theorem hyp_QueueIsFirstInFirstOut : (Instr.popb ≠ .bqclr) ∧ ∃ t, exec .popb (queued 8) = .next t ∧ t.bq = [] :=
  ⟨by decide, _, rfl, rfl⟩

/-- Memories in canonical form: empty, and with an element at each end. -/
theorem hyp_wf :
    Memory.wf base.cover ∧ Memory.wf ([(0, 0x55), (4095, 0xFF)] : Memory 16) ∧
      Memory.wf ([(0, 1), (9, 2)] : Memory 8) := by decide

theorem hyp_RdrReadsRegister : (queued 0).bq.length ≤ 32 ∧ (queued 32).bq.length ≤ 32 ∧ 10 < (11#8).toNat := by decide

theorem hyp_StcStoresUnit :
    (4095#32).toNat < base.cfg.coverSize ∧ base.cfg.coverSize ≤ (4096#32).toNat ∧
      (0xFF#16).toNat < 2 ^ base.cfg.unitWidth ∧ 2 ^ base.cfg.unitWidth ≤ (0x100#16).toNat := by decide

theorem hyp_ByteStoresWriteOneByte :
    (1023#32).toNat < base.cfg.dataSize ∧ base.cfg.dataSize ≤ (1024#32).toNat ∧ (63#32).toNat < base.cfg.keySize ∧
      base.cfg.keySize ≤ (64#32).toNat := by decide

theorem hyp_QueueViewsDetermineQueue :
    (queued 32).bq.length ≤ 32 ∧ (queued 31).bq.length < 32 ∧ (queued 0).bq = [] ∧ 32 ≤ (queued 32).bq.length := by decide

theorem hyp_PushPopAndPackUnpackComeBack :
    base.bq = [] ∧ (0xFF#16).toNat < 256 ∧ (0xFFFFFFFF#32).toNat < 2 ^ (32#8).toNat ∧ (1#32).toNat < 2 ^ (1#8).toNat ∧
      (queued 4).bq.length = (4#8).toNat ∧ (4#8).toNat ≤ (queued 4).cfg.mMax := by decide

theorem hyp_BytesAndBitsAreInverse :
    bitsToBytes (bitList 16 0x6869) = some [0x68, 0x69] ∧ bitsToBytes (bitList 9 0) = none := by decide +kernel

theorem hyp_EncAndDecUndoEachOther :
    Memory.wf (cipherState 2 5).data ∧ (cipherState 2 5).dlen.toNat ≤ (cipherState 2 5).cfg.dataSize ∧
      (cipherState 2 5).klen.toNat ≤ (cipherState 2 5).cfg.keySize ∧ (cipherState 2 5).klen.toNat ≠ 0 := by decide

/-- Both sides of the capacity, at its two ends (V43.2, V43.3). -/
theorem hyp_CstartComputesStart :
    IsCeilDiv (planState 2 84).pbl.toNat (planState 2 84).m.toNat 49 ∧
      ((planState 2 84).cap.toNat : Int) - (49 : Nat) - 35 - (planState 2 84).cfg.safety = 0 ∧
      ((planState 2 85).cap.toNat : Int) - (49 : Nat) - 35 - (planState 2 85).cfg.safety = 1 :=
  ⟨ceil_97_2, by decide, by decide⟩

theorem hyp_ComputedStartLiesInCover :
    IsCeilDiv 97 2 49 ∧ computeStart Config.default 97 2 85 107 = some 36 ∧
      computeStart Config.default 97 2 84 107 = none := ⟨ceil_97_2, by decide +kernel, by decide +kernel⟩

/-- EMBED's checks pass at the least capacity of a fixed placement (84) and of a drawn one (85). -/
theorem hyp_EmbedReady :
    EmbedReady (embedState 0 2 84 2 0) 49 ∧ EmbedReady (embedState 3 2 85 2 1) 49 ∧
      ¬HasRoom (embedState 0 2 83 2 0) false 49 ∧ ¬HasRoom (embedState 1 2 84 2 1) true 49 ∧
      (embedState 0 2 84 2 0).cfg.Ok ∧ Memory.wf (embedState 0 2 84 2 0).cover :=
  ⟨⟨by decide, by decide, by decide, by decide, by decide, ceil_97_2, by unfold HasRoom; decide⟩,
    ⟨by decide, by decide, by decide, by decide, by decide, ceil_97_2, by unfold HasRoom; decide⟩,
    by unfold HasRoom; decide, by unfold HasRoom; decide, by decide, by decide⟩

/-- The state of E1 meets the invariant. -/
theorem hyp_ExtractInvertsEmbed : (embedState 3 2 85 2 1).Inv ∧ (embedState 3 2 85 2 1).cfg.Ok :=
  ⟨⟨by decide, by decide, by decide, by decide, by decide, by decide, by decide⟩, by decide⟩

/-- Each clause: a key of one byte and of the whole memory, the empty key where none is needed, and where one is. -/
theorem hyp_WrongKeyIsNotAnError :
    (64#32).toNat ≤ (embedState 3 2 85 2 1).cfg.keySize ∧ (embedState 3 2 85 2 1).ctrl ≠ 0 ∧
      (embedState 0 2 84 2 0).ctrl = 0 ∧ (extractState 0).klen.toNat = 0 := by decide +kernel

theorem hyp_PayloadRegionAvoidsHeader :
    allOk (embedState 3 2 85 2 1) [.embed] = true ∧ allOk (extractState 1) [.extract] = true ∧
      (embedState 3 2 85 2 1).cfg.Ok := by decide +kernel

theorem hyp_EmbedWrites : ∃ t, exec .embed (embedState 0 2 84 2 0) = .next t ∧ t.rsps = [⟨.ok, 35⟩] := by
  refine ⟨(stateOf (exec .embed (embedState 0 2 84 2 0))).getD base, rfl, by decide +kernel⟩

/-- EXTRACT's checks pass at the least capacity of a header of 81 bits, `m` 1. -/
theorem hyp_ExtractReady :
    ExtractReady (headed false 81 116 0) 81 81 ∧ headerM (headed false 81 116 0) = 1 ∧
      ¬HasRoom (headed false 81 115 0) false 81 ∧ ¬HasRoom (headed true 81 116 1) true 81 :=
  ⟨⟨by decide, by decide, by unfold IsValue; decide +kernel, by decide +kernel,
      by rw [show headerM (headed false 81 116 0) = 1 by decide +kernel]; exact ⟨by decide, fun r h => by omega⟩,
      by rw [show coverBit (headed false 81 116 0) 0 = false by decide +kernel]; unfold HasRoom; decide⟩,
    by decide +kernel, by unfold HasRoom; decide, by unfold HasRoom; decide⟩

/-- A payload whose flag is 1 needs a key, one whose flag is 0 does not. -/
theorem hyp_ExtractFlag :
    readBit (extractState 0) 35 2 97 80 = true ∧ readBit (headed false 81 116 0) 35 1 81 80 = false := by decide +kernel

/-- E1 needs no key on either side. -/
theorem hyp_UnneededKeyIsNotRead :
    (embedState 0 2 84 2 0).ctrl.getLsbD 0 = false ∧ (embedState 0 2 84 2 0).ctrl.getLsbD 1 = false ∧
      seen (fun t => t.ctrl.getLsbD 1) .extract (headed false 81 116 0) = some false := by decide +kernel

theorem hyp_HeaderByBitPackerCommands :
    base.bq = [] ∧ Memory.wf base.cover ∧ 35 ≤ base.cfg.coverSize ∧ base.cfg.coverSize ≤ 2 ^ 32 - 1 := by decide

theorem hyp_LoadAnswersLastStore :
    (∃ t, exec (.stc 0 0xFF) base = .next t) ∧ (0xFF#16).toNat < 2 ^ base.cfg.unitWidth ∧ (1#32 ≠ 0#32) :=
  ⟨⟨_, rfl⟩, by decide, by decide⟩

theorem hyp_SetKeyLoadsKey :
    base.cfg.Ok ∧ Memory.wf base.key ∧ ([0x6B, 0x65, 0x79] : List Byte).length ≤ base.cfg.keySize ∧
      (List.replicate 64 (0xFF : Byte)).length ≤ base.cfg.keySize := by decide

/-- E5: the ends of the sample range. -/
theorem test_samples :
    unitOfSample (-32768) = 0x8000 ∧ unitOfSample (-1) = 0xFFFF ∧ unitOfSample 32767 = 0x7FFF ∧
      sampleOfUnit 0x8003 = -32765 ∧ sampleOfUnit 0xFFFD = -3 ∧ sampleOfUnit 0x7FFD = 32765 := by decide +kernel

end Sys2Proof.Tests
end

/-! PROOFS. The three statements of 00_scope.md: every word is answered once and every program runs to its end, read off
`step_cases` and `exec_answers` (R18, R19), and no command looks at the two ports, read off `exec_withAside` (R18). -/

namespace Sys2Proof.Proofs.Scope

open Sys2Proof Sys2Proof.Machine

/-- Settles O8. A presented word is a command, which `exec_answers` covers, or it is refused with one response of
value 0. -/
theorem everyWordIsAnsweredOnce : Obligations.EveryWordIsAnsweredOnce := by
  intro s w rest hc
  rcases step_cases s with ⟨hidle, -⟩ | ⟨w', rest', i, hc', -, hs⟩ | ⟨w', rest', e, hc', -, hs⟩
  · cases hc.symm.trans hidle
  · cases hc.symm.trans hc'
    rw [hs]
    exact exec_answers i { s with cmds := rest }
  · cases hc.symm.trans hc'
    exact ⟨_, ⟨.illegalCommand, 0⟩, hs, rfl, rfl, rfl, fun _ => rfl⟩

/-- As many steps as words wait take every one of them, with one response each (R19). -/
theorem runs_through_waiting_words (words : List CommandWord) (s : State) (hc : s.cmds = words) :
    ∃ t added, Runs words.length s t ∧ t.cmds = [] ∧ t.rsps = s.rsps ++ added ∧ added.length = words.length := by
  induction words generalizing s with
  | nil => exact ⟨s, [], (runs_zero s s).mpr rfl, hc, by simp, rfl⟩
  | cons w rest ih =>
    obtain ⟨u, r, hstep, hu, hr, -⟩ := everyWordIsAnsweredOnce s w rest hc
    obtain ⟨t, added, hrun, ht, hadded, hlen⟩ := ih u hu
    exact ⟨t, r :: added, (runs_succ _ s t).mpr ⟨u, hstep, hrun⟩, ht, by simp [hadded, hr], by simp [hlen]⟩

/-- Settles O9, by induction on the waiting words. -/
theorem everyProgramRunsToItsEnd : Obligations.EveryProgramRunsToItsEnd :=
  fun s words => runs_through_waiting_words words { s with cmds := words } rfl

/-- Settles O18. `exec_withAside` with ERR as it is: the two runs fail alike or succeed alike, and with the same ERR
the exceptions for RDR and WRR of ERR make no difference. -/
theorem resultIgnoresPortHistory : Obligations.ResultIgnoresPortHistory := by
  intro i s cmds rsps
  rcases exec_withAside i s s.err cmds rsps with
    ⟨c, -, h, h'⟩ | ⟨v, v', t, e', h, h', -, hrsps, hvalue, herr⟩
  · exact ⟨_, ⟨c, 0⟩, h, rfl, h'⟩
  · obtain rfl : v' = v := by
      rcases hvalue with hv | ⟨-, hv, hv'⟩
      · exact hv
      · rw [hv, hv']
    obtain rfl : e' = t.err := by
      rcases herr with ⟨ht, he⟩ | ⟨-, he⟩
      · rw [ht, he]
      · exact he
    exact ⟨_, ⟨.ok, v'⟩, h, by simp [hrsps], h'⟩

end Sys2Proof.Proofs.Scope

/-! PROOFS. What the statements of 10_state.md share: how a command ends, one rule per operation for the invariant of
R41, and the commands that change each place of the state (R40, R66). -/

namespace Sys2Proof.Machine

/-! ## How a command ends -/

/-- The state after any command: its start with an error raised, or the command's effect, either with the response. -/
theorem exec_next_cases {i : Instr} {s t : State} (h : exec i s = .next t) :
    (∃ c, c ≠ .ok ∧ t = State.answer { s with err := errAfter s.err c } c 0) ∨
      ∃ v u, Effect i s v u ∧ t = u.answer .ok v := by
  rcases exec_cases i s with ⟨c, hc, he⟩ | ⟨v, u, hu, he⟩
  · exact .inl ⟨c, hc, Host.Outcome.next.inj (h.symm.trans he)⟩
  · exact .inr ⟨v, u, hu, Host.Outcome.next.inj (h.symm.trans he)⟩

/-! ## The invariant: what the operations need and keep -/

theorem mMax_le_unitWidth (c : Config) : c.mMax ≤ c.unitWidth := by
  unfold Config.mMax Config.unitWidth
  split <;> decide

theorem unitWidth_le (c : Config) : c.unitWidth ≤ 16 := by
  unfold Config.unitWidth
  split <;> decide

/-- No status sets a reserved bit of ERR (R33, R251). -/
theorem errBit_reserved (c : Status) : errBit c &&& 0xFFFFFE01#32 = 0 := by
  cases c <;> decide

theorem ctrlOf_lt (rand enc : Bool) : (ctrlOf rand enc).toNat < 4 := by
  cases rand <;> cases enc <;> decide

theorem and_ctrlMask_lt (v : Word) : (v &&& ctrlMask).toNat < 4 := by
  rw [BitVec.toNat_and]
  exact Nat.lt_succ_of_le Nat.and_le_right

theorem and_errMask_reserved (v : Word) : v &&& errMask &&& 0xFFFFFE01#32 = 0 := by
  have h : errMask &&& 0xFFFFFE01#32 = 0 := by decide
  rw [BitVec.and_assoc, h]
  exact BitVec.and_zero

theorem State.Inv.answer {s : State} (h : s.Inv) (c : Status) (v : Word) : (s.answer c v).Inv := { h with }

theorem State.Inv.withErrAfter {s : State} (h : s.Inv) (c : Status) :
    State.Inv { s with err := errAfter s.err c } :=
  { h with
    err := by
      show (s.err ||| errBit c) &&& 0xFFFFFE01#32 = 0
      rw [BitVec.and_comm, BitVec.and_or_distrib_left, BitVec.and_comm, h.err, BitVec.and_comm, errBit_reserved]
      rfl }

/-- WRR stores no reserved bit of CTRL or ERR, and the invariant says nothing of the other registers (R22, R33). -/
theorem State.Inv.setReg {s : State} (h : s.Inv) (r : Reg) (v : Word) : (s.setReg r v).Inv := by
  cases r with
  | ctrl => exact { h with ctrl := and_ctrlMask_lt v }
  | err => exact { h with err := and_errMask_reserved v }
  | bqv | bqn => exact h
  | m | cap | pbl | dlen | klen | seed | start => exact { h with }

theorem State.Inv.push {s : State} (h : s.Inv) {bits : List Bool} (hl : s.bq.length + bits.length ≤ bqDepth) :
    (s.push bits).Inv :=
  { h with queue := by simpa using hl }

theorem State.Inv.pop {s : State} (h : s.Inv) (k : Nat) : (s.pop k).Inv :=
  { h with
    queue := by
      have := h.queue
      simp only [State.pop_bq, List.length_drop]
      omega }

/-- Bytes written from element 0 on that fit the memory keep its invariant. -/
theorem Memory.Inv.writeBytes {size : Nat} {mem : Memory 8} (h : Memory.Inv size 8 mem) {bytes : List Byte}
    (hl : bytes.length ≤ size) : Memory.Inv size 8 (Memory.writeFrom mem 0 bytes) :=
  h.writeFrom bytes (by omega) (fun b _ => b.isLt)

theorem encrypt_length {data key out : List Byte} (h : encrypt data key = .ok out) : out.length = data.length := by
  rcases encrypt_spec data key with ⟨-, e⟩ | ⟨-, o, e, hl, -⟩
  · cases e.symm.trans h
  · cases e.symm.trans h
    exact hl

theorem decrypt_length {cipher key out : List Byte} (h : decrypt cipher key = .ok out) :
    out.length = cipher.length := by
  rw [← encrypt_length (encrypt_decrypt h)]

/-- ENC and DEC write as many bytes as DLEN says, which lie inside DATA (R177, R178). -/
theorem State.Inv.writeDataWindow {s : State} (h : s.Inv) (hlen : s.lengthsOutside = false) {bytes : List Byte}
    (hb : bytes.length = s.dataWindow.length) : State.Inv { s with data := Memory.writeFrom s.data 0 bytes } := by
  have hin : ¬(s.cfg.dataSize < s.dlen.toNat ∨ s.cfg.keySize < s.klen.toNat) := by
    rw [← State.lengthsOutside_iff, hlen]
    decide
  rw [State.dataWindow, Memory.window_length] at hb
  exact { h with data := h.data.writeBytes (by omega) }

/-- EMBED's header and payload lie inside COVER, with no more bits per unit than a unit has (R216). -/
theorem EmbedPasses.embedCover_inv {s : State} {p : EmbedPlan} (h : EmbedPasses s p)
    (hc : Memory.Inv s.cfg.coverSize s.cfg.unitWidth s.cover) :
    Memory.Inv s.cfg.coverSize s.cfg.unitWidth (embedCover s.cover (isRand s.ctrl) s.m.toNat p) := by
  have hwidth := unitWidth_le s.cfg
  have hm : 4 ≤ s.cfg.unitWidth := (mMax_ge s.cfg).trans (mMax_le_unitWidth s.cfg)
  have hm4 := h.m.2
  have hstart := h.start_ge
  have hroom := h.room
  have hcap := h.inside.1
  have hheader := Inv_packUnits hwidth 1 hdrUnits (by omega) s.cover hc 0 (by unfold hdrUnits; omega)
    (headerBits (isRand s.ctrl) s.m.toNat p.len)
  exact Inv_packUnits hwidth s.m.toNat p.units (by omega) _ hheader p.start (by omega) p.payload

/-- EXTRACT delivers ten tag bytes and a content that fits DATA (R219). -/
theorem ExtractPasses.lengths {s : State} {p : ExtractPlan} (h : ExtractPasses s p) :
    p.tag.length = 10 ∧ p.content.length ≤ s.cfg.dataSize := by
  have hm : 1 ≤ p.m := by
    have hbounds := readHeader_bounds s.cover
    rw [h.header.2] at hbounds
    exact hbounds.1
  have hbits : (unpackUnits p.m s.cover (neededUnits p.len p.m) p.start p.len).length = p.len := by
    rw [unpackUnits_length]
    exact Nat.min_eq_right (neededUnits_ge p.len p.m hm)
  obtain ⟨htag, -, hcontent⟩ := parsePayload_lengths hbits h.parse
  exact ⟨htag, hcontent⟩

/-- Every command's own writes keep the invariant. -/
theorem Effect.keeps_inv {i : Instr} {s t : State} {v : Word} (h : Effect i s v t) (hs : s.Inv) : t.Inv := by
  cases i with
  | rdr | ldc | ldd | ldk | ldt | draw =>
    obtain ⟨rfl, -⟩ := h
    exact hs
  | wrr reg value =>
    obtain ⟨-, r, -, -, rfl⟩ := h
    exact hs.setReg r value
  | stc index unit =>
    obtain ⟨-, hi, hu, rfl⟩ := h
    exact { hs with cover := hs.cover.write hi hu }
  | std index b =>
    obtain ⟨-, hi, rfl⟩ := h
    exact { hs with data := hs.data.write hi (byteOperand b).isLt }
  | stk index b =>
    obtain ⟨-, hi, rfl⟩ := h
    exact { hs with key := hs.key.write hi (byteOperand b).isLt }
  | stt index b =>
    obtain ⟨-, hi, rfl⟩ := h
    exact { hs with tag := hs.tag.write hi (byteOperand b).isLt }
  | bqclr =>
    obtain ⟨-, rfl⟩ := h
    exact { hs with queue := Nat.zero_le _ }
  | pushb b =>
    obtain ⟨-, hroom, rfl⟩ := h
    exact hs.push (by simpa using hroom)
  | pushv k value =>
    obtain ⟨-, -, -, hroom, rfl⟩ := h
    exact hs.push (by simpa using hroom)
  | unpack k index =>
    obtain ⟨-, -, -, hroom, rfl⟩ := h
    exact hs.push (by simpa using hroom)
  | popb =>
    obtain ⟨-, -, rfl⟩ := h
    exact hs.pop 8
  | popv k =>
    obtain ⟨-, -, -, rfl⟩ := h
    exact hs.pop k.toNat
  | pack k index =>
    obtain ⟨-, hk, hi, -, rfl⟩ := h
    have hbits : (s.bq.take k.toNat).length ≤ s.cfg.unitWidth :=
      (List.length_take_le _ _).trans (((validCount_iff s k).mp hk).2.trans (mMax_le_unitWidth s.cfg))
    exact { hs.pop k.toNat with
      cover := hs.cover.write hi
        (packUnit_lt _ _ _ (unitWidth_le s.cfg) hbits (hs.cover.read_lt index.toNat)) }
  | dseed =>
    obtain ⟨-, -, rfl⟩ := h
    exact { hs with }
  | seedacc cp =>
    obtain ⟨-, rfl⟩ := h
    exact { hs with }
  | cstart =>
    obtain ⟨-, -, r, -, -, rfl⟩ := h
    exact { hs with }
  | enc =>
    obtain ⟨-, hlen, bytes, hb, rfl⟩ := h
    exact hs.writeDataWindow hlen (encrypt_length hb)
  | dec =>
    obtain ⟨-, hlen, bytes, hb, rfl⟩ := h
    exact hs.writeDataWindow hlen (decrypt_length hb)
  | embed =>
    obtain ⟨p, hp, -, rfl⟩ := h
    exact { hs with cover := ((embedPlan_ok_iff s p).mp hp).embedCover_inv hs.cover }
  | extract =>
    obtain ⟨p, hp, -, rfl⟩ := h
    obtain ⟨htag, hcontent⟩ := ((extractPlan_ok_iff s p).mp hp).lengths
    exact { hs with
      ctrl := ctrlOf_lt p.rand p.enc
      tag := hs.tag.writeBytes htag.le
      data := hs.data.writeBytes hcontent }

theorem exec_keeps_inv {i : Instr} {s t : State} (h : exec i s = .next t) (hs : s.Inv) : t.Inv := by
  rcases exec_next_cases h with ⟨c, -, rfl⟩ | ⟨v, u, hu, rfl⟩
  · exact (hs.withErrAfter c).answer c 0
  · exact (hu.keeps_inv hs).answer .ok v

/-! ## Which command changes what -/

/-- A place a command can write other than ERR, which every failing command writes (R40). -/
inductive Place where
  | ctrl | m | cap | pbl | dlen | klen | seed | start | bq | cover | data | key | tag

/-- The place holds something else in `t` than in `s`. -/
def Changed (s t : State) : Place → Prop
  | .ctrl => t.ctrl ≠ s.ctrl
  | .m => t.m ≠ s.m
  | .cap => t.cap ≠ s.cap
  | .pbl => t.pbl ≠ s.pbl
  | .dlen => t.dlen ≠ s.dlen
  | .klen => t.klen ≠ s.klen
  | .seed => t.seed ≠ s.seed
  | .start => t.start ≠ s.start
  | .bq => t.bq ≠ s.bq
  | .cover => t.cover ≠ s.cover
  | .data => t.data ≠ s.data
  | .key => t.key ≠ s.key
  | .tag => t.tag ≠ s.tag

/-- The commands that write a place: R40's table read by place, and R66 for the memories. -/
def WrittenBy (i : Instr) : Place → Prop
  | .ctrl => (∃ v, i = .wrr 0 v) ∨ i = .extract
  | .m => (∃ v, i = .wrr 1 v) ∨ i = .extract
  | .cap => ∃ v, i = .wrr 2 v
  | .pbl => (∃ v, i = .wrr 3 v) ∨ i = .embed ∨ i = .extract
  | .dlen => (∃ v, i = .wrr 4 v) ∨ i = .extract
  | .klen => ∃ v, i = .wrr 5 v
  | .seed => (∃ v, i = .wrr 6 v) ∨ i = .dseed ∨ (∃ c, i = .seedacc c) ∨ i = .embed ∨ i = .extract
  | .start => (∃ v, i = .wrr 7 v) ∨ i = .cstart ∨ i = .embed ∨ i = .extract
  | .bq => i = .bqclr ∨ (∃ b, i = .pushb b) ∨ i = .popb ∨ (∃ k v, i = .pushv k v) ∨ (∃ k, i = .popv k) ∨
      (∃ k a, i = .pack k a) ∨ ∃ k a, i = .unpack k a
  | .cover => (∃ a b, i = .stc a b) ∨ (∃ k a, i = .pack k a) ∨ i = .embed
  | .data => (∃ a b, i = .std a b) ∨ i = .enc ∨ i = .dec ∨ i = .extract
  | .key => ∃ a b, i = .stk a b
  | .tag => (∃ a b, i = .stt a b) ∨ i = .extract

/-- ERR is none of the places. -/
theorem not_changed_withErr (s : State) (e : Word) (p : Place) : ¬Changed s { s with err := e } p := by
  cases p <;> exact fun h => h rfl

/-- The number of a register (R21). -/
def Reg.number : Reg → BitVec 8
  | .ctrl => 0
  | .m => 1
  | .cap => 2
  | .pbl => 3
  | .dlen => 4
  | .klen => 5
  | .seed => 6
  | .start => 7
  | .bqv => 8
  | .bqn => 9
  | .err => 10

theorem regOfNumber_eq_some_iff {a : BitVec 8} {r : Reg} : regOfNumber a = some r ↔ a = r.number := by
  constructor
  · intro h
    apply BitVec.eq_of_toNat_eq
    revert h
    unfold regOfNumber
    split <;> rintro ⟨⟩ <;> assumption
  · rintro rfl
    cases r <;> rfl

/-- WRR changes the named register alone. -/
theorem changed_setReg {s : State} {r : Reg} {v : Word} {p : Place} (h : Changed s (s.setReg r v) p) :
    WrittenBy (.wrr r.number v) p := by
  cases r <;> cases p <;> simp_all [Changed, WrittenBy, Reg.number]

/-- A command's own writes change a place only where R40 lists the command as its writer. -/
theorem Effect.changes_only {i : Instr} {s t : State} {v : Word} (h : Effect i s v t) {p : Place}
    (hp : Changed s t p) : WrittenBy i p := by
  cases i with
  | rdr | ldc | ldd | ldk | ldt | draw =>
    obtain ⟨rfl, -⟩ := h
    exact absurd hp (not_changed_withErr _ _ p)
  | wrr reg value =>
    obtain ⟨-, r, hr, -, rfl⟩ := h
    obtain rfl := regOfNumber_eq_some_iff.mp hr
    exact changed_setReg hp
  | bqclr | seedacc =>
    obtain ⟨-, rfl⟩ := h
    cases p <;> simp [Changed, WrittenBy] at hp ⊢
  | std | stk | stt | pushb | popb | dseed =>
    obtain ⟨-, -, rfl⟩ := h
    cases p <;> simp [Changed, WrittenBy] at hp ⊢
  | stc | popv =>
    obtain ⟨-, -, -, rfl⟩ := h
    cases p <;> simp [Changed, WrittenBy] at hp ⊢
  | pushv | pack | unpack =>
    obtain ⟨-, -, -, -, rfl⟩ := h
    cases p <;> simp [Changed, WrittenBy] at hp ⊢
  | enc | dec =>
    obtain ⟨-, -, bytes, -, rfl⟩ := h
    cases p <;> simp [Changed, WrittenBy] at hp ⊢
  | cstart =>
    obtain ⟨-, -, r, -, -, rfl⟩ := h
    cases p <;> simp [Changed, WrittenBy] at hp ⊢
  | embed | extract =>
    obtain ⟨plan, -, -, rfl⟩ := h
    cases p <;> simp [Changed, WrittenBy] at hp ⊢

/-- The response is no place of the block's state. -/
theorem changed_answer {s t : State} {c : Status} {v : Word} {p : Place} :
    Changed s (t.answer c v) p ↔ Changed s t p := by
  cases p <;> rfl

/-- A failing command changes no place, and a succeeding one only those it writes (R40, R254). -/
theorem exec_changes_only {i : Instr} {s t : State} (h : exec i s = .next t) (p : Place) (hp : Changed s t p) :
    WrittenBy i p := by
  rcases exec_next_cases h with ⟨c, -, rfl⟩ | ⟨v, u, hu, rfl⟩
  · exact absurd (changed_answer.mp hp) (not_changed_withErr s _ p)
  · exact hu.changes_only (changed_answer.mp hp)

/-! ## The bit queue -/

/-- A command other than BQCLR takes bits from the head of the queue or adds bits that fit at its tail (R30). -/
theorem Effect.queue_cases {i : Instr} {s t : State} {v : Word} (h : Effect i s v t) (hi : i ≠ .bqclr) :
    (∃ k, t.bq = s.bq.drop k) ∨ ∃ bits, t.bq = s.bq ++ bits ∧ s.bq.length + bits.length ≤ bqDepth := by
  by_cases hq : t.bq = s.bq
  · exact .inl ⟨0, hq⟩
  rcases h.changes_only (p := .bq) hq with
    rfl | ⟨b, rfl⟩ | rfl | ⟨k, value, rfl⟩ | ⟨k, rfl⟩ | ⟨k, index, rfl⟩ | ⟨k, index, rfl⟩
  · exact absurd rfl hi
  · obtain ⟨-, hroom, rfl⟩ := h
    exact .inr ⟨_, rfl, by simpa using hroom⟩
  · obtain ⟨-, -, rfl⟩ := h
    exact .inl ⟨8, rfl⟩
  · obtain ⟨-, -, -, hroom, rfl⟩ := h
    exact .inr ⟨_, rfl, by simpa using hroom⟩
  · obtain ⟨-, -, -, rfl⟩ := h
    exact .inl ⟨k.toNat, rfl⟩
  · obtain ⟨-, -, -, -, rfl⟩ := h
    exact .inl ⟨k.toNat, rfl⟩
  · obtain ⟨-, -, -, hroom, rfl⟩ := h
    exact .inr ⟨_, rfl, by simpa using hroom⟩

/-- BQN of a queue within its depth is the queue's length (R32). -/
theorem State.reg_bqn_toNat {s : State} (h : s.bq.length ≤ bqDepth) : (s.reg .bqn).toNat = s.bq.length := by
  rw [State.reg_bqn, BitVec.toNat_ofNat]
  exact Nat.mod_eq_of_lt (lt_of_le_of_lt h (by decide))

/-- BQV of a queue within its depth is the queue's value (R31). -/
theorem State.reg_bqv_toNat {s : State} (h : s.bq.length ≤ bqDepth) : (s.reg .bqv).toNat = valof s.bq := by
  rw [State.reg_bqv, BitVec.toNat_ofNat]
  exact Nat.mod_eq_of_lt ((valof_lt s.bq).trans_le (Nat.pow_le_pow_right (by decide) h))

/-! ## ERR -/

/-- ERR after any command but a WRR to ERR: at most a bit more is set (R33, R253). -/
theorem exec_err {i : Instr} {s t : State} (h : exec i s = .next t) (hi : ∀ x, i ≠ .wrr 10 x) :
    ∃ c, t.err = errAfter s.err c := by
  rcases exec_withAside i s s.err s.cmds s.rsps with ⟨c, -, he, -⟩ | ⟨v, _, u, _, he, -, -, -, -, herr⟩
  · cases h.symm.trans he
    exact ⟨c, rfl⟩
  · cases h.symm.trans he
    rcases herr with ⟨herr, -⟩ | ⟨⟨x, hx⟩, -⟩
    · exact ⟨.ok, herr.trans BitVec.or_zero.symm⟩
    · exact absurd hx (hi x)

theorem errAfter_keeps_bit {err : Word} {n : Nat} (h : err.getLsbD n = true) (c : Status) :
    (errAfter err c).getLsbD n = true := by
  simp [errAfter, h]

end Sys2Proof.Machine

namespace Sys2Proof.Proofs.StateRules

open Sys2Proof Sys2Proof.Machine

/-- Settles O13. Taking a word from the port touches nothing the invariant speaks of; the rest is `exec_keeps_inv`, and
a word that is no command is an error raised. -/
theorem everyStepKeepsInvariant : Obligations.EveryStepKeepsInvariant := by
  intro s t hs h
  have htaken : ∀ rest, State.Inv { s with cmds := rest } := fun rest => { hs with }
  rcases step_cases s with ⟨-, hstep⟩ | ⟨w, rest, i, -, -, hstep⟩ | ⟨w, rest, e, -, -, hstep⟩
  · cases hstep.symm.trans h
    exact hs
  · exact exec_keeps_inv (hstep.symm.trans h) (htaken rest)
  · cases hstep.symm.trans h
    exact ((htaken rest).withErrAfter .illegalCommand).answer .illegalCommand 0

/-- Settles O16. An idle step keeps ERR; a command that is no WRR to ERR and a refused word only add to it. -/
theorem errBitsAreSticky : Obligations.ErrBitsAreSticky := by
  intro s t n h hset hnot
  rcases step_cases s with ⟨-, hstep⟩ | ⟨w, rest, i, hc, hd, hstep⟩ | ⟨w, rest, e, -, -, hstep⟩
  · cases hstep.symm.trans h
    exact hset
  · have hi : ∀ x, i ≠ .wrr 10 x := fun x hx => hnot w rest x hc (hx ▸ hd)
    obtain ⟨c, herr⟩ := exec_err (hstep.symm.trans h) hi
    rw [herr]
    exact errAfter_keeps_bit hset c
  · cases hstep.symm.trans h
    exact errAfter_keeps_bit hset .illegalCommand

/-- Settles O17: `exec_withAside` with the ports as they are; the value differs for RDR of ERR alone. -/
theorem noCommandDependsOnErr : Obligations.NoCommandDependsOnErr := by
  intro i s t e hi h
  rcases exec_withAside i s e s.cmds s.rsps with
    ⟨c, -, he, he'⟩ | ⟨v, v', u, e', he, he', hcmds, hrsps, hvalue, -⟩
  · cases h.symm.trans he
    exact ⟨errAfter e c, he'⟩
  · cases h.symm.trans he
    obtain rfl : v' = v := hvalue.resolve_right fun hr => hi hr.1
    have hports : u.withAside e' s.cmds s.rsps = { u with err := e' } := by rw [← hcmds, ← hrsps]
    exact ⟨e', he'.trans (congrArg (respond v') hports)⟩

/-- Settles O19, from the registers' writers of R40 and what `exec` answers on the port. -/
theorem registersChangeOnlyByTheirWriters : Obligations.RegistersChangeOnlyByTheirWriters := by
  intro i s t h
  have hw := exec_changes_only h
  obtain ⟨t', -, h', hcmds, -, hcfg, -⟩ := exec_answers i s
  cases h.symm.trans h'
  exact ⟨hw .cap, hw .klen, hw .ctrl, hw .m, hw .dlen, hw .pbl, hw .start, hw .seed, hcfg, hcmds⟩

/-- Settles O20, from the writers of R40 and R66. -/
theorem memoriesChangeOnlyByTheirWriters : Obligations.MemoriesChangeOnlyByTheirWriters := by
  intro i s t h
  have hw := exec_changes_only h
  exact ⟨hw .key, hw .tag, hw .data, hw .cover, hw .bq⟩

/-- Settles O21. A failing command leaves the queue; otherwise the two cases of `Effect.queue_cases`. -/
theorem queueIsFirstInFirstOut : Obligations.QueueIsFirstInFirstOut := by
  intro i s t hi h
  rcases exec_next_cases h with ⟨c, -, rfl⟩ | ⟨v, u, hu, rfl⟩
  · exact ⟨[], [], by simp, .inl rfl, id⟩
  rcases hu.queue_cases hi with ⟨k, hq⟩ | ⟨bits, hq, hroom⟩
  · refine ⟨s.bq.take k, [], by simp [hq], .inr rfl, fun hs => ?_⟩
    rw [State.answer_bq, hq, List.length_drop]
    omega
  · refine ⟨[], bits, by simp [hq], .inl rfl, fun _ => ?_⟩
    rw [State.answer_bq, hq, List.length_append]
    exact hroom

/-- Settles O33: the views are `valof` and the length, so each clause is a law of `valof` and `bitsof`. -/
theorem queueViewsDetermineQueue : Obligations.QueueViewsDetermineQueue := by
  intro s hs
  rw [State.reg_bqn_toNat hs, State.reg_bqv_toNat hs]
  have hvalue : Spec.IsValue s.bq (valof s.bq) := ⟨valof_lt s.bq, valof_testBit s.bq⟩
  refine ⟨rfl, hvalue.1, hvalue, ?_, fun h => ?_, fun b hb => ?_, fun k _ => ?_⟩
  · exact (bitsof_valof s.bq).symm.trans (bitsof_eq_map _ _)
  · rw [State.reg_bqv, h]
    rfl
  · rw [State.reg_bqv_toNat (by rw [List.length_append]; exact hb)]
    exact valof_append_single s.bq b
  · rw [State.reg_bqv_toNat ((List.drop_sublist k s.bq).length_le.trans hs)]
    exact valof_drop s.bq k

/-- Settles O11: every field of the state after reset is given, and the two views are those of the empty queue. -/
theorem resetLeavesZeroAndEmptyQueue : Obligations.ResetLeavesZeroAndEmptyQueue := by
  have hreg : ∀ cfg cover data key tag (r : Reg), (State.afterReset cfg cover data key tag).reg r = 0 := by
    intro cfg cover data key tag r
    cases r <;> rfl
  exact ⟨fun cfg cover data key tag => ⟨hreg cfg cover data key tag, rfl, rfl, rfl, rfl, rfl⟩, hreg _ _ _ _ _⟩

/-- Settles O12: the registers and the queue are within their bounds, and the memories are as the hypotheses say. -/
theorem invariantHoldsAfterReset : Obligations.InvariantHoldsAfterReset := by
  have hinv : ∀ (cfg : Config) cover data key tag, Memory.Inv cfg.coverSize cfg.unitWidth cover →
      Memory.Inv cfg.dataSize 8 data → Memory.Inv cfg.keySize 8 key → Memory.Inv 10 8 tag →
      (State.afterReset cfg cover data key tag).Inv := by
    intro cfg cover data key tag hcover hdata hkey htag
    exact { queue := Nat.zero_le _, ctrl := Nat.zero_lt_succ _, err := BitVec.zero_and, cover := hcover,
            data := hdata, key := hkey, tag := htag }
  exact ⟨hinv, hinv _ _ _ _ _ (Memory.Inv.nil _ _) (Memory.Inv.nil _ _) (Memory.Inv.nil _ _) (Memory.Inv.nil _ _)⟩

end Sys2Proof.Proofs.StateRules

/-! PROOFS. The two statements of 20_memory.md: COVER reads back what was last stored (R69, R73), from what a STC and a
LDC that answer `OK` do, and the signed samples (R62), whose reading is the two's-complement value of the unit. -/

namespace Sys2Proof.Machine

theorem zext32_eq_ofNat {w : Nat} (v : BitVec w) : zext32 v = BitVec.ofNat 32 v.toNat :=
  (BitVec.ofNat_toNat 32 v).symm

/-- STC of an index in COVER and a unit of at most `W` bits stores the unit (R123). -/
theorem exec_stc_inside {s : State} {index : Word} {unit : BitVec 16} (hi : index.toNat < s.cfg.coverSize)
    (hu : unit.toNat < 2 ^ s.cfg.unitWidth) :
    exec (.stc index unit) s = respond 0 { s with cover := Memory.write s.cover index.toNat unit } := by
  have hin : s.outsideCover index = false := decide_eq_false (Nat.not_le.mpr hi)
  rw [exec_stc, execStc, hin, if_neg Bool.false_ne_true, if_neg (Nat.not_le.mpr hu)]

/-- LDC answers `OK` exactly for an index in COVER, with the unit there (R124). -/
theorem exec_ldc_eq_respond_iff {s : State} {index v : Word} :
    exec (.ldc index) s = respond v s ↔
      index.toNat < s.cfg.coverSize ∧ v = zext32 (Memory.read s.cover index.toNat) := by
  rw [exec_ldc, execLdc, loadElement]
  split_ifs with h
  · simp [raise, respond, State.answer, Nat.not_lt.mpr h]
  · simp [respond, State.answer, Nat.not_le.mp h, eq_comm]

/-- The signed reading of a unit is its two's-complement value (R62). -/
theorem sampleOfUnit_eq_toInt (u : CoverUnit) : sampleOfUnit u = u.toInt := by
  rw [sampleOfUnit, BitVec.toInt_eq_toNat_cond]
  split_ifs <;> omega

end Sys2Proof.Machine

namespace Sys2Proof.Proofs.MemoryRules

open Sys2Proof Sys2Proof.Machine

/-- Settles O56. The STC wrote the unit, so each LDC after it reads a COVER with one element written. -/
theorem loadAnswersLastStore : Obligations.LoadAnswersLastStore := by
  intro s t i j b hs hstore hi hb
  obtain rfl := Host.Outcome.next.inj (hstore.symm.trans (exec_stc_inside hi hb))
  obtain ⟨hwf, -⟩ := hs.cover
  refine ⟨exec_ldc_eq_respond_iff.mpr ⟨hi, ?_⟩, fun hji v hload => ?_⟩
  · rw [State.answer_cover, Memory.read_write_same _ hwf, zext32_eq_ofNat]
  · obtain ⟨hj, hv⟩ := exec_ldc_eq_respond_iff.mp hload
    have hne : j.toNat ≠ i.toNat := fun h => hji (BitVec.eq_of_toNat_eq h)
    refine exec_ldc_eq_respond_iff.mpr ⟨hj, ?_⟩
    rw [State.answer_cover, Memory.read_write_other _ hwf _ _ _ hne]
    exact hv

/-- Settles O58: `unitOfSample` and `sampleOfUnit` are `BitVec.ofInt` and `BitVec.toInt`, inverse on 16 signed bits. -/
theorem signedSamplesAreUnitPatterns : Obligations.SignedSamplesAreUnitPatterns := by
  refine ⟨fun x hlow hhigh => ⟨?_, ?_⟩, fun u => ?_⟩
  · rw [unitOfSample, BitVec.toNat_ofInt, Int.toNat_of_nonneg (Int.emod_nonneg x (by decide))]
    rfl
  · rw [sampleOfUnit_eq_toInt]
    exact BitVec.toInt_ofInt_eq_self (by decide) hlow (Int.lt_add_one_of_le hhigh)
  · rw [sampleOfUnit_eq_toInt]
    exact BitVec.ofInt_toInt

end Sys2Proof.Proofs.MemoryRules

/-! PROOFS. The statements of 30_encoding.md: the opcode table and `encode` agree in both directions (R91 to R95), so
decoding and encoding invert each other; a step runs the decoded command or refuses the word (R93, R96); and the
commands of SETKEY run one after the other (R103). -/

namespace Sys2Proof

/-! ## The opcode table and `encode` -/

/-- The row of the word's opcode builds the command, where its must-be-zero bits are zero (R93). -/
theorem decode_commandWord {r : Row} {op a : BitVec 8} {b : BitVec 16} {imm : Word} {i : Instr}
    (hr : commandTable.find? (fun q => q.op == op) = some r)
    (hz : r.unusedZero (commandWord op a b imm) = true) (hb : r.build a b imm = i) :
    decode (commandWord op a b imm) = .ok i := by
  have hop : r.op = op := by simpa using List.find?_some hr
  exact (decode_ok_iff _ i).mpr ⟨r, List.mem_of_find?_eq_some hr, by simpa using hop, hz, by simpa using hb.symm⟩

/-- Command by command: the row is found by the opcode, and a well-formed command puts 0 where the row asks for it. -/
theorem decode_encode {i : Instr} (h : i.wellFormed = true) : decode (encode i) = .ok i := by
  cases i
  all_goals
    refine decode_commandWord (hr := rfl) ?_ rfl
    simp_all [Row.unusedZero, Instr.wellFormed]

theorem decode_of_encode_eq {i : Instr} {w : CommandWord} (h : i.wellFormed = true) (hw : encode i = w) :
    decode w = .ok i :=
  hw ▸ decode_encode h

/-- A command built by a row from a word that meets it is well formed, has that word and the row's mnemonic. -/
def Row.BuildsOwnCommand (r : Row) : Prop :=
  ∀ a b imm, r.unusedZero (commandWord r.op a b imm) = true →
    (r.build a b imm).wellFormed = true ∧ encode (r.build a b imm) = commandWord r.op a b imm ∧
      (r.build a b imm).mnemonic = r.mnemonic

/-- Row by row: a field that `build` drops is one that must be zero, and `encode` puts 0 there (R94, R95). -/
theorem commandTable_buildsOwnCommand : ∀ r ∈ commandTable, r.BuildsOwnCommand := by
  intro r hr a b imm hz
  fin_cases hr
  all_goals simp_all [Row.unusedZero, encode, Instr.wellFormed, Instr.mnemonic]

/-- A selected row decodes to the command it builds (R94). -/
theorem decode_of_selects {r : Row} (hr : r ∈ commandTable) {w : CommandWord} (hw : r.selects w = true) :
    decode w = .ok (r.build (aField w) (bField w) (immField w)) := by
  obtain ⟨hop, hz⟩ := (Row.selects_iff r w).mp hw
  exact (decode_ok_iff w _).mpr ⟨r, hr, hop.symm, hz, rfl⟩

/-- What a selected row builds from the word is a command of that word and of that row (R94). -/
theorem build_of_selects {r : Row} (hr : r ∈ commandTable) {w : CommandWord} (hw : r.selects w = true) :
    (r.build (aField w) (bField w) (immField w)).wellFormed = true ∧
      encode (r.build (aField w) (bField w) (immField w)) = w ∧
      (r.build (aField w) (bField w) (immField w)).mnemonic = r.mnemonic := by
  obtain ⟨hop, hz⟩ := (Row.selects_iff r w).mp hw
  have hfields : commandWord r.op (aField w) (bField w) (immField w) = w := by rw [← hop, commandWord_fields]
  have hbuild := commandTable_buildsOwnCommand r hr (aField w) (bField w) (immField w)
  rw [hfields] at hbuild
  exact hbuild hz

/-- A word that decodes selects a row, and the command is the one the row builds (R93, R94). -/
theorem exists_selects_of_decode {w : CommandWord} {i : Instr} (h : decode w = .ok i) :
    ∃ r ∈ commandTable, r.selects w = true ∧ i = r.build (aField w) (bField w) (immField w) := by
  obtain ⟨r, hr, hop, hz, hi⟩ := (decode_ok_iff w i).mp h
  exact ⟨r, hr, (Row.selects_iff r w).mpr ⟨hop.symm, hz⟩, hi⟩

theorem wellFormed_and_encode_of_decode {w : CommandWord} {i : Instr} (h : decode w = .ok i) :
    i.wellFormed = true ∧ encode i = w := by
  obtain ⟨r, hr, hw, rfl⟩ := exists_selects_of_decode h
  obtain ⟨hwf, henc, -⟩ := build_of_selects hr hw
  exact ⟨hwf, henc⟩

/-- A word selects at most one row of the table (R94). -/
theorem selected_row_unique {q r : Row} (hq : q ∈ commandTable) (hr : r ∈ commandTable) {w : CommandWord}
    (hqw : q.selects w = true) (hrw : r.selects w = true) : q = r := by
  obtain ⟨hqop, -⟩ := (Row.selects_iff q w).mp hqw
  obtain ⟨hrop, -⟩ := (Row.selects_iff r w).mp hrw
  exact commandTable_op_inj q hq r hr (hqop.symm.trans hrop)

/-- `selects` written as the equation of R94. -/
theorem Row.selects_iff_and_mask (r : Row) (w : CommandWord) : r.selects w = true ↔ w &&& r.mask = r.pattern :=
  beq_iff_eq

end Sys2Proof

namespace Sys2Proof.Machine

/-! ## A step with a word presented -/

theorem step_of_decode {s : State} {w : CommandWord} {rest : List CommandWord} {i : Instr} (hc : s.cmds = w :: rest)
    (hd : decode w = .ok i) : step s = exec i { s with cmds := rest } := by
  rcases step_cases s with ⟨hidle, -⟩ | ⟨w', rest', i', hc', hd', hstep⟩ | ⟨w', rest', e, hc', hd', -⟩
  · cases hc.symm.trans hidle
  · cases hc.symm.trans hc'
    cases hd.symm.trans hd'
    exact hstep
  · cases hc.symm.trans hc'
    cases hd.symm.trans hd'

/-- A word that selects no row is refused (R93, R96). -/
theorem step_of_no_row_selected {s : State} {w : CommandWord} {rest : List CommandWord} (hc : s.cmds = w :: rest)
    (hw : ∀ r ∈ commandTable, r.selects w ≠ true) : step s = raise .illegalCommand { s with cmds := rest } := by
  rcases step_cases s with ⟨hidle, -⟩ | ⟨w', rest', i, hc', hd, -⟩ | ⟨w', rest', e, hc', -, hstep⟩
  · cases hc.symm.trans hidle
  · cases hc.symm.trans hc'
    obtain ⟨r, hr, hsel, -⟩ := exists_selects_of_decode hd
    exact absurd hsel (hw r hr)
  · cases hc.symm.trans hc'
    exact hstep

/-- A well-formed command whose word waits on the port is the command the step runs. -/
theorem step_of_encode {s : State} {i : Instr} {rest : List CommandWord} (hc : s.cmds = encode i :: rest)
    (h : i.wellFormed = true) : step s = exec i { s with cmds := rest } :=
  step_of_decode hc (decode_encode h)

theorem runs_one (s t : State) : Runs 1 s t ↔ step s = .next t := by
  simp [runs_succ, runs_zero]

/-! ## A byte as field `b`, and SETKEY -/

@[simp] theorem byteOperand_ofByte (x : Byte) : byteOperand (ofByte x) = x := by
  apply BitVec.eq_of_toNat_eq
  simpa [byteOperand, ofByte] using x.isLt

@[simp] theorem byteField_ofByte (x : Byte) : byteField (ofByte x) = true := by
  rw [byteField, beq_iff_eq]
  ext j hj
  simp [ofByte]

@[simp] theorem storeEach_length {α : Type} (store : Word → α → Instr) (i : Nat) (xs : List α) :
    (storeEach store i xs).length = xs.length := by
  induction xs generalizing i with
  | nil => rfl
  | cons x xs ih => simp [storeEach, ih]

/-- STK of an index in KEY and a byte stores the byte (R127). -/
theorem exec_stk_inside {s : State} {index : Word} (hi : index.toNat < s.cfg.keySize) (x : Byte) :
    exec (.stk index (ofByte x)) s = respond 0 { s with key := Memory.write s.key index.toNat x } := by
  rw [exec_stk, execStk, if_neg (Nat.not_le.mpr hi), byteOperand_ofByte]

/-- WRR to KLEN (R27, R121). -/
theorem exec_wrr_klen (v : Word) (s : State) : exec (.wrr 5 v) s = respond 0 { s with klen := v } := rfl

/-- The stores of a key inside KEY from element `i` on, waiting before `rest`: each writes its byte (R127). -/
theorem runs_storeEach_stk (key : List Byte) (s : State) (i : Nat) (rest : List CommandWord)
    (hsize : s.cfg.keySize ≤ 2 ^ 32 - 1) (hfit : i + key.length ≤ s.cfg.keySize) :
    Runs key.length { s with cmds := (storeEach (fun j x => .stk j (ofByte x)) i key).map encode ++ rest }
      { s with
        key := Memory.writeFrom s.key i key, cmds := rest,
        rsps := s.rsps ++ List.replicate key.length ⟨.ok, 0⟩ } := by
  induction key generalizing s i with
  | nil => simp [runs_zero, storeEach, Memory.writeFrom]
  | cons x xs ih =>
    rw [List.length_cons] at hfit
    have hi : (BitVec.ofNat 32 i).toNat = i := by
      rw [BitVec.toNat_ofNat]
      exact Nat.mod_eq_of_lt (by omega)
    have hwf : (Instr.stk (BitVec.ofNat 32 i) (ofByte x)).wellFormed = true := byteField_ofByte x
    have hinside : i < s.cfg.keySize := by omega
    refine (runs_succ _ _ _).mpr
      ⟨_, (step_of_encode rfl hwf).trans (exec_stk_inside (by rw [hi]; exact hinside) x), ?_⟩
    rw [hi]
    have htail := ih { s with key := Memory.write s.key i x, rsps := s.rsps ++ [⟨.ok, 0⟩] } (i + 1) hsize
      (by show i + 1 + xs.length ≤ s.cfg.keySize; omega)
    simpa [List.replicate_succ, Memory.writeFrom, State.answer] using htail

end Sys2Proof.Machine

namespace Sys2Proof.Proofs.EncodingRules

open Sys2Proof Sys2Proof.Machine

/-- Settles O2. A word that decodes to a command is the word of a well-formed one. -/
theorem decodeInvertsEncode : Obligations.DecodeInvertsEncode := by
  refine fun i => ⟨decode_encode, fun hnot w hd => ?_⟩
  obtain ⟨hwf, -⟩ := wellFormed_and_encode_of_decode hd
  cases hwf.symm.trans hnot

/-- Settles O3. -/
theorem encodeInvertsDecode : Obligations.EncodeInvertsDecode :=
  ⟨fun _ _ => wellFormed_and_encode_of_decode, commandWord_toNat⟩

/-- Settles O4: `decode` and the selection of a row read off each other, the opcodes keep the rows apart, and the table
is closed. -/
theorem decodingIsRowSelection : Obligations.DecodingIsRowSelection := by
  simp only [Obligations.DecodingIsRowSelection, ← Row.selects_iff_and_mask]
  refine ⟨fun w i hd => ?_, fun w r hr hw => ?_, fun w r hr q hq hrw hqw => ?_, rfl⟩
  · obtain ⟨r, hr, hw, rfl⟩ := exists_selects_of_decode hd
    obtain ⟨-, -, hm⟩ := build_of_selects hr hw
    exact ⟨r, hr, hw, hm.symm⟩
  · obtain ⟨-, -, hm⟩ := build_of_selects hr hw
    exact ⟨_, decode_of_selects hr hw, hm⟩
  · rw [selected_row_unique hr hq hrw hqw]

/-- Settles O57: the stores, then the WRR to KLEN; `writeFrom` says what the stores leave in KEY. -/
theorem setKeyLoadsKey : Obligations.SetKeyLoadsKey := by
  intro s key hcfg hkey hfit
  obtain ⟨-, -, -, -, -, hsize⟩ := hcfg
  refine ⟨Memory.writeFrom s.key 0 key, List.replicate key.length ⟨.ok, 0⟩ ++ [⟨.ok, 0⟩], ?_,
    Memory.wf_writeFrom key s.key hkey 0, fun i => ?_⟩
  · rw [RunsProgram, pseudoSetKey, List.length_append, storeEach_length, List.map_append, ← List.append_assoc]
    refine (runs_add _ _ _ _).mpr ⟨_, runs_storeEach_stk key s 0 _ hsize (by omega), (runs_one _ _).mpr ?_⟩
    exact (step_of_encode (i := .wrr 5 (BitVec.ofNat 32 key.length)) rfl rfl).trans (exec_wrr_klen _ _)
  · rw [Memory.read_writeFrom key s.key hkey]
    by_cases hi : i < key.length <;> simp [hi]

/-- Settles O1: each worked word is the word of its command, and so decodes to it; the illegal words by evaluation. -/
theorem workedEncodings : Obligations.WorkedEncodings := by
  refine ⟨rfl, decode_of_encode_eq rfl rfl, rfl, decode_of_encode_eq rfl rfl, rfl, decode_of_encode_eq rfl rfl,
    rfl, decode_of_encode_eq rfl rfl, rfl, decode_of_encode_eq rfl rfl, rfl, decode_of_encode_eq rfl rfl,
    rfl, decode_of_encode_eq rfl rfl, rfl, decode_of_encode_eq rfl rfl, rfl, decode_of_encode_eq rfl rfl,
    rfl, rfl, rfl, decode_of_encode_eq rfl rfl, fun _ => rfl⟩

/-- Settles O5. -/
theorem stepRunsDecodedCommand : Obligations.StepRunsDecodedCommand :=
  fun _ _ _ _ => step_of_decode

/-- Settles O6. No row is selected: its opcode is not the word's, or it is the one row of that opcode, whose mask the
word does not meet. -/
theorem illegalWordSetsOnlyErr : Obligations.IllegalWordSetsOnlyErr := by
  refine ⟨fun s w rest hc hillegal => step_of_no_row_selected hc fun q hq hsel => ?_, rfl, by decide⟩
  obtain ⟨hqop, -⟩ := (Row.selects_iff q w).mp hsel
  rcases hillegal with hop | ⟨r, hr, hrop, hmask⟩
  · exact hop q hq hqop.symm
  · obtain rfl := commandTable_op_inj q hq r hr (hqop.symm.trans hrop.symm)
    exact hmask ((Row.selects_iff_and_mask q w).mp hsel)

end Sys2Proof.Proofs.EncodingRules

/-! PROOFS. The statements of 40_host_access.md. Every command ends by `respond` or `raise`, which are the next states
`ok` and `failed` of the statements; a command has its own word alone; and a lemma per command says what it stores or
answers inside its bounds and that it fails outside them (R121 to R130). -/

namespace Sys2Proof

/-! ## The one word of a command -/

theorem decode_eq_ok_iff {w : CommandWord} {i : Instr} : decode w = .ok i ↔ i.wellFormed = true ∧ w = encode i := by
  constructor
  · intro h
    obtain ⟨hwf, henc⟩ := wellFormed_and_encode_of_decode h
    exact ⟨hwf, henc.symm⟩
  · rintro ⟨hwf, rfl⟩
    exact decode_encode hwf

/-- `b[15:8]` is zero exactly for a number below 256 (R94). -/
theorem byteField_iff_lt {b : BitVec 16} : byteField b = true ↔ b.toNat < 256 := by
  rw [byteField, beq_iff_eq, ← BitVec.toNat_inj, BitVec.extractLsb'_toNat, Nat.shiftRight_eq_div_pow]
  have hb := b.isLt
  show b.toNat / 2 ^ 8 % 2 ^ 8 = 0 ↔ _
  omega

variable {i : Instr} {op a : BitVec 8} {b : BitVec 16} {imm : Word}

theorem onlyWord_of_encode (hwf : i.wellFormed = true) (hw : encode i = commandWord op a b imm) :
    Spec.OnlyWord i op a b imm := by
  intro w
  rw [decode_eq_ok_iff, hw]
  exact and_iff_right hwf

theorem onlyByteWord_of_encode (hwf : i.wellFormed = byteField b) (hw : encode i = commandWord op 0 b imm) :
    Spec.OnlyByteWord i op b imm := by
  intro w
  rw [decode_eq_ok_iff, hw, hwf, byteField_iff_lt]

end Sys2Proof

namespace Sys2Proof.Machine

/-! ## The next states of the statements -/

theorem respond_eq_ok (v : Word) (s : State) : respond v s = .next (Spec.ok s v) := rfl

theorem raise_eq_failed {c : Status} (hc : c ≠ .ok) (s : State) : raise c s = .next (Spec.failed s c) := by
  cases c with
  | ok => exact absurd rfl hc
  | _ => rfl

theorem raise_range_eq_failed (s : State) : raise .range s = .next (Spec.failed s .range) :=
  raise_eq_failed (by decide) s

theorem raise_illegalCommand_eq_failed (s : State) :
    raise .illegalCommand s = .next (Spec.failed s .illegalCommand) :=
  raise_eq_failed (by decide) s

theorem updated_write {w : Nat} {mem : Memory w} (h : Memory.wf mem) (i : Nat) (v : BitVec w) :
    Spec.Updated mem (Memory.write mem i v) i v :=
  ⟨Memory.wf_write mem h i v, Memory.read_write mem h i v⟩

/-! ## WRR and RDR -/

theorem regOfNumber_number (r : Reg) : regOfNumber r.number = some r := regOfNumber_eq_some_iff.mpr rfl

/-- The numbers above 10 name no register (R99). -/
theorem regOfNumber_of_gt {a : BitVec 8} (h : 10 < a.toNat) : regOfNumber a = none := by
  rw [Option.eq_none_iff_forall_ne_some]
  intro r hr
  obtain rfl := regOfNumber_eq_some_iff.mp hr
  revert h
  cases r <;> decide

theorem exec_wrr_of_writable {r : Reg} (h : hostWritable r = true) (v : Word) (s : State) :
    exec (.wrr r.number v) s = .next (Spec.ok (s.setReg r v) 0) := by
  simp [exec_wrr, execWrr, regOfNumber_number, h, respond_eq_ok]

theorem exec_wrr_of_readOnly {r : Reg} (h : hostWritable r = false) (v : Word) (s : State) :
    exec (.wrr r.number v) s = .next (Spec.failed s .illegalCommand) := by
  simp [exec_wrr, execWrr, regOfNumber_number, h, raise_illegalCommand_eq_failed]

theorem exec_wrr_of_gt {reg : BitVec 8} (h : 10 < reg.toNat) (v : Word) (s : State) :
    exec (.wrr reg v) s = .next (Spec.failed s .illegalCommand) := by
  simp [exec_wrr, execWrr, regOfNumber_of_gt h, raise_illegalCommand_eq_failed]

theorem exec_rdr_number (r : Reg) (s : State) : exec (.rdr r.number) s = .next (Spec.ok s (s.reg r)) := by
  simp only [exec_rdr, execRdr, regOfNumber_number, respond_eq_ok]

theorem exec_rdr_of_gt {reg : BitVec 8} (h : 10 < reg.toNat) (s : State) :
    exec (.rdr reg) s = .next (Spec.failed s .illegalCommand) := by
  simp only [exec_rdr, execRdr, regOfNumber_of_gt h, raise_illegalCommand_eq_failed]

/-- Of a number below 4 bits 31 to 2 are 0: the reserved bits of CTRL (R22). -/
theorem and_ctrlReserved_of_lt {v : Word} (h : v.toNat < 4) : v &&& 0xFFFFFFFC#32 = 0 := by
  have hall : ∀ n < 4, BitVec.ofNat 32 n &&& 0xFFFFFFFC#32 = 0 := by decide
  simpa using hall v.toNat h

/-! ## The stores and the loads -/

section Stores

variable {s : State} {index : Word} {unit b : BitVec 16}

theorem exec_stc_outside (h : s.cfg.coverSize ≤ index.toNat ∨ 2 ^ s.cfg.unitWidth ≤ unit.toNat) :
    exec (.stc index unit) s = .next (Spec.failed s .range) := by
  rw [exec_stc, execStc, raise_range_eq_failed]
  rcases h with hindex | hunit
  · exact if_pos (decide_eq_true hindex)
  · rw [if_pos hunit, ite_self]

/-- The byte operand is `b` modulo 256 (R101). -/
theorem byteOperand_eq_ofNat (b : BitVec 16) : byteOperand b = BitVec.ofNat 8 b.toNat := by
  apply BitVec.eq_of_toNat_eq
  simp [byteOperand]

theorem exec_std_outside (h : s.cfg.dataSize ≤ index.toNat) :
    exec (.std index b) s = .next (Spec.failed s .range) := by
  rw [exec_std, execStd, if_pos h, raise_range_eq_failed]

theorem exec_stk_outside (h : s.cfg.keySize ≤ index.toNat) :
    exec (.stk index b) s = .next (Spec.failed s .range) := by
  rw [exec_stk, execStk, if_pos h, raise_range_eq_failed]

theorem exec_stt_outside (h : tagBytes ≤ index.toNat) :
    exec (.stt index b) s = .next (Spec.failed s .range) := by
  rw [exec_stt, execStt, if_pos h, raise_range_eq_failed]

theorem exec_std_stores (h : index.toNat < s.cfg.dataSize) : exec (.std index b) s =
    .next (Spec.ok { s with data := Memory.write s.data index.toNat (BitVec.ofNat 8 b.toNat) } 0) := by
  rw [exec_std, execStd, if_neg (Nat.not_le.mpr h), byteOperand_eq_ofNat, respond_eq_ok]

theorem exec_stk_stores (h : index.toNat < s.cfg.keySize) : exec (.stk index b) s =
    .next (Spec.ok { s with key := Memory.write s.key index.toNat (BitVec.ofNat 8 b.toNat) } 0) := by
  rw [exec_stk, execStk, if_neg (Nat.not_le.mpr h), byteOperand_eq_ofNat, respond_eq_ok]

theorem exec_stt_stores (h : index.toNat < tagBytes) : exec (.stt index b) s =
    .next (Spec.ok { s with tag := Memory.write s.tag index.toNat (BitVec.ofNat 8 b.toNat) } 0) := by
  rw [exec_stt, execStt, if_neg (Nat.not_le.mpr h), byteOperand_eq_ofNat, respond_eq_ok]

end Stores

/-- The four loads: the element as a number inside the memory, `RANGE` outside (R71, R124, R126, R128, R130). -/
theorem loadElement_eq {w : Nat} (size : Nat) (mem : Memory w) (index : Word) (s : State) :
    loadElement size mem index s = .next (if index.toNat < size
      then Spec.ok s (BitVec.ofNat 32 (Memory.read mem index.toNat).toNat) else Spec.failed s .range) := by
  rw [loadElement, raise_range_eq_failed, respond_eq_ok, zext32_eq_ofNat]
  by_cases h : index.toNat < size
  · rw [if_pos h, if_neg (Nat.not_le.mpr h)]
  · rw [if_neg h, if_pos (Nat.not_lt.mp h)]

end Sys2Proof.Machine

namespace Sys2Proof.Proofs.HostAccessRules

open Sys2Proof Sys2Proof.Machine

/-- Settles O24: outside the bounds `RANGE`, inside them one write to COVER. -/
theorem stcStoresUnit : Obligations.StcStoresUnit := by
  intro s index unit hwf
  exact ⟨onlyWord_of_encode rfl rfl, exec_stc_outside, fun hindex hunit =>
    ⟨_, exec_stc_inside hindex hunit, updated_write hwf _ _⟩⟩

/-- Settles O25: memory by memory, outside it `RANGE`, inside it one write. -/
theorem byteStoresWriteOneByte : Obligations.ByteStoresWriteOneByte := by
  intro s index b hdata hkey htag
  refine ⟨onlyByteWord_of_encode rfl rfl, onlyByteWord_of_encode rfl rfl, onlyByteWord_of_encode rfl rfl,
    exec_std_outside, exec_stk_outside, exec_stt_outside, fun h => ?_, fun h => ?_, fun h => ?_⟩
  · exact ⟨_, exec_std_stores h, updated_write hdata _ _⟩
  · exact ⟨_, exec_stk_stores h, updated_write hkey _ _⟩
  · exact ⟨_, exec_stt_stores h, updated_write htag _ _⟩

/-- Settles O22: each register by its number, and the numbers WRR refuses are the two read-only views' and those that
name no register. -/
theorem wrrStoresRegister : Obligations.WrrStoresRegister := by
  intro s reg value
  have hstores {r : Reg} (h : hostWritable r = true) := exec_wrr_of_writable h value s
  refine ⟨onlyWord_of_encode rfl rfl, hstores (r := .ctrl) rfl, hstores (r := .m) rfl, hstores (r := .cap) rfl,
    hstores (r := .pbl) rfl, hstores (r := .dlen) rfl, hstores (r := .klen) rfl, hstores (r := .seed) rfl,
    hstores (r := .start) rfl, hstores (r := .err) rfl, ?_⟩
  rintro (hbqv | hbqn | hnone)
  · obtain rfl : reg = Reg.bqv.number := BitVec.eq_of_toNat_eq hbqv
    exact exec_wrr_of_readOnly rfl value s
  · obtain rfl : reg = Reg.bqn.number := BitVec.eq_of_toNat_eq hbqn
    exact exec_wrr_of_readOnly rfl value s
  · exact exec_wrr_of_gt hnone value s

/-- Settles O23: each register by its number; the two views are the value and the length of a queue within its depth
(R31, R32). -/
theorem rdrReadsRegister : Obligations.RdrReadsRegister := by
  intro s reg
  have hreads (r : Reg) := exec_rdr_number r s
  refine ⟨onlyWord_of_encode rfl rfl, hreads .ctrl, hreads .m, hreads .cap, hreads .pbl, hreads .dlen, hreads .klen,
    hreads .seed, hreads .start, hreads .err, fun hq => ?_, fun hinv => ?_, fun h => exec_rdr_of_gt h s⟩
  · refine ⟨⟨_, hreads .bqv, ?_⟩, _, hreads .bqn, State.reg_bqn_toNat hq⟩
    rw [State.reg_bqv_toNat hq]
    exact ⟨valof_lt s.bq, valof_testBit s.bq⟩
  · exact ⟨and_ctrlReserved_of_lt hinv.ctrl, hinv.err⟩

/-- Settles O26: each load is `loadElement` of its memory, and the invariant bounds the units of COVER. -/
theorem loadsAnswerTheElement : Obligations.LoadsAnswerTheElement := by
  intro s index
  exact ⟨onlyWord_of_encode rfl rfl, onlyWord_of_encode rfl rfl, onlyWord_of_encode rfl rfl,
    onlyWord_of_encode rfl rfl, loadElement_eq _ s.cover index s, loadElement_eq _ s.data index s,
    loadElement_eq _ s.key index s, loadElement_eq _ s.tag index s, fun hinv => hinv.cover.read_lt index.toNat⟩

end Sys2Proof.Proofs.HostAccessRules

/-! PROOFS. The statements of 41_bitpacker.md. A lemma per outcome of a command, its checks in the order of the spec,
gives its next state (R147 to R153); the rest is the laws of `bitsof`, `valof`, `packUnit` and `unpackUnit`. -/

namespace Sys2Proof.Machine

/-! ## Bits and values in the words of the statements -/

theorem bitsof_eq_bitList (k v : Nat) : bitsof k v = Spec.bitList k v := bitsof_eq_map k v

theorem unpackUnit_eq_bitList (u : CoverUnit) (k : Nat) : unpackUnit u k = Spec.bitList k u.toNat := by
  rw [unpackUnit, bitsof_mod, bitsof_eq_bitList]

/-- Up to 32 bits, a response value holds the number they are (R15, R92). -/
theorem isValue_valof {bits : List Bool} (h : bits.length ≤ 32) :
    Spec.IsValue bits (BitVec.ofNat 32 (valof bits)).toNat := by
  have hfits : valof bits < 2 ^ 32 := (valof_lt bits).trans_le (Nat.pow_le_pow_right (by decide) h)
  rw [BitVec.toNat_ofNat, Nat.mod_eq_of_lt hfits]
  exact ⟨valof_lt bits, valof_testBit bits⟩

/-- `packUnit` by the queue its bits are the `k` oldest of (R142, R146). -/
theorem packUnit_take_getLsbD (u : CoverUnit) {bits : List Bool} {k : Nat} (hbits : k ≤ bits.length) (hk : k ≤ 16)
    (j : Nat) : (packUnit u (bits.take k)).getLsbD j =
      if j < k then bits.getD (k - 1 - j) false else u.getLsbD j := by
  rw [packUnit_getD u _ (List.length_take_of_le hbits) hk]
  refine if_ctx_congr Iff.rfl (fun hj => ?_) fun _ => rfl
  rw [List.getD_eq_getElem?_getD, List.getElem?_take_of_lt (by omega), List.getD_eq_getElem?_getD]

/-! ## The checks, passed -/

theorem State.not_noRoom {s : State} {k : Nat} (h : s.bq.length + k ≤ 32) : ¬s.noRoom k = true :=
  mt (s.noRoom_iff k).mp (Nat.not_lt.mpr h)

theorem State.not_tooFew {s : State} {k : Nat} (h : k ≤ s.bq.length) : ¬s.tooFew k = true :=
  mt (s.tooFew_iff k).mp (Nat.not_lt.mpr h)

theorem State.not_outsideCover {s : State} {index : Word} (h : index.toNat < s.cfg.coverSize) :
    ¬s.outsideCover index = true :=
  mt (s.outsideCover_iff index).mp (Nat.not_le.mpr h)

/-! ## The outcomes of PUSHB and POPB -/

section Bytes

variable {s : State}

theorem exec_pushb_full (b : BitVec 16) (h : 32 < s.bq.length + 8) :
    exec (.pushb b) s = .next (Spec.failed s .bqFault) := by
  rw [exec_pushb, execPushb, if_pos ((s.noRoom_iff 8).mpr h)]
  exact raise_eq_failed (by decide) s

theorem exec_pushb_appends (b : BitVec 16) (h : s.bq.length + 8 ≤ 32) : exec (.pushb b) s =
    .next (Spec.ok { s with bq := s.bq ++ bitsof 8 (b.toNat % 256) } 0) := by
  rw [exec_pushb, execPushb, if_neg (State.not_noRoom h), byteOperand_eq_ofNat, BitVec.toNat_ofNat]
  rfl

theorem exec_popb_short (h : s.bq.length < 8) : exec .popb s = .next (Spec.failed s .malformedPayload) := by
  rw [exec_popb, execPopb, if_pos ((s.tooFew_iff 8).mpr h)]
  exact raise_eq_failed (by decide) s

theorem exec_popb_takes (h : 8 ≤ s.bq.length) : exec .popb s =
    .next (Spec.ok { s with bq := s.bq.drop 8 } (BitVec.ofNat 32 (valof (s.bq.take 8)))) := by
  rw [exec_popb, execPopb, if_neg (State.not_tooFew h)]
  rfl

/-- POPB on a queue of exactly one byte's bits. -/
theorem exec_popb_of_bitsof {v : Nat} (hq : s.bq = bitsof 8 v) (hv : v < 2 ^ 8) :
    exec .popb s = .next (Spec.ok { s with bq := [] } (BitVec.ofNat 32 v)) := by
  have hlen : s.bq.length = 8 := by rw [hq, bitsof_length]
  rw [exec_popb_takes hlen.ge, List.drop_of_length_le hlen.le, List.take_of_length_le hlen.le, hq,
    valof_bitsof_of_lt hv]

end Bytes

/-! ## The outcomes of PUSHV and POPV -/

section Values

variable {s : State} {k : BitVec 8} {value : Word}

theorem not_validWidth (h : k.toNat < 1 ∨ 32 < k.toNat) : ¬validWidth k = true := by
  rw [validWidth_iff]
  omega

theorem exec_pushv_outside (h : k.toNat < 1 ∨ 32 < k.toNat ∨ 2 ^ k.toNat ≤ value.toNat) :
    exec (.pushv k value) s = .next (Spec.failed s .range) := by
  rw [exec_pushv, execPushv, raise_range_eq_failed]
  by_cases hvalue : 2 ^ k.toNat ≤ value.toNat
  · rw [if_pos hvalue, ite_self]
  · exact if_neg (not_validWidth (h.imp_right fun h => h.resolve_right hvalue))

theorem exec_popv_outside (h : k.toNat < 1 ∨ 32 < k.toNat) : exec (.popv k) s = .next (Spec.failed s .range) := by
  rw [exec_popv, execPopv, if_neg (not_validWidth h), raise_range_eq_failed]

variable (hpos : 1 ≤ k.toNat) (hwidth : k.toNat ≤ 32)
include hpos hwidth

theorem exec_pushv_full (hvalue : value.toNat < 2 ^ k.toNat) (h : 32 < s.bq.length + k.toNat) :
    exec (.pushv k value) s = .next (Spec.failed s .bqFault) := by
  rw [exec_pushv, execPushv, if_pos ((validWidth_iff k).mpr ⟨hpos, hwidth⟩), if_neg (Nat.not_le.mpr hvalue),
    if_pos ((s.noRoom_iff _).mpr h)]
  exact raise_eq_failed (by decide) s

theorem exec_pushv_appends (hvalue : value.toNat < 2 ^ k.toNat) (h : s.bq.length + k.toNat ≤ 32) :
    exec (.pushv k value) s = .next (Spec.ok { s with bq := s.bq ++ bitsof k.toNat value.toNat } 0) := by
  rw [exec_pushv, execPushv, if_pos ((validWidth_iff k).mpr ⟨hpos, hwidth⟩), if_neg (Nat.not_le.mpr hvalue),
    if_neg (State.not_noRoom h)]
  rfl

theorem exec_popv_short (h : s.bq.length < k.toNat) : exec (.popv k) s = .next (Spec.failed s .bqFault) := by
  rw [exec_popv, execPopv, if_pos ((validWidth_iff k).mpr ⟨hpos, hwidth⟩), if_pos ((s.tooFew_iff _).mpr h)]
  exact raise_eq_failed (by decide) s

theorem exec_popv_takes (h : k.toNat ≤ s.bq.length) : exec (.popv k) s =
    .next (Spec.ok { s with bq := s.bq.drop k.toNat } (BitVec.ofNat 32 (valof (s.bq.take k.toNat)))) := by
  rw [exec_popv, execPopv, if_pos ((validWidth_iff k).mpr ⟨hpos, hwidth⟩), if_neg (State.not_tooFew h)]
  rfl

/-- POPV on a queue of exactly the `k` bits of a value. -/
theorem exec_popv_of_bitsof (hq : s.bq = bitsof k.toNat value.toNat) (hvalue : value.toNat < 2 ^ k.toNat) :
    exec (.popv k) s = .next (Spec.ok { s with bq := [] } value) := by
  have hlen : s.bq.length = k.toNat := by rw [hq, bitsof_length]
  rw [exec_popv_takes hpos hwidth hlen.ge, List.drop_of_length_le hlen.le, List.take_of_length_le hlen.le, hq,
    valof_bitsof_of_lt hvalue, BitVec.ofNat_toNat, BitVec.setWidth_eq]

end Values

/-! ## The outcomes of PACK and UNPACK -/

section Units

variable {s : State} {k : BitVec 8} {index : Word}

theorem not_validCount (h : k.toNat < 1 ∨ s.cfg.mMax < k.toNat) : ¬validCount s k = true := by
  rw [validCount_iff]
  omega

theorem exec_pack_badCount (h : k.toNat < 1 ∨ s.cfg.mMax < k.toNat) :
    exec (.pack k index) s = .next (Spec.failed s .invalidParameterM) := by
  rw [exec_pack, execPack, if_neg (not_validCount h)]
  exact raise_eq_failed (by decide) s

theorem exec_unpack_badCount (h : k.toNat < 1 ∨ s.cfg.mMax < k.toNat) :
    exec (.unpack k index) s = .next (Spec.failed s .invalidParameterM) := by
  rw [exec_unpack, execUnpack, if_neg (not_validCount h)]
  exact raise_eq_failed (by decide) s

variable (hpos : 1 ≤ k.toNat) (hmax : k.toNat ≤ s.cfg.mMax)
include hpos hmax

theorem exec_pack_outside (h : s.cfg.coverSize ≤ index.toNat) :
    exec (.pack k index) s = .next (Spec.failed s .range) := by
  rw [exec_pack, execPack, if_pos ((validCount_iff s k).mpr ⟨hpos, hmax⟩), if_pos ((s.outsideCover_iff index).mpr h),
    raise_range_eq_failed]

theorem exec_unpack_outside (h : s.cfg.coverSize ≤ index.toNat) :
    exec (.unpack k index) s = .next (Spec.failed s .range) := by
  rw [exec_unpack, execUnpack, if_pos ((validCount_iff s k).mpr ⟨hpos, hmax⟩),
    if_pos ((s.outsideCover_iff index).mpr h), raise_range_eq_failed]

variable (hindex : index.toNat < s.cfg.coverSize)
include hindex

theorem exec_pack_short (h : s.bq.length < k.toNat) : exec (.pack k index) s = .next (Spec.failed s .bqFault) := by
  rw [exec_pack, execPack, if_pos ((validCount_iff s k).mpr ⟨hpos, hmax⟩), if_neg (State.not_outsideCover hindex),
    if_pos ((s.tooFew_iff _).mpr h)]
  exact raise_eq_failed (by decide) s

theorem exec_pack_writes (h : k.toNat ≤ s.bq.length) : exec (.pack k index) s =
    .next (Spec.ok { s with
      bq := s.bq.drop k.toNat
      cover := Memory.write s.cover index.toNat
        (packUnit (Memory.read s.cover index.toNat) (s.bq.take k.toNat)) } 0) := by
  rw [exec_pack, execPack, if_pos ((validCount_iff s k).mpr ⟨hpos, hmax⟩), if_neg (State.not_outsideCover hindex),
    if_neg (State.not_tooFew h)]
  rfl

theorem exec_unpack_full (h : 32 < s.bq.length + k.toNat) :
    exec (.unpack k index) s = .next (Spec.failed s .bqFault) := by
  rw [exec_unpack, execUnpack, if_pos ((validCount_iff s k).mpr ⟨hpos, hmax⟩),
    if_neg (State.not_outsideCover hindex), if_pos ((s.noRoom_iff _).mpr h)]
  exact raise_eq_failed (by decide) s

theorem exec_unpack_appends (h : s.bq.length + k.toNat ≤ 32) : exec (.unpack k index) s =
    .next (Spec.ok { s with bq := s.bq ++ unpackUnit (Memory.read s.cover index.toNat) k.toNat } 0) := by
  rw [exec_unpack, execUnpack, if_pos ((validCount_iff s k).mpr ⟨hpos, hmax⟩),
    if_neg (State.not_outsideCover hindex), if_neg (State.not_noRoom h)]
  rfl

end Units

end Sys2Proof.Machine

namespace Sys2Proof.Proofs.BitPackerRules

open Sys2Proof Sys2Proof.Machine

/-- Settles O28: the eight bits are a value a response holds. -/
theorem popbTakesOneByte : Obligations.PopbTakesOneByte := by
  intro s
  refine ⟨onlyWord_of_encode rfl rfl, exec_popb_short, fun h => ⟨_, exec_popb_takes h, isValue_valof ?_⟩⟩
  rw [List.length_take_of_le h]
  decide

/-- Settles O29, outcome by outcome. -/
theorem pushvAppendsValue : Obligations.PushvAppendsValue := by
  intro s k value
  refine ⟨onlyWord_of_encode rfl rfl, exec_pushv_outside, fun hpos hwidth hvalue =>
    ⟨exec_pushv_full hpos hwidth hvalue, fun h => ?_⟩⟩
  rw [exec_pushv_appends hpos hwidth hvalue h, bitsof_eq_bitList]

/-- Settles O30: at most 32 bits are a value a response holds. -/
theorem popvTakesValue : Obligations.PopvTakesValue := by
  intro s k
  refine ⟨onlyWord_of_encode rfl rfl, exec_popv_outside, fun hpos hwidth =>
    ⟨exec_popv_short hpos hwidth, fun h => ⟨_, exec_popv_takes hpos hwidth h, isValue_valof ?_⟩⟩⟩
  rwa [List.length_take_of_le h]

/-- Settles O31: one write to COVER, of a unit `packUnit` gives bit by bit. -/
theorem packReplacesLowBits : Obligations.PackReplacesLowBits := by
  intro s k index hwf
  refine ⟨onlyWord_of_encode rfl rfl, exec_pack_badCount, fun hpos hmax =>
    ⟨exec_pack_outside hpos hmax, fun hindex => ⟨exec_pack_short hpos hmax hindex, fun h => ?_⟩⟩⟩
  exact ⟨_, _, exec_pack_writes hpos hmax hindex h, updated_write hwf _ _,
    packUnit_take_getLsbD _ h (hmax.trans (mMax_le s.cfg))⟩

/-- Settles O32, outcome by outcome. -/
theorem unpackAppendsLowBits : Obligations.UnpackAppendsLowBits := by
  intro s k index
  refine ⟨onlyWord_of_encode rfl rfl, exec_unpack_badCount, fun hpos hmax =>
    ⟨exec_unpack_outside hpos hmax, fun hindex => ⟨exec_unpack_full hpos hmax hindex, fun h => ?_⟩⟩⟩
  rw [exec_unpack_appends hpos hmax hindex h, unpackUnit_eq_bitList]

/-- Settles O34. From an empty queue the push leaves just the operand's bits, which the pop takes; PACK of the whole
queue leaves a unit whose low bits are that queue. -/
theorem pushPopAndPackUnpackComeBack : Obligations.PushPopAndPackUnpackComeBack := by
  refine ⟨fun s b hempty hb => ?_, fun s k v hempty hpos hwidth hv => ?_,
    fun s k index hwf hlen hpos hmax hindex => ?_⟩
  · refine ⟨_, _, exec_pushb_appends b (by simp [hempty]), exec_popb_of_bitsof ?_ hb, rfl⟩
    show s.bq ++ bitsof 8 (b.toNat % 256) = bitsof 8 b.toNat
    rw [hempty, List.nil_append, Nat.mod_eq_of_lt hb]
  · refine ⟨_, _, exec_pushv_appends hpos hwidth hv (by simpa [hempty] using hwidth),
      exec_popv_of_bitsof hpos hwidth ?_ hv, rfl⟩
    show s.bq ++ bitsof k.toNat v.toNat = bitsof k.toNat v.toNat
    rw [hempty, List.nil_append]
  · have hk : k.toNat ≤ 16 := hmax.trans (mMax_le s.cfg)
    have hpack := exec_pack_writes hpos hmax hindex hlen.ge
    rw [List.drop_of_length_le hlen.le, List.take_of_length_le hlen.le] at hpack
    refine ⟨_, _, hpack, rfl, exec_unpack_appends hpos hmax hindex ?_, ?_, rfl⟩
    · show 0 + k.toNat ≤ 32
      omega
    · show [] ++ unpackUnit (Memory.read (Memory.write s.cover index.toNat _) index.toNat) k.toNat = s.bq
      rw [Memory.read_write_same _ hwf, List.nil_append, ← hlen, unpackUnit_packUnit _ _ (hlen.trans_le hk)]

/-- Settles O35, from the laws of `bytesToBits` and the two cases of `bitsToBytes_spec`. -/
theorem bytesAndBitsAreInverse : Obligations.BytesAndBitsAreInverse := by
  refine ⟨fun xs i hi => ?_, fun xs => ⟨bytesToBits_length xs, bitsToBytes_bytesToBits xs⟩, fun bits h => ?_,
    fun bits h => ?_⟩
  · rw [← bytesToBits_length] at hi
    rw [← bytesToBits_getElem xs i hi]
    exact List.getD_eq_getElem _ _ hi
  · exact (bitsToBytes_spec _ bits le_rfl).resolve_left fun hbroken => hbroken.1 h
  · rcases bitsToBytes_spec _ bits le_rfl with ⟨-, hnone⟩ | ⟨xs, -, rfl⟩
    · exact hnone
    · exact absurd (by rw [bytesToBits_length, Nat.mul_mod_right]) h

/-- Settles O27: BQCLR has one outcome, PUSHB two. -/
theorem bqclrEmptiesAndPushbAppends : Obligations.BqclrEmptiesAndPushbAppends := by
  intro s b
  refine ⟨onlyWord_of_encode rfl rfl, onlyByteWord_of_encode rfl rfl, ?_, exec_pushb_full b, fun h => ?_⟩
  · rw [exec_bqclr, execBqclr, respond_eq_ok]
  · rw [exec_pushb_appends b h, bitsof_eq_bitList]

end Sys2Proof.Proofs.BitPackerRules

/-! PROOFS. The statements of 42_keystream.md. `deriveSeed` is the recurrence of R170 (DSEED, SEEDACC, SEEDTEXT); ENC and
DEC are one command, `execCipher`, of two ciphers that work byte by byte and undo each other (R172 to R174). -/

namespace Sys2Proof.Machine

/-! ## The seed -/

theorem deriveSeed_toNat {text : List Word} {f : Nat → Nat} (hf : ∀ i (h : i < text.length), text[i].toNat = f i) :
    (deriveSeed text).toNat = Spec.seedOf f text.length := by
  induction text using List.reverseRecOn with
  | nil => rfl
  | append_singleton text c ih =>
    have hlast : c.toNat = f text.length := by simpa using hf text.length (by simp)
    have hinit : ∀ i (h : i < text.length), text[i].toNat = f i := fun i h => by
      rw [← hf i (by simp; omega), List.getElem_append_left h]
    rw [deriveSeed_snoc, seedStep_toNat, ih hinit, hlast, List.length_append]
    rfl

/-- The seed of the key in use, in the words of the statements (R175, R179). -/
theorem deriveSeedOfBytes_keyWindow (s : State) : deriveSeedOfBytes s.keyWindow = Spec.keySeed s := by
  have hlen : (s.keyWindow.map zext32).length = s.klen.toNat := by
    rw [List.length_map, State.keyWindow, Memory.window_length]
  have hbyte : ∀ i (h : i < (s.keyWindow.map zext32).length),
      (s.keyWindow.map zext32)[i].toNat = (Memory.read s.key i).toNat := fun i h => by
    have hlt := (Memory.read s.key i).isLt
    simp only [List.getElem_map, State.keyWindow, Memory.window_getElem, zext32_eq_ofNat, BitVec.toNat_ofNat]
    omega
  rw [Spec.keySeed, ← hlen, ← deriveSeed_toNat hbyte, BitVec.ofNat_toNat, BitVec.setWidth_eq]
  rfl

/-- The SEEDACC commands of a text, waiting alone on the port, fold it into SEED (R176). -/
theorem runs_seedacc_text (text : List Word) (s : State) (hc : s.cmds = (text.map Instr.seedacc).map encode) :
    ∃ t, Runs text.length s t ∧ t.seed = text.foldl seedStep s.seed := by
  induction text generalizing s with
  | nil => exact ⟨s, (runs_zero s s).mpr rfl, rfl⟩
  | cons c text ih =>
    have hstep := step_of_encode (i := .seedacc c) hc rfl
    rw [exec_seedacc, execSeedacc, respond_eq_ok] at hstep
    obtain ⟨t, hrun, hseed⟩ := ih (Spec.ok { s with
      seed := seedStep s.seed c, cmds := (text.map Instr.seedacc).map encode } (seedStep s.seed c)) rfl
    exact ⟨t, (runs_succ _ _ _).mpr ⟨_, hstep, hrun⟩, hseed⟩

/-! ## ENC and DEC -/

/-- ENC and DEC with the cipher left open (R177, R178). -/
def execCipher (cipher : List Byte → List Byte → Except Status (List Byte)) (s : State) : Result :=
  if s.lengthsOutside then raise .range s
  else
    match cipher s.dataWindow s.keyWindow with
    | .error c => raise c s
    | .ok bytes => respond 0 { s with data := Memory.writeFrom s.data 0 bytes }

theorem exec_enc_eq_execCipher (s : State) : exec .enc s = execCipher encrypt s := rfl

theorem exec_dec_eq_execCipher (s : State) : exec .dec s = execCipher decrypt s := rfl

/-- `cipher` fails for the empty key alone, and otherwise makes `g x k` of each byte `x` and its key byte `k` (R171). -/
def IsBytewise (cipher : List Byte → List Byte → Except Status (List Byte)) (g : Nat → Nat → Nat) : Prop :=
  ∀ data key, (key = [] ∧ cipher data key = .error .emptyKey) ∨
    (key ≠ [] ∧ ∃ out, cipher data key = .ok out ∧ out.length = data.length ∧
      ∀ i (_ : i < out.length) (_ : i < data.length),
        out[i].toNat = g data[i].toNat (key.getD (i % key.length) 0).toNat)

theorem encrypt_isBytewise : IsBytewise encrypt (fun x k => (x + k) % 256) := encrypt_spec

theorem decrypt_isBytewise : IsBytewise decrypt (fun x k => (x + 256 - k) % 256) := decrypt_spec

theorem keyWindow_getD_mod {s : State} (h : s.klen.toNat ≠ 0) (i : Nat) :
    (s.keyWindow.getD (i % s.keyWindow.length) 0).toNat = Spec.keyByte s i := by
  have hlen : s.keyWindow.length = s.klen.toNat := Memory.window_length _ _
  rw [hlen, State.keyWindow_getD s _ (Nat.mod_lt i (Nat.pos_of_ne_zero h)), Spec.keyByte]

/-- A window written back after a write of as many elements restores the memory. -/
theorem Memory.writeFrom_window {w : Nat} {mem : Memory w} (h : Memory.wf mem) {n : Nat} {vs : List (BitVec w)}
    (hl : vs.length = n) : Memory.writeFrom (Memory.writeFrom mem 0 vs) 0 (Memory.window mem n) = mem := by
  have hvs := Memory.wf_writeFrom vs mem h 0
  refine Memory.ext_read (Memory.wf_writeFrom _ _ hvs 0) h fun i => ?_
  rw [Memory.read_writeFrom _ _ hvs, Memory.read_writeFrom _ _ h]
  by_cases hi : i < n <;> simp [hl, hi]

section Cipher

variable {cipher undo : List Byte → List Byte → Except Status (List Byte)} {g : Nat → Nat → Nat} {s : State}

/-- With a key the cipher gives DLEN bytes, each of its DATA byte and its key byte (R172, R173). -/
theorem IsBytewise.windows (hc : IsBytewise cipher g) (hkey : s.klen.toNat ≠ 0) :
    ∃ out, cipher s.dataWindow s.keyWindow = .ok out ∧ out.length = s.dlen.toNat ∧
      ∀ i (_ : i < out.length), out[i].toNat = g (Memory.read s.data i).toNat (Spec.keyByte s i) := by
  have hlen : s.dataWindow.length = s.dlen.toNat := Memory.window_length _ _
  obtain ⟨-, out, hout, hl, hbyte⟩ :=
    (hc s.dataWindow s.keyWindow).resolve_left fun hempty => hkey (s.keyWindow_eq_nil.mp hempty.1)
  refine ⟨out, hout, hl.trans hlen, fun i hi => ?_⟩
  rw [hbyte i hi (hl ▸ hi), keyWindow_getD_mod hkey]
  simp only [State.dataWindow, Memory.window_getElem]

theorem execCipher_outside (h : s.cfg.dataSize < s.dlen.toNat ∨ s.cfg.keySize < s.klen.toNat) :
    execCipher cipher s = .next (Spec.failed s .range) := by
  rw [execCipher, if_pos ((State.lengthsOutside_iff s).mpr h), raise_range_eq_failed]

variable (hdlen : s.dlen.toNat ≤ s.cfg.dataSize) (hklen : s.klen.toNat ≤ s.cfg.keySize)
include hdlen hklen

theorem State.not_lengthsOutside : ¬s.lengthsOutside = true := by
  rw [State.lengthsOutside_iff]
  omega

theorem execCipher_writes {out : List Byte} (h : cipher s.dataWindow s.keyWindow = .ok out) :
    execCipher cipher s = .next (Spec.ok { s with data := Memory.writeFrom s.data 0 out } 0) := by
  rw [execCipher, if_neg (State.not_lengthsOutside hdlen hklen), h]
  exact respond_eq_ok _ _

theorem execCipher_emptyKey (hc : IsBytewise cipher g) (h : s.klen.toNat = 0) :
    execCipher cipher s = .next (Spec.failed s .emptyKey) := by
  obtain ⟨-, herror⟩ := (hc s.dataWindow s.keyWindow).resolve_right fun hkey => hkey.1 (s.keyWindow_eq_nil.mpr h)
  rw [execCipher, if_neg (State.not_lengthsOutside hdlen hklen), herror]
  exact raise_eq_failed (by decide) s

variable (hwf : Memory.wf s.data) (hkey : s.klen.toNat ≠ 0) (hc : IsBytewise cipher g)
include hwf hkey hc

/-- DATA after the command, byte by byte (R177, R178). -/
theorem execCipher_transforms : ∃ data', execCipher cipher s = .next (Spec.ok { s with data := data' } 0) ∧
    Memory.wf data' ∧ ∀ i, (Memory.read data' i).toNat =
      if i < s.dlen.toNat then g (Memory.read s.data i).toNat (Spec.keyByte s i)
      else (Memory.read s.data i).toNat := by
  obtain ⟨out, hout, hlen, hbyte⟩ := hc.windows hkey
  refine ⟨_, execCipher_writes hdlen hklen hout, Memory.wf_writeFrom out s.data hwf 0, fun i => ?_⟩
  rw [Memory.read_writeFrom out s.data hwf]
  by_cases hi : i < s.dlen.toNat
  · simp [hlen, hi, hbyte]
  · simp [hlen, hi]

/-- A cipher and then one that undoes it: the second finds the bytes the first wrote, under the same key (R174). -/
theorem execCipher_undone (hundo : ∀ {data key out}, cipher data key = .ok out → undo out key = .ok data) :
    ∃ t, execCipher cipher s = .next t ∧ execCipher undo t = .next (Spec.ok (Spec.ok s 0) 0) := by
  obtain ⟨out, hout, hlen, -⟩ := hc.windows hkey
  have hwritten : Memory.window (Memory.writeFrom s.data 0 out) s.dlen.toNat = out :=
    hlen ▸ Memory.window_writeFrom out s.data hwf
  have hback : undo (Memory.window (Memory.writeFrom s.data 0 out) s.dlen.toNat) s.keyWindow = .ok s.dataWindow := by
    rw [hwritten, hundo hout]
  have hrestored : Memory.writeFrom (Memory.writeFrom s.data 0 out) 0 s.dataWindow = s.data :=
    Memory.writeFrom_window hwf hlen
  refine ⟨_, execCipher_writes hdlen hklen hout, ?_⟩
  rw [execCipher_writes (s := Spec.ok { s with data := Memory.writeFrom s.data 0 out } 0) hdlen hklen hback]
  simp only [Spec.ok, hrestored]

end Cipher

end Sys2Proof.Machine

namespace Sys2Proof.Proofs.KeyStreamRules

open Sys2Proof Sys2Proof.Machine

/-- Settles O36. -/
theorem dseedDerivesSeed : Obligations.DseedDerivesSeed := by
  intro s
  refine ⟨onlyWord_of_encode rfl rfl, fun h => ?_, fun h => ?_⟩
  · rw [exec_dseed, execDseed, if_pos h, raise_range_eq_failed]
  · rw [exec_dseed, execDseed, if_neg (Nat.not_lt.mpr h), deriveSeedOfBytes_keyWindow, respond_eq_ok]

/-- Settles O38: the WRR leaves 0 in SEED, from which the SEEDACC commands fold the text. -/
theorem seedTextDerivesSeed : Obligations.SeedTextDerivesSeed := by
  intro s text
  have hclear := step_of_encode (s := { s with cmds := (pseudoSeedText text).map encode }) (i := .wrr 6 0) rfl rfl
  obtain ⟨t, hrun, hseed⟩ := runs_seedacc_text text (Spec.ok { s with
    seed := 0, cmds := (text.map Instr.seedacc).map encode } 0) rfl
  have hlen : (pseudoSeedText text).length = text.length + 1 := by simp [pseudoSeedText]
  refine ⟨t, ?_, ?_⟩
  · rw [RunsProgram, hlen]
    exact (runs_succ _ _ _).mpr ⟨_, hclear.trans (exec_wrr_of_writable (r := .seed) rfl 0 _), hrun⟩
  · rw [hseed]
    exact deriveSeed_toNat fun i h => by rw [List.getD_eq_getElem _ _ h]

/-- Settles O39: ENC and DEC are `execCipher`, outcome by outcome. -/
theorem encAndDecTransformData : Obligations.EncAndDecTransformData := by
  intro s hwf
  simp only [exec_enc_eq_execCipher, exec_dec_eq_execCipher]
  refine ⟨onlyWord_of_encode rfl rfl, onlyWord_of_encode rfl rfl,
    fun h => ⟨execCipher_outside h, execCipher_outside h⟩, fun hdlen hklen => ⟨fun h => ?_, fun hkey => ?_⟩⟩
  · exact ⟨execCipher_emptyKey hdlen hklen encrypt_isBytewise h, execCipher_emptyKey hdlen hklen decrypt_isBytewise h⟩
  · exact ⟨execCipher_transforms hdlen hklen hwf hkey encrypt_isBytewise,
      execCipher_transforms hdlen hklen hwf hkey decrypt_isBytewise⟩

/-- Settles O40, from the two directions in which the ciphers undo each other. -/
theorem encAndDecUndoEachOther : Obligations.EncAndDecUndoEachOther := by
  intro s hwf hdlen hklen hkey
  simp only [exec_enc_eq_execCipher, exec_dec_eq_execCipher]
  exact ⟨execCipher_undone hdlen hklen hwf hkey encrypt_isBytewise decrypt_encrypt,
    execCipher_undone hdlen hklen hwf hkey decrypt_isBytewise encrypt_decrypt⟩

/-- Settles O37: `seedStep` as a number. -/
theorem seedaccAddsOneCharacter : Obligations.SeedaccAddsOneCharacter :=
  fun s cp => ⟨onlyWord_of_encode rfl rfl, _, respond_eq_ok _ _, seedStep_toNat s.seed cp⟩

end Sys2Proof.Proofs.KeyStreamRules

/-! PROOFS. The statements of 43_placement.md. CSTART is `computeStart` on the registers, outcome by outcome (R196). A
computed start lies behind the header with its payload inside the cover, because no draw exceeds the free space (R198).
The reference generator is `lfsrStep` iterated 32 times (R192, R193). -/

namespace Sys2Proof.Machine

/-! ## The range of a computed start -/

theorem neededUnits_of_isCeilDiv {len m units : Nat} (hm : 1 ≤ m) (h : Spec.IsCeilDiv len m units) :
    neededUnits len m = units :=
  (ceilDiv_unique hm h.1 h.2).symm

/-- The lower end leaves out the header and its safety; the upper end is the whole free space drawn (R198). -/
theorem computeStart_range {cfg : Config} {len m cap r : Nat} {seed : Word}
    (h : computeStart cfg len m cap seed = some r) : 35 + cfg.safety ≤ r ∧ r + neededUnits len m ≤ cap := by
  obtain ⟨hfree, hdrawn⟩ := (computeStart_spec cfg len m cap seed).resolve_left fun hfull => by simp [hfull.2] at h
  obtain rfl := Option.some_inj.mp (h.symm.trans hdrawn)
  have hdraw := prngDraw_le cfg.generator seed (cap - neededUnits len m - 35 - cfg.safety)
  omega

/-! ## The outcomes of CSTART -/

section Cstart

variable {s : State}

theorem exec_cstart_badM (h : s.m.toNat < 1 ∨ s.cfg.mMax < s.m.toNat) :
    exec .cstart s = .next (Spec.failed s .invalidParameterM) := by
  rw [exec_cstart, execCstart, if_pos h]
  exact raise_eq_failed (by decide) s

variable (hpos : 1 ≤ s.m.toNat) (hmax : s.m.toNat ≤ s.cfg.mMax)
include hpos hmax

theorem exec_cstart_noSpace (h : computeStart s.cfg s.pbl.toNat s.m.toNat s.cap.toNat s.seed = none) :
    exec .cstart s = .next (Spec.failed s .insufficientCapacity) := by
  rw [exec_cstart, execCstart, if_neg (by omega), h]
  exact raise_eq_failed (by decide) s

theorem exec_cstart_places {r : Nat} (h : computeStart s.cfg s.pbl.toNat s.m.toNat s.cap.toNat s.seed = some r) :
    exec .cstart s = .next (Spec.ok { s with start := BitVec.ofNat 32 r } (BitVec.ofNat 32 r)) := by
  rw [exec_cstart, execCstart, if_neg (by omega), h]
  exact respond_eq_ok _ _

end Cstart

/-! ## The generator as numbers -/

/-- A draw for a range that fits a word fits one too (R197). -/
theorem toNat_ofNat_prngDraw (g : Generator) (seed n : Word) :
    (BitVec.ofNat 32 (prngDraw g seed n.toNat)).toNat = prngDraw g seed n.toNat := by
  rw [BitVec.toNat_ofNat, Nat.mod_eq_of_lt ((prngDraw_le g seed n.toNat).trans_lt n.isLt)]

theorem lfsrStep_toNat (s : Word) :
    (lfsrStep s).toNat = if s.toNat % 2 = 0 then s.toNat / 2 else (s.toNat / 2) ^^^ 0x80200003 := by
  have hhalf : (s >>> 1).toNat = s.toNat / 2 := by rw [BitVec.toNat_ushiftRight, Nat.shiftRight_one]
  have hodd : s.getLsbD 0 = decide (s.toNat % 2 = 1) := Nat.testBit_zero s.toNat
  rw [lfsrStep, hodd]
  rcases Nat.mod_two_eq_zero_or_one s.toNat with h | h
  · simp [h, hhalf]
  · simp [h, hhalf, lfsrTaps]

theorem lfsrSteps_eq_iterate (n : Nat) (s : Word) : lfsrSteps n s = lfsrStep^[n] s := by
  induction n generalizing s with
  | zero => rfl
  | succ n ih => rw [lfsrSteps, ih, Function.iterate_succ_apply]

theorem prngDraw_reference (seed : Word) (n : Nat) : prngDraw .reference seed n =
    (lfsrStep^[32] (if seed = 0 then 0xFFFFFFFF#32 else seed)).toNat % (n + 1) := by
  rw [← lfsrSteps_eq_iterate]
  rfl

end Sys2Proof.Machine

namespace Sys2Proof.Proofs.PlacementRules

open Sys2Proof Sys2Proof.Machine

/-- Settles O41, outcome by outcome; a start is at most CAP, so START holds it. -/
theorem cstartComputesStart : Obligations.CstartComputesStart := by
  intro s units
  refine ⟨onlyWord_of_encode rfl rfl, exec_cstart_badM, fun hpos hmax hceil => ?_⟩
  obtain rfl := neededUnits_of_isCeilDiv hpos hceil
  have hspec := computeStart_spec s.cfg s.pbl.toNat s.m.toNat s.cap.toNat s.seed
  refine ⟨fun hspace => ?_, fun hspace => ?_⟩
  · obtain ⟨-, hnone⟩ := hspec.resolve_right fun hfree => by omega
    exact exec_cstart_noSpace hpos hmax hnone
  · obtain ⟨-, hdrawn⟩ := hspec.resolve_left fun hfull => by omega
    have hrange := computeStart_range hdrawn
    refine ⟨_, exec_cstart_places hpos hmax hdrawn, ?_⟩
    rw [BitVec.toNat_ofNat, Nat.mod_eq_of_lt (by omega)]

/-- Settles O42, from the range of a computed start. -/
theorem computedStartLiesInCover : Obligations.ComputedStartLiesInCover := by
  intro cfg len m cap units seed r hm hceil hstart
  obtain rfl := neededUnits_of_isCeilDiv hm hceil
  obtain ⟨hlow, hhigh⟩ := computeStart_range hstart
  exact ⟨hlow, hhigh, fun hcap => by omega⟩

/-- Settles O43: the draw is at most the operand, so the response holds it. -/
theorem drawAnswersWithinRange : Obligations.DrawAnswersWithinRange := by
  intro s n
  have hvalue := toNat_ofNat_prngDraw s.cfg.generator s.seed n
  exact ⟨onlyWord_of_encode rfl rfl, _, respond_eq_ok _ s, hvalue, hvalue.trans_le (prngDraw_le _ _ _)⟩

/-- Settles O44: the laws of the generator, then the spec's example values by evaluation. -/
theorem referenceGeneratorIsTheLfsr : Obligations.ReferenceGeneratorIsTheLfsr :=
  ⟨lfsrStep_toNat, prngDraw_reference, prngDraw_le, by decide +kernel⟩

end Sys2Proof.Proofs.PlacementRules

/-! PROOFS. The statements of 44_codec.md. A payload has its place or it has none, for EMBED and EXTRACT alike (R191,
R195); a lemma per outcome of the two commands, their checks in the order of the spec (R216, R219); the bits of header
and payload by index (R210, R214); and the header as three pushes, each packed one bit per unit (R227). -/

namespace Sys2Proof.Machine

/-! ## The place of a payload -/

section Place

variable {s : State} {rand : Bool} {len m n : Nat}

theorem startOffset_range (h : Spec.HasRoom s rand n) :
    35 ≤ Spec.startOffset s rand n ∧ Spec.startOffset s rand n + n ≤ s.cap.toNat := by
  cases rand with
  | false => exact ⟨le_rfl, h⟩
  | true =>
    have hroom : 35 + s.cfg.safety + n < s.cap.toNat := h
    have hdraw := prngDraw_le s.cfg.generator (Spec.keySeed s) (s.cap.toNat - n - 35 - s.cfg.safety)
    simp only [Spec.startOffset, if_true]
    omega

/-- The seed a placement derives: that of the key in use where it is random (R191, R195). -/
def placementSeed (s : State) (rand : Bool) : Option Word := if rand then some (Spec.keySeed s) else none

theorem seedAfter_placementSeed : seedAfter s.seed (placementSeed s rand) = Spec.seedIfRandom s rand := by
  cases rand <;> rfl

theorem placement_of_hasRoom (h : Spec.HasRoom s rand (neededUnits len m)) :
    placement s.cfg rand len m s.cap.toNat s.keyWindow =
      some (Spec.startOffset s rand (neededUnits len m), placementSeed s rand) := by
  rcases placement_spec s.cfg rand len m s.cap.toNat s.keyWindow with
    ⟨rfl, hfull, -⟩ | ⟨rfl, -, start, hstart, rfl, -⟩ | ⟨rfl, hfixed⟩
  · have hroom : 35 + s.cfg.safety + neededUnits len m < s.cap.toNat := h
    omega
  · rw [hstart, deriveSeedOfBytes_keyWindow]
    rfl
  · exact hfixed

/-- Without room there is no start, or the payload runs past the cover from it (R191, R216 step 6, R219 step 7). -/
theorem lt_of_placement_of_not_hasRoom (h : ¬Spec.HasRoom s rand (neededUnits len m)) {start : Nat}
    {seed : Option Word} (hplace : placement s.cfg rand len m s.cap.toNat s.keyWindow = some (start, seed)) :
    s.cap.toNat < start + neededUnits len m := by
  rcases placement_spec s.cfg rand len m s.cap.toNat s.keyWindow with
    ⟨rfl, -, hnone⟩ | ⟨rfl, hfree, -⟩ | ⟨rfl, hfixed⟩
  · cases hnone.symm.trans hplace
  · refine absurd ?_ h
    show 35 + s.cfg.safety + neededUnits len m < s.cap.toNat
    omega
  · cases hfixed.symm.trans hplace
    exact Nat.not_le.mp h

end Place

/-! ## Header and payload by index -/

theorem bytesToBits_getD (xs : List Byte) (i : Nat) :
    (bytesToBits xs).getD i false = (xs.getD (i / 8) 0).getLsbD (7 - i % 8) := by
  by_cases hi : i < (bytesToBits xs).length
  · rw [List.getD_eq_getElem _ _ hi, bytesToBits_getElem]
  · have hbyte : xs.length ≤ i / 8 := by rw [bytesToBits_length] at hi; omega
    rw [List.getD_eq_default _ _ (Nat.not_lt.mp hi), List.getD_eq_default _ _ hbyte]
    simp

theorem bitsof_getD {k i : Nat} (v : Nat) (h : i < k) : (bitsof k v).getD i false = v.testBit (k - 1 - i) := by
  have hi : i < (bitsof k v).length := by rwa [bitsof_length]
  rw [List.getD_eq_getElem _ _ hi, bitsof_getElem]

theorem headerBits_getD (rand : Bool) (m len : Nat) {i : Nat} (h : i < 35) :
    (headerBits rand m len).getD i false = Spec.headerBit rand m len i := by
  rw [headerBits, List.singleton_append, Spec.headerBit]
  rcases i with _ | i
  · rfl
  rw [List.cons_append, List.getD_cons_succ, if_neg (Nat.succ_ne_zero i)]
  split_ifs with hi
  · rw [List.getD_append _ _ _ _ (by rw [bitsof_length]; omega), bitsof_getD _ (by omega)]
    congr 1
    omega
  · rw [List.getD_append_right _ _ _ _ (by rw [bitsof_length]; omega), bitsof_length, bitsof_getD _ (by omega)]
    congr 1
    omega

theorem payloadBits_getD {tag : List Byte} (ht : tag.length = 10) (enc : Bool) (content : List Byte) (i : Nat) :
    (payloadBits tag enc content).getD i false =
      if i < 80 then (tag.getD (i / 8) 0).getLsbD (7 - i % 8)
      else if i = 80 then enc
      else (content.getD ((i - 81) / 8) 0).getLsbD (7 - (i - 81) % 8) := by
  have hlen : (bytesToBits tag).length = 80 := by rw [bytesToBits_length, ht]
  rw [payloadBits, List.append_assoc, List.singleton_append]
  split_ifs with hi h80
  · rw [List.getD_append _ _ _ _ (hlen.symm ▸ hi), bytesToBits_getD]
  · rw [List.getD_append_right _ _ _ _ (by omega), hlen, h80]
    rfl
  · rw [List.getD_append_right _ _ _ _ (by omega), hlen, show i - 80 = i - 81 + 1 by omega, List.getD_cons_succ,
      bytesToBits_getD]

section Parts

variable {tag : List Byte} (htag : tag.length = 10) {enc : Bool} {content : List Byte} {i j : Nat}
include htag

theorem payloadBits_getD_tag (hi : i < 10) (hj : j < 8) :
    (payloadBits tag enc content).getD (8 * i + j) false = (tag.getD i 0).getLsbD (7 - j) := by
  rw [payloadBits_getD htag, if_pos (by omega), show (8 * i + j) / 8 = i by omega,
    show (8 * i + j) % 8 = j by omega]

theorem payloadBits_getD_flag : (payloadBits tag enc content).getD 80 false = enc :=
  payloadBits_getD htag enc content 80

theorem payloadBits_getD_content (hj : j < 8) :
    (payloadBits tag enc content).getD (81 + 8 * i + j) false = (content.getD i 0).getLsbD (7 - j) := by
  rw [payloadBits_getD htag, if_neg (by omega), if_neg (by omega), show (81 + 8 * i + j - 81) / 8 = i by omega,
    show (81 + 8 * i + j - 81) % 8 = j by omega]

end Parts

/-- A sequence of the length of a payload is the payload of some tag, its bit 80 and some content (R212). -/
theorem exists_payloadBits {bits : List Bool} {n : Nat} (h : bits.length = 81 + 8 * n) :
    ∃ tag content, tag.length = 10 ∧ content.length = n ∧ bits = payloadBits tag (bits.getD 80 false) content := by
  have htake : (bits.take 80).length = 8 * 10 := by rw [List.length_take]; omega
  have hdrop : (bits.drop 81).length = 8 * n := by rw [List.length_drop]; omega
  obtain ⟨tag, -, htag⟩ := (bitsToBytes_spec _ (bits.take 80) le_rfl).resolve_left fun hbad => hbad.1 (by omega)
  obtain ⟨content, -, hcontent⟩ :=
    (bitsToBytes_spec _ (bits.drop 81) le_rfl).resolve_left fun hbad => hbad.1 (by omega)
  rw [← htag, bytesToBits_length] at htake
  rw [← hcontent, bytesToBits_length] at hdrop
  refine ⟨tag, content, by omega, by omega, ?_⟩
  have h80 : 80 < bits.length := by omega
  rw [payloadBits, htag, hcontent, List.getD_eq_getElem _ _ h80, List.take_append_getElem, List.take_append_drop]

theorem window_getD {w : Nat} (mem : Memory w) {n i : Nat} (h : i < n) :
    (Memory.window mem n).getD i 0 = Memory.read mem i := by
  rw [List.getD_eq_getElem _ _ (by rwa [Memory.window_length]), Memory.window_getElem]

theorem State.tagWindow_length (s : State) : s.tagWindow.length = 10 := Memory.window_length _ _

theorem State.tagWindow_getD (s : State) {i : Nat} (h : i < 10) : s.tagWindow.getD i 0 = Memory.read s.tag i :=
  window_getD s.tag h

theorem read_writeFrom_zero {w : Nat} {mem : Memory w} (h : Memory.wf mem) (vs : List (BitVec w)) (i : Nat) :
    Memory.read (Memory.writeFrom mem 0 vs) i = if i < vs.length then vs.getD i 0 else Memory.read mem i := by
  rw [Memory.read_writeFrom vs mem h]
  by_cases hi : i < vs.length <;> simp [hi]

/-- One packed bit is bit 0 (R210). -/
theorem packUnit_singleton_getLsbD (u : CoverUnit) (b : Bool) (j : Nat) :
    (packUnit u [b]).getLsbD j = if j = 0 then b else u.getLsbD j := by
  rw [packUnit_getD (k := 1) u [b] rfl (by decide)]
  refine if_ctx_congr Nat.lt_one_iff (fun hj => ?_) fun _ => rfl
  rw [hj]
  rfl

/-! ## The content, enciphered and deciphered -/

/-- With a key where one is needed, the content EMBED writes is there, byte by byte that of R214. -/
theorem exists_embeddedContent {s : State} (hkey : isEnc s.ctrl = true → s.klen.toNat ≠ 0) :
    ∃ content, embeddedContent (isEnc s.ctrl) s.dataWindow s.keyWindow = .ok content ∧
      content.length = s.dlen.toNat ∧ ∀ i < s.dlen.toNat, (content.getD i 0).toNat = Spec.contentByte s i := by
  rw [embeddedContent]
  cases henc : isEnc s.ctrl with
  | false =>
    refine ⟨s.dataWindow, rfl, Memory.window_length _ _, fun i hi => ?_⟩
    rw [State.dataWindow, window_getD _ hi, Spec.contentByte, show s.ctrl.getLsbD 1 = false from henc]
    rfl
  | true =>
    obtain ⟨out, hout, hlen, hbyte⟩ := encrypt_isBytewise.windows (hkey henc)
    refine ⟨out, hout, hlen, fun i hi => ?_⟩
    rw [List.getD_eq_getElem _ _ (hlen ▸ hi), hbyte, Spec.contentByte, show s.ctrl.getLsbD 1 = true from henc]
    rfl

/-- Without a key a content whose flag is 1 is not delivered (R219 step 12). -/
theorem extractedContent_emptyKey {s : State} (h : s.klen.toNat = 0) (cipher : List Byte) :
    extractedContent true cipher s.keyWindow = .error .emptyKey := by
  rw [s.keyWindow_eq_nil.mpr h]
  rfl

/-- With a key where the flag needs one, the content is delivered, deciphered if asked (R219 step 13). -/
theorem exists_extractedContent {s : State} {enc : Bool} (hkey : enc = true → s.klen.toNat ≠ 0)
    (cipher : List Byte) : ∃ content, extractedContent enc cipher s.keyWindow = .ok content ∧
      content.length = cipher.length ∧ ∀ i < cipher.length, (content.getD i 0).toNat =
        if enc then ((cipher.getD i 0).toNat + 256 - Spec.keyByte s i) % 256 else (cipher.getD i 0).toNat := by
  cases enc with
  | false => exact ⟨cipher, rfl, rfl, fun i _ => rfl⟩
  | true =>
    obtain ⟨-, out, hout, hlen, hbyte⟩ := (decrypt_spec cipher s.keyWindow).resolve_left
      fun hempty => hkey rfl (s.keyWindow_eq_nil.mp hempty.1)
    refine ⟨out, hout, hlen, fun i hi => ?_⟩
    rw [List.getD_eq_getElem _ _ (hlen ▸ hi), hbyte i (hlen ▸ hi) hi, keyWindow_getD_mod (hkey rfl),
      List.getD_eq_getElem _ _ hi]
    rfl

theorem extractedContent_embeddedContent {enc : Bool} {data key content : List Byte}
    (h : embeddedContent enc data key = .ok content) : extractedContent enc content key = .ok data := by
  cases enc with
  | false => cases h; rfl
  | true => exact decrypt_encrypt h

theorem not_and_klen_eq_zero {s : State} {needed : Prop} (hkey : needed → s.klen.toNat ≠ 0) :
    ¬(needed ∧ s.klen = 0) :=
  fun ⟨hneed, hzero⟩ => hkey hneed (congrArg BitVec.toNat hzero)

/-! ## The outcomes of EMBED -/

section Embed

variable {s : State}

theorem exec_embed_of_error {c : Status} (h : embedPlan s = .error c) :
    exec .embed s = .next (Spec.failed s c) := by
  rw [exec_embed, execEmbed, h]
  exact raise_eq_failed (embedPlan_error h) s

/-- What a plan of EMBED writes (R216 steps 7 to 9). -/
def EmbedPlan.written (s : State) (p : EmbedPlan) : State :=
  { s with
    cover := embedCover s.cover (isRand s.ctrl) s.m.toNat p
    pbl := BitVec.ofNat 32 p.len
    start := BitVec.ofNat 32 p.start
    seed := seedAfter s.seed p.seed }

theorem exec_embed_of_passes {p : EmbedPlan} (h : EmbedPasses s p) :
    exec .embed s = .next (Spec.ok (p.written s) (BitVec.ofNat 32 p.start)) := by
  rw [exec_embed, execEmbed, (embedPlan_ok_iff s p).mpr h]
  exact respond_eq_ok _ _

theorem exec_embed_outside
    (h : s.cfg.coverSize < s.cap.toNat ∨ s.cfg.dataSize < s.dlen.toNat ∨ s.cfg.keySize < s.klen.toNat) :
    exec .embed s = .next (Spec.failed s .range) :=
  exec_embed_of_error (if_pos ((State.embedOutside_iff s).mpr h))

variable (hin : ¬s.embedOutside = true)
include hin

theorem exec_embed_badM (h : s.m.toNat < 1 ∨ 4 < s.m.toNat) :
    exec .embed s = .next (Spec.failed s .invalidParameterM) :=
  exec_embed_of_error ((if_neg hin).trans (if_pos h))

variable (hm : ¬(s.m.toNat < 1 ∨ 4 < s.m.toNat))
include hm

theorem exec_embed_noKey (hneed : isEnc s.ctrl = true ∨ isRand s.ctrl = true) (h : s.klen.toNat = 0) :
    exec .embed s = .next (Spec.failed s .emptyKey) :=
  exec_embed_of_error ((if_neg hin).trans ((if_neg hm).trans (if_pos ⟨hneed, BitVec.eq_of_toNat_eq h⟩)))

theorem exec_embed_noRoom (hkey : isEnc s.ctrl = true ∨ isRand s.ctrl = true → s.klen.toNat ≠ 0)
    (h : ¬Spec.HasRoom s (isRand s.ctrl) (neededUnits (payloadLength s.dlen.toNat) s.m.toNat)) :
    exec .embed s = .next (Spec.failed s .insufficientCapacity) := by
  refine exec_embed_of_error ((if_neg hin).trans ((if_neg hm).trans
    ((if_neg (not_and_klen_eq_zero hkey)).trans ?_)))
  simp only
  cases hplace : placement s.cfg (isRand s.ctrl) (payloadLength s.dlen.toNat) s.m.toNat s.cap.toNat s.keyWindow with
  | none => rfl
  | some place => exact if_pos (lt_of_placement_of_not_hasRoom h hplace)

end Embed

/-! ## What EMBED writes when its checks pass -/

/-- The checks in the words of the statements are those of the plan. -/
theorem exists_passes_of_embedReady {s : State} {n : Nat} (h : Spec.EmbedReady s n) :
    ∃ p, EmbedPasses s p ∧ p.units = n := by
  obtain rfl := neededUnits_of_isCeilDiv h.m.1 h.units
  obtain ⟨content, hcontent, -⟩ := exists_embeddedContent fun henc => h.key (.inl henc)
  exact ⟨⟨payloadLength s.dlen.toNat, _, _, _, payloadBits s.tagWindow (isEnc s.ctrl) content⟩,
    { inside := ⟨h.cap, h.dlen, h.klen⟩, m := h.m, key := fun hneed hzero => not_and_klen_eq_zero h.key ⟨hneed, hzero⟩,
      len := rfl, units := rfl, place := placement_of_hasRoom h.room, room := (startOffset_range h.room).2,
      payload := ⟨content, hcontent, rfl⟩ }, rfl⟩

theorem EmbedPasses.hasRoom {s : State} {p : EmbedPlan} (h : EmbedPasses s p) :
    Spec.HasRoom s (isRand s.ctrl) (neededUnits p.len s.m.toNat) := by
  by_contra hfull
  have hout := lt_of_placement_of_not_hasRoom hfull h.place
  rw [← h.units] at hout
  exact absurd h.room (Nat.not_le.mpr hout)

/-- The start of a plan and the seed it derives, in the words of the statements. -/
theorem EmbedPasses.start_and_seed_eq {s : State} {p : EmbedPlan} (h : EmbedPasses s p) :
    p.start = Spec.startOffset s (isRand s.ctrl) (neededUnits p.len s.m.toNat) ∧
      p.seed = placementSeed s (isRand s.ctrl) := by
  have hplace := (placement_of_hasRoom h.hasRoom).symm.trans h.place
  simpa [eq_comm] using hplace

theorem EmbedPasses.payload_getD {s : State} {p : EmbedPlan} (h : EmbedPasses s p) {i : Nat} (hi : i < p.len) :
    p.payload.getD i false = Spec.payloadBit s i := by
  have hlen : p.len = 81 + 8 * s.dlen.toNat := h.len
  obtain ⟨content, hcontent, hpayload⟩ := h.payload
  obtain ⟨content', hcontent', -, hbyte⟩ := exists_embeddedContent (s := s) fun henc hzero =>
    h.key (.inl henc) (BitVec.eq_of_toNat_eq hzero)
  cases hcontent.symm.trans hcontent'
  rw [hpayload, payloadBits_getD s.tagWindow_length, Spec.payloadBit]
  split_ifs with htag hflag
  · rw [s.tagWindow_getD (by omega)]
  · rfl
  · rw [← hbyte _ (by omega)]
    rfl

/-- A successful EMBED from a state whose checks pass, with its plan (R216). -/
theorem exists_plan_of_exec_embed {s t : State} {n : Nat} (h : Spec.EmbedReady s n) (hexec : exec .embed s = .next t) :
    ∃ p, EmbedPasses s p ∧ p.units = n ∧ t = Spec.ok (p.written s) (BitVec.ofNat 32 p.start) := by
  obtain ⟨p, hp, hunits⟩ := exists_passes_of_embedReady h
  exact ⟨p, hp, hunits, Host.Outcome.next.inj (hexec.symm.trans (exec_embed_of_passes hp))⟩

/-- START holds the start of a plan, which is at most CAP. -/
theorem EmbedPasses.toNat_ofNat_start {s : State} {p : EmbedPlan} (h : EmbedPasses s p) :
    (BitVec.ofNat 32 p.start).toNat = p.start := by
  have hroom := h.room
  rw [BitVec.toNat_ofNat, Nat.mod_eq_of_lt (by omega)]

/-- The header field holds the length of a plan where CFG is in its ranges (R213). -/
theorem EmbedPasses.len_lt {s : State} {p : EmbedPlan} (h : EmbedPasses s p) (hcfg : s.cfg.Ok) : p.len < 2 ^ 32 := by
  have hlen : p.len = 81 + 8 * s.dlen.toNat := h.len
  obtain ⟨-, -, -, hdata, -⟩ := hcfg
  have hdlen := h.inside.2.1
  omega

/-- Bits `j*m` to `j*m + r_j - 1` of the payload, by their place in unit `j` (R215). -/
theorem EmbedPasses.packed_group_getLsbD {s : State} {p : EmbedPlan} (h : EmbedPasses s p) (u : CoverUnit) (j b : Nat) :
    (packUnit u ((p.payload.drop (j * s.m.toNat)).take s.m.toNat)).getLsbD b =
      if b < Spec.groupSize p.len s.m.toNat j
      then Spec.payloadBit s (j * s.m.toNat + (Spec.groupSize p.len s.m.toNat j - 1 - b)) else u.getLsbD b := by
  have hm := h.m.2
  have hdrop : (p.payload.drop (j * s.m.toNat)).length = p.len - j * s.m.toNat := by
    rw [List.length_drop, h.payload_length]
  have hgroup : Spec.groupSize p.len s.m.toNat j = min s.m.toNat (p.payload.drop (j * s.m.toNat)).length := by
    rw [hdrop, Spec.groupSize]
  rw [List.take_eq_take_min, ← hgroup, packUnit_take_getLsbD _ (by omega) (by omega)]
  split_ifs with hb
  · rw [← h.payload_getD (by omega), List.getD_eq_getElem?_getD, List.getElem?_drop, List.getD_eq_getElem?_getD]
  · rfl

/-! ## The header and the payload EXTRACT reads -/

theorem eq_valof_of_isValue {bits : List Bool} {v : Nat} (h : Spec.IsValue bits v) : v = valof bits := by
  obtain ⟨hlt, hbits⟩ := h
  have hlist : bitsof bits.length v = bits :=
    List.ext_getElem (bitsof_length _ _) fun i hi hi' => by rw [bitsof_getElem, hbits i hi']
  rw [← valof_bitsof_of_lt hlt, hlist]

/-- The header read, in the words of the statements (R210, R211). -/
theorem readHeader_eq {s : State} {len : Nat}
    (h : Spec.IsValue ((List.range 32).map fun i => Spec.coverBit s (3 + i)) len) :
    readHeader s.cover = { rand := Spec.coverBit s 0, m := Spec.headerM s, len := len } := by
  have hbits : unpackUnits 1 s.cover hdrUnits 0 hdrUnits = (List.range 35).map (Spec.coverBit s) := by
    have hlen : (unpackUnits 1 s.cover hdrUnits 0 hdrUnits).length = 35 := by rw [unpackUnits_length]; rfl
    refine List.ext_getElem (by simp [hlen]) fun i hi hi' => ?_
    rw [hlen] at hi
    have hgroup : min 1 (hdrUnits - i * 1) - 1 - i % 1 = 0 := by omega
    rw [← List.getD_eq_getElem _ false, unpackUnits_getD 1 le_rfl s.cover hdrUnits 0 hdrUnits i hi hi,
      List.getElem_map, List.getElem_range, Spec.coverBit, Nat.zero_add, Nat.div_one]
    exact congrArg _ hgroup
  have hm : valof [Spec.coverBit s 1, Spec.coverBit s 2] + 1 = Spec.headerM s := by
    simp [valof, Spec.headerM, Nat.mul_comm]
  rw [readHeader, hbits, eq_valof_of_isValue h, ← hm]
  rfl

theorem readHeader_rand (s : State) : (readHeader s.cover).rand = Spec.coverBit s 0 := by
  rw [readHeader_eq ⟨valof_lt _, valof_testBit _⟩]

theorem headerM_range (s : State) : 1 ≤ Spec.headerM s ∧ Spec.headerM s ≤ 4 := by
  have h1 := Bool.toNat_le (Spec.coverBit s 1)
  have h2 := Bool.toNat_le (Spec.coverBit s 2)
  unfold Spec.headerM
  omega

/-- The payload bits EXTRACT reads with a header (R219 step 8). -/
def payloadRead (s : State) (h : Header) : List Bool :=
  unpackUnits h.m s.cover (neededUnits h.len h.m) (Spec.startOffset s h.rand (neededUnits h.len h.m)) h.len

theorem payloadRead_length {s : State} {h : Header} (hm : 1 ≤ h.m) : (payloadRead s h).length = h.len := by
  rw [payloadRead, unpackUnits_length]
  exact Nat.min_eq_right (neededUnits_ge h.len h.m hm)

theorem payloadRead_getD {s : State} {h : Header} (hm : 1 ≤ h.m) {i : Nat} (hi : i < h.len) :
    (payloadRead s h).getD i false =
      Spec.readBit s (Spec.startOffset s h.rand (neededUnits h.len h.m)) h.m h.len i :=
  unpackUnits_getD h.m hm s.cover _ _ _ _ (hi.trans_le (neededUnits_ge h.len h.m hm)) hi

/-! ## The payload parsed -/

theorem parsePayload_malformed {dataSize len : Nat} (key : List Byte) (bits : List Bool)
    (h : len < 81 ∨ (len - 81) % 8 ≠ 0) : parsePayload dataSize key len bits = .error .malformedPayload :=
  if_pos h

theorem parsePayload_tooLong {dataSize len : Nat} (key : List Byte) (bits : List Bool)
    (h81 : 81 ≤ len) (h8 : (len - 81) % 8 = 0) (h : dataSize < (len - 81) / 8) :
    parsePayload dataSize key len bits = .error .range := by
  have hform : ¬(len < 81 ∨ (len - 81) % 8 ≠ 0) := by omega
  exact (if_neg hform).trans (if_pos h)

/-- The parts of a payload parsed, the content as EXTRACT delivers it with the key in use (R219 steps 11 to 13). -/
def parsedParts (tag : List Byte) (enc : Bool) (cipher key : List Byte) :
    Except Status (List Byte × Bool × List Byte) :=
  (extractedContent enc cipher key).map fun content => (tag, enc, content)

theorem parsedParts_flag {tag tag' cipher content key : List Byte} {enc enc' : Bool}
    (h : parsedParts tag enc cipher key = .ok (tag', enc', content)) : enc = enc' := by
  rw [parsedParts] at h
  cases hcontent : extractedContent enc cipher key with
  | error c => rw [hcontent] at h; cases h
  | ok plain => rw [hcontent] at h; cases h; rfl

/-- A payload of the right length whose content fits DATA is parsed into its parts, whatever the key. -/
theorem exists_parts_of_length {dataSize n : Nat} {bits : List Bool} (hlen : bits.length = 81 + 8 * n)
    (hn : n ≤ dataSize) :
    ∃ tag cipher, tag.length = 10 ∧ cipher.length = n ∧ bits = payloadBits tag (bits.getD 80 false) cipher ∧
      ∀ key, parsePayload dataSize key (81 + 8 * n) bits = parsedParts tag (bits.getD 80 false) cipher key := by
  obtain ⟨tag, cipher, htag, rfl, hbits⟩ := exists_payloadBits hlen
  refine ⟨tag, cipher, htag, rfl, hbits, fun key => ?_⟩
  have hparse := parsePayload_payloadBits dataSize key tag cipher (bits.getD 80 false) htag hn
  rw [← hbits] at hparse
  refine hparse.trans ?_
  rw [parsedParts]
  cases extractedContent (bits.getD 80 false) cipher key <;> rfl

/-! ## The outcomes of EXTRACT -/

theorem exec_extract_of_error {s : State} {c : Status} (h : extractPlan s = .error c) :
    exec .extract s = .next (Spec.failed s c) := by
  rw [exec_extract, execExtract, h]
  exact raise_eq_failed (extractPlan_error h) s

/-- What a plan of EXTRACT writes (R219 step 14). -/
def ExtractPlan.written (s : State) (p : ExtractPlan) : State :=
  { s with
    tag := Memory.writeFrom s.tag 0 p.tag
    data := Memory.writeFrom s.data 0 p.content
    dlen := BitVec.ofNat 32 p.content.length
    ctrl := ctrlOf p.rand p.enc
    m := BitVec.ofNat 32 p.m
    pbl := BitVec.ofNat 32 p.len
    start := BitVec.ofNat 32 p.start
    seed := seedAfter s.seed p.seed }

theorem exec_extract_of_plan {s : State} {p : ExtractPlan} (h : extractPlan s = .ok p) :
    exec .extract s = .next (Spec.ok (p.written s) (BitVec.ofNat 32 p.content.length)) := by
  rw [exec_extract, execExtract, h]
  exact respond_eq_ok _ _

theorem exec_extract_outside {s : State} (h : s.cfg.coverSize < s.cap.toNat ∨ s.cfg.keySize < s.klen.toNat) :
    exec .extract s = .next (Spec.failed s .range) :=
  exec_extract_of_error (if_pos h)

theorem exec_extract_noHeader {s : State} (hin : ¬(s.cfg.coverSize < s.cap.toNat ∨ s.cfg.keySize < s.klen.toNat))
    (h : s.cap.toNat < 35) : exec .extract s = .next (Spec.failed s .insufficientCapacity) :=
  exec_extract_of_error ((if_neg hin).trans (if_pos h))

/-- EXTRACT gets as far as a header in its range: steps 1 to 4 of R219 pass. -/
structure ReadsHeader (s : State) (h : Header) : Prop where
  cap : 35 ≤ s.cap.toNat ∧ s.cap.toNat ≤ s.cfg.coverSize
  klen : s.klen.toNat ≤ s.cfg.keySize
  header : readHeader s.cover = h

/-- What EXTRACT writes of a header and the parts of a payload (R219 step 14). -/
def ExtractPlan.ofParts (s : State) (h : Header) (parts : List Byte × Bool × List Byte) : ExtractPlan :=
  { rand := h.rand, enc := parts.2.1, m := h.m, len := h.len
    start := Spec.startOffset s h.rand (neededUnits h.len h.m), seed := placementSeed s h.rand
    tag := parts.1, content := parts.2.2 }

section Extract

variable {s : State} {h : Header} (hread : ReadsHeader s h)
include hread

theorem ReadsHeader.m_range : 1 ≤ h.m ∧ h.m ≤ 4 := by
  obtain ⟨hlow, hhigh, -⟩ := readHeader_bounds s.cover
  rw [hread.header] at hlow hhigh
  exact ⟨hlow, hhigh⟩

theorem ReadsHeader.extractPlan_eq : extractPlan s = extractWithHeader s h := by
  obtain ⟨hlow, hhigh⟩ := hread.cap
  have hklen := hread.klen
  rw [← hread.header]
  exact (if_neg (by omega)).trans (if_neg (Nat.not_lt.mpr hlow))

/-- Step 4 passes: every `m` of a header is in range (R211, R220). -/
theorem ReadsHeader.not_badM : ¬(h.m < 1 ∨ s.cfg.mMax < h.m) := by
  have hm := hread.m_range
  have hmax := mMax_ge s.cfg
  omega

theorem ReadsHeader.exec_noKey (hrand : h.rand = true) (hzero : s.klen.toNat = 0) :
    exec .extract s = .next (Spec.failed s .emptyKey) :=
  exec_extract_of_error (hread.extractPlan_eq.trans
    ((if_neg hread.not_badM).trans (if_pos ⟨hrand, BitVec.eq_of_toNat_eq hzero⟩)))

/-- The payload read has its parts, and parsing it delivers them with the key in use (R219 steps 11 to 13). -/
theorem ReadsHeader.exists_parts {n : Nat} (hlen : h.len = 81 + 8 * n) (hn : n ≤ s.cfg.dataSize) :
    ∃ tag cipher, tag.length = 10 ∧ cipher.length = n ∧
      payloadRead s h = payloadBits tag ((payloadRead s h).getD 80 false) cipher ∧
      parsePayload s.cfg.dataSize s.keyWindow h.len (payloadRead s h) =
        parsedParts tag ((payloadRead s h).getD 80 false) cipher s.keyWindow := by
  obtain ⟨tag, cipher, htag, hcipher, hbits, hparse⟩ :=
    exists_parts_of_length ((payloadRead_length hread.m_range.1).trans hlen) hn
  exact ⟨tag, cipher, htag, hcipher, hbits, by rw [hlen, hparse]⟩

variable (hkey : h.rand = true → s.klen.toNat ≠ 0)
include hkey

theorem ReadsHeader.exec_noRoom (hroom : ¬Spec.HasRoom s h.rand (neededUnits h.len h.m)) :
    exec .extract s = .next (Spec.failed s .corruptHeader) := by
  refine exec_extract_of_error (hread.extractPlan_eq.trans
    ((if_neg hread.not_badM).trans ((if_neg (not_and_klen_eq_zero hkey)).trans ?_)))
  cases hplace : placement s.cfg h.rand h.len h.m s.cap.toNat s.keyWindow with
  | none => rfl
  | some place => exact if_pos (lt_of_placement_of_not_hasRoom hroom hplace)

variable (hroom : Spec.HasRoom s h.rand (neededUnits h.len h.m))
include hroom

/-- With a place for the payload, EXTRACT is what parsing the bits read there gives (R219 steps 8 to 13). -/
theorem ReadsHeader.extractPlan_eq_parsed : extractPlan s =
    (parsePayload s.cfg.dataSize s.keyWindow h.len (payloadRead s h)).map (ExtractPlan.ofParts s h) := by
  rw [hread.extractPlan_eq, extractWithHeader, if_neg hread.not_badM, if_neg (not_and_klen_eq_zero hkey),
    placement_of_hasRoom hroom]
  refine (if_neg (Nat.not_lt.mpr (startOffset_range hroom).2)).trans ?_
  rw [payloadRead]
  cases parsePayload s.cfg.dataSize s.keyWindow h.len _ <;> rfl

theorem ReadsHeader.exec_of_parse_error {c : Status}
    (hparse : parsePayload s.cfg.dataSize s.keyWindow h.len (payloadRead s h) = .error c) :
    exec .extract s = .next (Spec.failed s c) := by
  refine exec_extract_of_error ?_
  rw [hread.extractPlan_eq_parsed hkey hroom, hparse]
  rfl

variable {n : Nat} (hlen : h.len = 81 + 8 * n) (hn : n ≤ s.cfg.dataSize)
include hlen hn

theorem ReadsHeader.exec_flag_noKey (hflag : (payloadRead s h).getD 80 false = true) (hzero : s.klen.toNat = 0) :
    exec .extract s = .next (Spec.failed s .emptyKey) := by
  obtain ⟨tag, cipher, -, -, -, hparse⟩ := hread.exists_parts hlen hn
  refine hread.exec_of_parse_error hkey hroom ?_
  rw [hparse, hflag, parsedParts, extractedContent_emptyKey hzero]
  rfl

/-- EXTRACT completes: what it writes, in the parts of the payload read. -/
theorem ReadsHeader.exec_completes (hflag : (payloadRead s h).getD 80 false = true → s.klen.toNat ≠ 0) :
    ∃ tag cipher content, tag.length = 10 ∧ cipher.length = n ∧ content.length = n ∧
      payloadRead s h = payloadBits tag ((payloadRead s h).getD 80 false) cipher ∧
      (∀ i < n, (content.getD i 0).toNat = if (payloadRead s h).getD 80 false
        then ((cipher.getD i 0).toNat + 256 - Spec.keyByte s i) % 256 else (cipher.getD i 0).toNat) ∧
      extractedContent ((payloadRead s h).getD 80 false) cipher s.keyWindow = .ok content ∧
      exec .extract s = .next (Spec.ok
        ((ExtractPlan.ofParts s h (tag, (payloadRead s h).getD 80 false, content)).written s) (BitVec.ofNat 32 n)) := by
  obtain ⟨tag, cipher, htag, rfl, hbits, hparse⟩ := hread.exists_parts hlen hn
  obtain ⟨content, hcontent, hlength, hbyte⟩ := exists_extractedContent hflag cipher
  refine ⟨tag, cipher, content, htag, rfl, hlength, hbits, hbyte, hcontent, ?_⟩
  rw [← hlength]
  refine exec_extract_of_plan (p := ExtractPlan.ofParts s h _) ?_
  rw [hread.extractPlan_eq_parsed hkey hroom, hparse, parsedParts, hcontent]
  rfl

end Extract

/-- The checks in the words of the statements, up to the payload's own, pass with the header read. -/
theorem readsHeader_of_isValue {s : State} {len : Nat} (hlow : 35 ≤ s.cap.toNat)
    (hhigh : s.cap.toNat ≤ s.cfg.coverSize) (hklen : s.klen.toNat ≤ s.cfg.keySize)
    (h : Spec.IsValue ((List.range 32).map fun i => Spec.coverBit s (3 + i)) len) :
    ReadsHeader s { rand := Spec.coverBit s 0, m := Spec.headerM s, len := len } :=
  ⟨⟨hlow, hhigh⟩, hklen, readHeader_eq h⟩

/-! ## EXTRACT from a cover EMBED wrote -/

theorem payloadBits_inj {tag tag' content content' : List Byte} {enc enc' : Bool} (htag : tag.length = tag'.length)
    (h : payloadBits tag enc content = payloadBits tag' enc' content') :
    tag = tag' ∧ enc = enc' ∧ content = content' := by
  rw [payloadBits, payloadBits, List.append_assoc, List.append_assoc] at h
  obtain ⟨htags, hrest⟩ := List.append_inj h (by rw [bytesToBits_length, bytesToBits_length, htag])
  obtain ⟨henc, hcontents⟩ := List.cons.inj hrest
  exact ⟨bytesToBits_inj htags, henc, bytesToBits_inj hcontents⟩

/-- CTRL is its two fields when its reserved bits are 0 (R22). -/
theorem eq_ctrlOf_of_lt {ctrl : Word} (h : ctrl.toNat < 4) : ctrl = ctrlOf (isRand ctrl) (isEnc ctrl) := by
  have hall : ∀ n < 4, BitVec.ofNat 32 n = ctrlOf (isRand (BitVec.ofNat 32 n)) (isEnc (BitVec.ofNat 32 n)) := by
    decide
  simpa using hall ctrl.toNat h

theorem keySeed_congr {s u : State} (hkey : u.key = s.key) (hklen : u.klen = s.klen) :
    Spec.keySeed u = Spec.keySeed s := by
  rw [Spec.keySeed, Spec.keySeed, hkey, hklen]

/-- `u` has the cover that EMBED with the plan `p` leaves from `s`, and the same CFG and CAP; its key may be any. -/
structure HoldsEmbedding (s : State) (p : EmbedPlan) (u : State) : Prop where
  cfg : u.cfg = s.cfg
  cap : u.cap = s.cap
  cover : u.cover = embedCover s.cover (isRand s.ctrl) s.m.toNat p
  klen : u.klen.toNat ≤ s.cfg.keySize

/-- The header EMBED writes (R210). -/
def embeddedHeader (s : State) (p : EmbedPlan) : Header := { rand := isRand s.ctrl, m := s.m.toNat, len := p.len }

section Embedded

variable {s u : State} {p : EmbedPlan} (hp : EmbedPasses s p) (hwf : Memory.wf s.cover) (hlt : p.len < 2 ^ 32)
  (hu : HoldsEmbedding s p u)
include hp hu

theorem HoldsEmbedding.hasRoom :
    Spec.HasRoom u (embeddedHeader s p).rand (neededUnits (embeddedHeader s p).len (embeddedHeader s p).m) := by
  have hroom := hp.hasRoom
  rw [Spec.HasRoom, ← hu.cfg, ← hu.cap] at hroom
  exact hroom

include hwf hlt

theorem HoldsEmbedding.readsHeader : ReadsHeader u (embeddedHeader s p) := by
  have hstart := hp.start_ge
  have hroom := hp.room
  have hcap := hp.inside.1
  refine ⟨?_, hu.cfg ▸ hu.klen, ?_⟩
  · rw [hu.cfg, hu.cap]
    omega
  · rw [hu.cover]
    exact (hp.reads_back hwf hlt).1

/-- Read with the same seed, or from a fixed place, the payload is the one embedded. -/
theorem HoldsEmbedding.payloadRead_eq (hseed : isRand s.ctrl = true → Spec.keySeed u = Spec.keySeed s) :
    payloadRead u (embeddedHeader s p) = p.payload := by
  obtain ⟨hstart, -⟩ := hp.start_and_seed_eq
  have hsame : Spec.startOffset u (isRand s.ctrl) (neededUnits p.len s.m.toNat) = p.start := by
    rw [hstart, Spec.startOffset, Spec.startOffset]
    split_ifs with hrand
    · rw [hseed hrand, hu.cfg, hu.cap]
    · rfl
  rw [payloadRead, hu.cover]
  exact hsame ▸ hp.units ▸ (hp.reads_back hwf hlt).2

theorem HoldsEmbedding.flag_eq (hseed : isRand s.ctrl = true → Spec.keySeed u = Spec.keySeed s) :
    (payloadRead u (embeddedHeader s p)).getD 80 false = isEnc s.ctrl := by
  obtain ⟨content, -, hpayload⟩ := hp.payload
  rw [hu.payloadRead_eq hp hwf hlt hseed, hpayload, payloadBits_getD_flag s.tagWindow_length]

end Embedded

/-- EXTRACT from a cover EMBED wrote, with the key of EMBED: what it writes (R223). -/
theorem HoldsEmbedding.exec_extract {s u : State} {p : EmbedPlan} (hp : EmbedPasses s p) (hwf : Memory.wf s.cover)
    (hlt : p.len < 2 ^ 32) (hu : HoldsEmbedding s p u) (hkey : u.key = s.key) (hklen : u.klen = s.klen) :
    exec .extract u = .next (Spec.ok
      ((ExtractPlan.ofParts u (embeddedHeader s p) (s.tagWindow, isEnc s.ctrl, s.dataWindow)).written u) s.dlen) := by
  have hseed : isRand s.ctrl = true → Spec.keySeed u = Spec.keySeed s := fun _ => keySeed_congr hkey hklen
  have hneed : isEnc s.ctrl = true ∨ isRand s.ctrl = true → u.klen.toNat ≠ 0 := fun hor hzero =>
    hp.key hor (BitVec.eq_of_toNat_eq (hklen ▸ hzero))
  have hflag := hu.flag_eq hp hwf hlt hseed
  obtain ⟨content, hcontent, hpayload⟩ := hp.payload
  obtain ⟨tag, cipher, plain, htag, -, -, hbits, -, hplain, hexec⟩ :=
    (hu.readsHeader hp hwf hlt).exec_completes (fun hrand => hneed (.inr hrand)) (hu.hasRoom hp) hp.len
      (hu.cfg ▸ hp.inside.2.1) (fun henc => hneed (.inl (hflag ▸ henc)))
  rw [hu.payloadRead_eq hp hwf hlt hseed, hpayload] at hbits
  obtain ⟨rfl, -, rfl⟩ := payloadBits_inj (s.tagWindow_length.trans htag.symm) hbits
  have hwindow : u.keyWindow = s.keyWindow := by rw [State.keyWindow, State.keyWindow, hkey, hklen]
  rw [hflag, hwindow] at hplain
  cases hplain.symm.trans (extractedContent_embeddedContent hcontent)
  rw [hexec, hflag, BitVec.ofNat_toNat, BitVec.setWidth_eq]

/-! ## Where no key is needed -/

/-- EMBED with CTRL's two bits 0 plans alike with every key (R225). -/
theorem embedPlan_withKey {s : State} (hrand : isRand s.ctrl = false) (henc : isEnc s.ctrl = false) (key : Memory 8)
    {klen : Word} (hold : s.klen.toNat ≤ s.cfg.keySize) (hnew : klen.toNat ≤ s.cfg.keySize) :
    embedPlan { s with key := key, klen := klen } = embedPlan s := by
  have hout : State.embedOutside { s with key := key, klen := klen } = s.embedOutside := by
    simp [State.embedOutside, State.lengthsOutside, Nat.not_lt.mpr hold, Nat.not_lt.mpr hnew]
  unfold embedPlan
  rw [hout]
  simp only [hrand, henc, placement, embeddedContent, State.dataWindow, State.tagWindow]
  rfl

/-- A payload whose flag is 0 is parsed alike with every key (R225). -/
theorem parsePayload_withKey {dataSize len : Nat} {key tag content : List Byte} {bits : List Bool}
    (hbits : bits.length = len) (h : parsePayload dataSize key len bits = .ok (tag, false, content))
    (key' : List Byte) : parsePayload dataSize key' len bits = .ok (tag, false, content) := by
  obtain ⟨-, rfl, hn⟩ := parsePayload_lengths hbits h
  obtain ⟨tag', cipher, -, -, -, hparse⟩ := exists_parts_of_length hbits hn
  have hflag : bits.getD 80 false = false := parsedParts_flag ((hparse key).symm.trans h)
  rw [hparse, hflag] at h ⊢
  exact h

/-- EXTRACT that needed no key passes its checks with every key (R225). -/
theorem ExtractPasses.withKey {s : State} {p : ExtractPlan} (h : ExtractPasses s p) (hrand : p.rand = false)
    (henc : p.enc = false) (key : Memory 8) {klen : Word} (hklen : klen.toNat ≤ s.cfg.keySize) :
    ExtractPasses { s with key := key, klen := klen } p where
  inside := ⟨h.inside.1, hklen⟩
  header := h.header
  key := fun hneed => by cases hrand.symm.trans hneed
  place := by
    have hplace := h.place
    rw [hrand] at hplace ⊢
    exact hplace
  room := h.room
  parse := by
    have hparse := h.parse
    have hm := (readHeader_bounds s.cover).1
    rw [h.header.2] at hm
    rw [henc] at hparse ⊢
    refine parsePayload_withKey ?_ hparse _
    rw [unpackUnits_length]
    exact Nat.min_eq_right (neededUnits_ge p.len p.m hm)

theorem ctrlOf_isEnc (rand enc : Bool) : (ctrlOf rand enc).getLsbD 1 = enc := by
  cases rand <;> cases enc <;> rfl

/-! ## The header by commands of family 41 -/

/-- Packing a sequence is packing its first units and then the others (R144). -/
theorem packUnits_append (m n k : Nat) (cover : Memory 16) (i : Nat) (bits rest : List Bool)
    (h : bits.length = n * m) :
    packUnits m (n + k) cover i (bits ++ rest) = packUnits m k (packUnits m n cover i bits) (i + n) rest := by
  induction n generalizing cover i bits with
  | zero =>
    obtain rfl := List.length_eq_zero_iff.mp (h.trans (Nat.zero_mul m))
    rw [Nat.zero_add]
    rfl
  | succ n ih =>
    rw [Nat.succ_mul] at h
    rw [Nat.succ_add, packUnits, packUnits, List.take_append_of_le_length (by omega),
      List.drop_append_of_le_length (by omega), ih _ _ _ (by rw [List.length_drop]; omega),
      Nat.add_assoc, Nat.add_comm 1 n]

/-- One bit per unit: bit 0 of a unit packed is its bit of the sequence, all else is as before (R210). -/
theorem read_packUnits_one_getLsbD {cover : Memory 16} (h : Memory.wf cover) (bits : List Bool) (u j : Nat) :
    (Memory.read (packUnits 1 bits.length cover 0 bits) u).getLsbD j =
      if u < bits.length ∧ j = 0 then bits.getD u false else (Memory.read cover u).getLsbD j := by
  rw [read_packUnits _ _ _ h]
  by_cases hu : u < bits.length
  · rw [if_pos (by omega), Nat.sub_zero, Nat.mul_one, List.drop_eq_getElem_cons hu, List.take_succ_cons,
      List.take_zero, packUnit_singleton_getLsbD, List.getD_eq_getElem _ _ hu]
    simp only [hu, true_and]
  · rw [if_neg (by omega), if_neg (fun hcase => hu hcase.1)]

/-- `PACK 1` into each of `n` units from unit `i` on (R227). -/
def packEach (i n : Nat) : List Instr := (List.range' i n).map fun u => .pack 1 (BitVec.ofNat 32 u)

/-- `PUSHV` of `k` bits and then `PACK 1` for each of them, into the units from unit `i` on (R227). -/
def pushPack (k : Nat) (value : Word) (i : Nat) : List Instr := .pushv (BitVec.ofNat 8 k) value :: packEach i k

/-- The packing commands of the whole queue take its bits, one per unit (R152). -/
theorem runs_packEach (bits : List Bool) (s : State) (hq : s.bq = bits) (i : Nat)
    (hsize : s.cfg.coverSize ≤ 2 ^ 32 - 1) (hfit : i + bits.length ≤ s.cfg.coverSize) (rest : List CommandWord) :
    ∃ rs, Runs bits.length { s with cmds := (packEach i bits.length).map encode ++ rest }
      { s with bq := [], cover := packUnits 1 bits.length s.cover i bits, cmds := rest, rsps := rs } := by
  induction bits generalizing s i with
  | nil => exact ⟨s.rsps, (runs_zero _ _).mpr (congrArg (fun bq => { s with bq := bq, cmds := rest }) hq)⟩
  | cons b bits ih =>
    rw [List.length_cons] at hfit
    have hi : (BitVec.ofNat 32 i).toNat = i := by
      rw [BitVec.toNat_ofNat]
      exact Nat.mod_eq_of_lt (by omega)
    have hinside : i < s.cfg.coverSize := by omega
    have hpack := exec_pack_writes (s := { s with cmds := (packEach (i + 1) bits.length).map encode ++ rest })
      (k := 1) (index := BitVec.ofNat 32 i) le_rfl (le_trans (by decide) (mMax_ge s.cfg)) (hi.symm ▸ hinside)
      (by show 1 ≤ s.bq.length; rw [hq]; exact Nat.succ_pos _)
    obtain ⟨rs, hrun⟩ := ih
      { s with
        bq := bits, cover := Memory.write s.cover i (packUnit (Memory.read s.cover i) [b])
        rsps := s.rsps ++ [⟨.ok, 0⟩] } rfl (i + 1) hsize (by show i + 1 + bits.length ≤ s.cfg.coverSize; omega)
    refine ⟨rs, (runs_succ _ _ _).mpr ⟨_, (step_of_encode rfl rfl).trans hpack, ?_⟩⟩
    simpa [hq, hi, Spec.ok, packUnits] using hrun

/-- From an empty queue, a push and its packing commands write the value's bits, one per unit (R150, R152). -/
theorem runs_pushPack {s : State} (hq : s.bq = []) {k : Nat} (hpos : 1 ≤ k) (hk : k ≤ 32) {value : Word}
    (hvalue : value.toNat < 2 ^ k) {i : Nat} (hsize : s.cfg.coverSize ≤ 2 ^ 32 - 1)
    (hfit : i + k ≤ s.cfg.coverSize) (rest : List CommandWord) :
    ∃ rs, Runs (k + 1) { s with cmds := (pushPack k value i).map encode ++ rest }
      { s with cover := packUnits 1 k s.cover i (bitsof k value.toNat), cmds := rest, rsps := rs } := by
  have hk8 : (BitVec.ofNat 8 k).toNat = k := by
    rw [BitVec.toNat_ofNat]
    exact Nat.mod_eq_of_lt (by omega)
  have hpush := exec_pushv_appends (s := { s with cmds := (packEach i k).map encode ++ rest })
    (k := BitVec.ofNat 8 k) (value := value) (by omega) (by omega) (hk8.symm ▸ hvalue) (by rw [hk8, hq]; simpa using hk)
  rw [hk8] at hpush
  obtain ⟨rs, hrun⟩ := runs_packEach (bitsof k value.toNat)
    { s with bq := bitsof k value.toNat, rsps := s.rsps ++ [⟨.ok, 0⟩] } rfl i hsize
    (by rw [bitsof_length]; exact hfit) rest
  rw [bitsof_length] at hrun
  refine ⟨rs, (runs_succ _ _ _).mpr ⟨_, (step_of_encode rfl rfl).trans hpush, ?_⟩⟩
  simpa [hq, Spec.ok] using hrun

/-- The header's three fields, packed one after the other from unit 0 on, are the header (R210). -/
theorem packUnits_headerBits (cover : Memory 16) (rand : Bool) (m len : Nat) :
    packUnits 1 32 (packUnits 1 2 (packUnits 1 1 cover 0 [rand]) 1 (bitsof 2 (m - 1))) 3 (bitsof 32 len) =
      packUnits 1 35 cover 0 (headerBits rand m len) := by
  rw [headerBits, List.append_assoc, packUnits_append 1 1 34 cover 0 _ _ rfl,
    packUnits_append 1 2 32 _ _ _ _ (bitsof_length _ _)]

/-- The header packed: its bits in bit 0 of units 0 to 34, all else as before (R210). -/
theorem read_packUnits_headerBits_getLsbD {cover : Memory 16} (h : Memory.wf cover) (rand : Bool) (m len u j : Nat) :
    (Memory.read (packUnits 1 35 cover 0 (headerBits rand m len)) u).getLsbD j =
      if u < 35 ∧ j = 0 then Spec.headerBit rand m len u else (Memory.read cover u).getLsbD j := by
  have hbits := read_packUnits_one_getLsbD h (headerBits rand m len) u j
  rw [headerBits_length] at hbits
  rw [hbits]
  refine if_ctx_congr Iff.rfl (fun hu => ?_) fun _ => rfl
  exact headerBits_getD rand m len hu.1

/-- The commands of R227: each header field pushed, then packed one bit per unit. -/
def headerProgram (rand : Bool) (m : Nat) (len : Word) : List Instr :=
  pushPack 1 (BitVec.ofNat 32 rand.toNat) 0 ++ (pushPack 2 (BitVec.ofNat 32 (m - 1)) 1 ++ pushPack 32 len 3)

theorem headerProgram_eq (rand : Bool) (m : Nat) (len : Word) : headerProgram rand m len =
    [.pushv 1 (BitVec.ofNat 32 rand.toNat), .pack 1 0, .pushv 2 (BitVec.ofNat 32 (m - 1)), .pack 1 1, .pack 1 2,
      .pushv 32 len] ++ (List.range 32).map (fun i => .pack 1 (BitVec.ofNat 32 (3 + i))) := by
  rw [headerProgram, pushPack, pushPack, pushPack, packEach, packEach, packEach,
    List.range'_eq_map_range (s := 3), List.map_map]
  rfl

/-- The header program leaves the header in COVER, and all else but the ports as before (R227). -/
theorem runsProgram_header {s : State} (hq : s.bq = []) (rand : Bool) {m : Nat} (hm4 : m ≤ 4) (len : Word)
    (hcover : 35 ≤ s.cfg.coverSize) (hsize : s.cfg.coverSize ≤ 2 ^ 32 - 1) :
    ∃ rs, RunsProgram (headerProgram rand m len) s
      { s with cover := packUnits 1 35 s.cover 0 (headerBits rand m len.toNat), cmds := [], rsps := rs } := by
  have hm : (BitVec.ofNat 32 (m - 1)).toNat = m - 1 := by
    rw [BitVec.toNat_ofNat]
    exact Nat.mod_eq_of_lt (by omega)
  have hrand : bitsof 1 (BitVec.ofNat 32 rand.toNat).toNat = [rand] := by cases rand <;> rfl
  obtain ⟨rs₁, hrun₁⟩ := runs_pushPack hq (k := 1) (value := BitVec.ofNat 32 rand.toNat) (i := 0) (by decide)
    (by decide) (by cases rand <;> decide) hsize (by omega)
    ((pushPack 2 (BitVec.ofNat 32 (m - 1)) 1 ++ pushPack 32 len 3).map encode)
  obtain ⟨rs₂, hrun₂⟩ := runs_pushPack (s := { s with cover := packUnits 1 1 s.cover 0 [rand], rsps := rs₁ }) hq
    (k := 2) (value := BitVec.ofNat 32 (m - 1)) (i := 1) (by decide) (by decide) (by omega) hsize
    (by show 1 + 2 ≤ s.cfg.coverSize; omega) ((pushPack 32 len 3).map encode)
  obtain ⟨rs₃, hrun₃⟩ := runs_pushPack
    (s := { s with cover := packUnits 1 2 (packUnits 1 1 s.cover 0 [rand]) 1 (bitsof 2 (m - 1)), rsps := rs₂ }) hq
    (k := 32) (value := len) (i := 3) (by decide) (by decide) len.isLt hsize hcover []
  rw [hrand, ← List.map_append] at hrun₁
  rw [hm, ← List.map_append] at hrun₂
  rw [packUnits_headerBits, List.append_nil] at hrun₃
  have hlength : (headerProgram rand m len).length = 2 + (3 + 33) := by
    simp [headerProgram, pushPack, packEach]
  refine ⟨rs₃, ?_⟩
  rw [RunsProgram, hlength]
  exact (runs_add _ _ _ _).mpr ⟨_, hrun₁, (runs_add _ _ _ _).mpr ⟨_, hrun₂, hrun₃⟩⟩

end Sys2Proof.Machine

namespace Sys2Proof.Proofs.CodecRules

open Sys2Proof Sys2Proof.Machine

/-- Settles O45, outcome by outcome in the order of the checks. -/
theorem embedErrorsInOrder : Obligations.EmbedErrorsInOrder := by
  intro s units
  refine ⟨onlyWord_of_encode rfl rfl, exec_embed_outside, fun hcap hdlen hklen => ?_⟩
  have hin : ¬s.embedOutside = true := by rw [State.embedOutside_iff]; omega
  refine ⟨exec_embed_badM hin, fun hlow hhigh => ?_⟩
  have hm : ¬(s.m.toNat < 1 ∨ 4 < s.m.toNat) := by omega
  refine ⟨exec_embed_noKey hin hm, fun hkey hceil hroom => ?_⟩
  obtain rfl := neededUnits_of_isCeilDiv hlow hceil
  exact exec_embed_noRoom hin hm hkey hroom

/-- Settles O46: the plan that passes the checks, its length and start within their registers. -/
theorem embedCompletes : Obligations.EmbedCompletes := by
  intro s units hcfg hready
  obtain ⟨p, hp, rfl⟩ := exists_passes_of_embedReady hready
  obtain ⟨hstart, hseed⟩ := hp.start_and_seed_eq
  refine ⟨embedCover s.cover (isRand s.ctrl) s.m.toNat p, BitVec.ofNat 32 p.len, BitVec.ofNat 32 p.start, ?_, ?_, ?_⟩
  · rw [exec_embed_of_passes hp, EmbedPlan.written, hseed, seedAfter_placementSeed]
    rfl
  · rw [BitVec.toNat_ofNat, Nat.mod_eq_of_lt (hp.len_lt hcfg)]
    exact hp.len
  · rw [hp.toNat_ofNat_start, hstart, hp.units]
    rfl

/-- Settles O47: a header unit takes one bit, its bit 0. -/
theorem embedWritesHeader : Obligations.EmbedWritesHeader := by
  intro s t units hwf hready hexec i hi j
  obtain ⟨p, hp, -, rfl⟩ := exists_plan_of_exec_embed hready hexec
  show (Memory.read (embedCover s.cover (isRand s.ctrl) s.m.toNat p) i).getLsbD j = _
  rw [hp.read_embedCover hwf, if_pos hi, packUnit_singleton_getLsbD, headerBits_getD _ _ _ hi, hp.len]
  rfl

/-- Settles O48: a payload unit takes its group of the payload's bits, and the two regions are all EMBED writes. -/
theorem embedWritesPayload : Obligations.EmbedWritesPayload := by
  intro s t units hwf hready hexec
  obtain ⟨p, hp, rfl, rfl⟩ := exists_plan_of_exec_embed hready hexec
  have hstart : (Spec.ok (p.written s) (BitVec.ofNat 32 p.start)).start.toNat = p.start := hp.toNat_ofNat_start
  have hcover : (Spec.ok (p.written s) (BitVec.ofNat 32 p.start)).cover =
      embedCover s.cover (isRand s.ctrl) s.m.toNat p := rfl
  have hlen : 81 + 8 * s.dlen.toNat = p.len := hp.len.symm
  have hge := hp.start_ge
  rw [hstart, hcover, hlen]
  refine ⟨fun j hj b => ?_, fun u hu hout => ?_, rfl⟩
  · rw [hp.read_embedCover hwf, if_neg (by omega), if_pos (by omega), Nat.add_sub_cancel_left,
      hp.packed_group_getLsbD]
  · rw [hp.read_embedCover hwf, if_neg (by omega), if_neg (by omega)]

/-- Settles O50, outcome by outcome in the order of the checks. -/
theorem extractErrorsInOrder : Obligations.ExtractErrorsInOrder := by
  intro s len units
  refine ⟨onlyWord_of_encode rfl rfl, exec_extract_outside, fun hcap hklen => ⟨exec_extract_noHeader (by omega),
    fun hlow hvalue hceil => ?_⟩⟩
  have hm := headerM_range s
  have hread := readsHeader_of_isValue hlow hcap hklen hvalue
  obtain rfl := neededUnits_of_isCeilDiv hm.1 hceil
  refine ⟨⟨hm.1, hm.2.trans (mMax_ge s.cfg)⟩, hread.exec_noKey, fun hkey => ⟨hread.exec_noRoom hkey, fun hroom => ?_⟩⟩
  refine ⟨fun hform => hread.exec_of_parse_error hkey hroom (parsePayload_malformed _ _ hform), fun h81 h8 => ?_⟩
  refine ⟨fun hlong => hread.exec_of_parse_error hkey hroom (parsePayload_tooLong _ _ h81 h8 hlong),
    fun hfits hzero hflag => ?_⟩
  refine hread.exec_flag_noKey hkey hroom (n := (len - 81) / 8) (by show len = _; omega) hfits ?_ hzero
  rw [payloadRead_getD hm.1 (by show 80 < len; omega)]
  exact hflag

/-- Settles O51: the parts of the payload read are the tag and the bytes of the content, each register at its value. -/
theorem extractRecoversTagAndContent : Obligations.ExtractRecoversTagAndContent := by
  intro s len units n htagwf hdatawf hready hlen hn bit hflag
  have hm := headerM_range s
  have hread := readsHeader_of_isValue hready.cap.1 hready.cap.2 hready.klen hready.headerLength
  obtain rfl := neededUnits_of_isCeilDiv hm.1 hready.units
  have hbit : ∀ i < len, (payloadRead s ⟨Spec.coverBit s 0, Spec.headerM s, len⟩).getD i false = bit i :=
    fun i hi => payloadRead_getD hm.1 hi
  have hstart := startOffset_range hready.room
  have hcap := s.cap.isLt
  have hlt := hready.headerLength.1
  rw [List.length_map, List.length_range] at hlt
  rw [← hbit 80 (by omega)] at hflag
  obtain ⟨tag, cipher, content, htag, hcipher, hcontent, hbits, hbyte, -, hexec⟩ :=
    hread.exec_completes hready.key hready.room hlen hn hflag
  rw [hbit 80 (by omega)] at hbits hbyte hexec
  have hpart : ∀ i < len, (payloadBits tag (bit 80) cipher).getD i false = bit i := fun i hi => by
    rw [← hbits, hbit i hi]
  refine ⟨Memory.writeFrom s.tag 0 tag, Memory.writeFrom s.data 0 content,
    BitVec.ofNat 32 (Spec.startOffset s (Spec.coverBit s 0) (neededUnits len (Spec.headerM s))), BitVec.ofNat 32 n,
    ?_, ?_, ?_, Memory.wf_writeFrom _ _ htagwf _, Memory.wf_writeFrom _ _ hdatawf _, fun i => ?_, ?_⟩
  · rw [hexec, ExtractPlan.written, ExtractPlan.ofParts, seedAfter_placementSeed, hcontent]
    rfl
  · rw [BitVec.toNat_ofNat, Nat.mod_eq_of_lt (by omega)]
  · rw [BitVec.toNat_ofNat, Nat.mod_eq_of_lt (by omega)]
  · rw [read_writeFrom_zero htagwf, htag]
    split_ifs with hi
    · intro j hj
      rw [← hpart _ (by omega), payloadBits_getD_tag htag hi hj]
    · rfl
  · refine ⟨fun i => cipher.getD i 0, fun i hi j hj => ?_, fun i => ?_⟩
    · rw [← hpart _ (by omega), payloadBits_getD_content htag hj]
    · rw [read_writeFrom_zero hdatawf, hcontent, apply_ite BitVec.toNat]
      exact if_ctx_congr Iff.rfl (hbyte i) fun _ => rfl

/-- Settles O52: the cover holds the embedding, and EXTRACT writes back its windows and header fields. -/
theorem extractInvertsEmbed : Obligations.ExtractInvertsEmbed := by
  intro s units hcfg hinv hready
  obtain ⟨p, hp, -⟩ := exists_passes_of_embedReady hready
  refine ⟨_, exec_embed_of_passes hp, fun u hucfg hucover hukey huklen hucap htag hdata => ?_⟩
  have hu : HoldsEmbedding s p u := ⟨hucfg, hucap, hucover, (congrArg BitVec.toNat huklen).trans_le hready.klen⟩
  have hdlen : BitVec.ofNat 32 s.dataWindow.length = s.dlen := by
    rw [State.dataWindow, Memory.window_length, BitVec.ofNat_toNat, BitVec.setWidth_eq]
  refine ⟨_, hu.exec_extract hp hinv.cover.1 (hp.len_lt hcfg) hukey huklen, rfl, hdlen, fun i hi => ?_, fun i hi => ?_,
    (eq_ctrlOf_of_lt hinv.ctrl).symm, ?_⟩
  · show Memory.read (Memory.writeFrom u.data 0 s.dataWindow) i = _
    rw [read_writeFrom_zero hdata, State.dataWindow, Memory.window_length, if_pos hi, window_getD _ hi]
  · show Memory.read (Memory.writeFrom u.tag 0 s.tagWindow) i = _
    rw [read_writeFrom_zero htag, s.tagWindow_length, if_pos hi, s.tagWindow_getD hi]
  · show BitVec.ofNat 32 s.m.toNat = s.m
    rw [BitVec.ofNat_toNat, BitVec.setWidth_eq]

/-- Settles O53. The header and the room do not depend on the key; where CTRL is 0 neither does the payload, whose flag
is then 0, and where the placement is fixed the flag is that of CTRL. -/
theorem wrongKeyIsNotAnError : Obligations.WrongKeyIsNotAnError := by
  intro s units hcfg hinv hready
  obtain ⟨p, hp, -⟩ := exists_passes_of_embedReady hready
  refine ⟨_, exec_embed_of_passes hp, fun key klen hklen => ?_⟩
  have hwf := hinv.cover.1
  have hlt := hp.len_lt hcfg
  have hu : HoldsEmbedding s p { Spec.ok (p.written s) (BitVec.ofNat 32 p.start) with key := key, klen := klen } :=
    ⟨rfl, rfl, rfl, hklen⟩
  have hread := hu.readsHeader hp hwf hlt
  have hfixed (hrand : isRand s.ctrl = false) := hu.flag_eq hp hwf hlt fun h => by cases hrand.symm.trans h
  refine ⟨fun hcase => ?_, fun hzero hctrl => ?_⟩
  · have hneed : isRand s.ctrl = true → klen.toNat ≠ 0 := fun hrand => hcase.resolve_right fun hctrl => by
      rw [hctrl] at hrand
      cases hrand
    have hflag : (payloadRead _ (embeddedHeader s p)).getD 80 false = true → klen.toNat ≠ 0 := fun hflag =>
      hcase.resolve_right fun hctrl => by
        rw [hfixed (by rw [hctrl]; rfl), hctrl] at hflag
        cases hflag
    obtain ⟨tag, cipher, content, -, -, -, -, -, -, hexec⟩ :=
      hread.exec_completes hneed (hu.hasRoom hp) hp.len hp.inside.2.1 hflag
    refine ⟨_, hexec, ?_⟩
    rw [BitVec.ofNat_toNat, BitVec.setWidth_eq]
    rfl
  · cases hrand : isRand s.ctrl with
    | true => exact hread.exec_noKey hrand hzero
    | false =>
      have henc : isEnc s.ctrl = true := by
        by_contra henc
        rw [Bool.not_eq_true] at henc
        apply hctrl
        rw [eq_ctrlOf_of_lt hinv.ctrl, hrand, henc]
        rfl
      exact hread.exec_flag_noKey (fun h => by cases hrand.symm.trans h) (hu.hasRoom hp) hp.len hp.inside.2.1
        ((hfixed hrand).trans henc) hzero

/-- Settles O54: EMBED plans alike with every key, failing or not; EXTRACT passes its checks alike. -/
theorem unneededKeyIsNotRead : Obligations.UnneededKeyIsNotRead := by
  refine ⟨fun s t key klen hrand henc hold hnew hexec => ?_, fun s t key klen v hrand hklen hexec hok hflag => ?_⟩
  · rw [exec_embed, execEmbed] at hexec ⊢
    rw [embedPlan_withKey hrand henc key hold hnew]
    cases hplan : embedPlan s with
    | error c => rw [hplan] at hexec; cases hexec; rfl
    | ok p => rw [hplan] at hexec; cases hexec; rfl
  · obtain ⟨u, ⟨p, hplan, rfl, rfl⟩, rfl⟩ := Effect.of_exec_ok hexec hok
    have hp := (extractPlan_ok_iff s p).mp hplan
    have henc : p.enc = false := (ctrlOf_isEnc p.rand p.enc).symm.trans hflag
    have hprand : p.rand = false := by rw [← hrand, ← readHeader_rand, hp.header.2]
    exact exec_extract_of_plan ((extractPlan_ok_iff _ p).mpr (hp.withKey hprand henc key hklen))

/-- Settles O55: the commands are `headerProgram`, which packs the header's bits one per unit. -/
theorem headerByBitPackerCommands : Obligations.HeaderByBitPackerCommands := by
  intro s rand m len hq hwf hcover hsize hlow hhigh
  obtain ⟨rs, hrun⟩ := runsProgram_header hq rand hhigh len hcover hsize
  rw [headerProgram_eq] at hrun
  refine ⟨_, hrun, hq, rfl, fun u j => ?_⟩
  rw [read_packUnits_headerBits_getLsbD hwf]

end Sys2Proof.Proofs.CodecRules

/-! PROOFS. The statements of 60_exceptions.md. The response tells how a command ended, and `exec_withAside` how it ends
once ERR and the response port have changed: it fails again after it failed (R254), and it keeps ERR where it answers
`OK` (R253). A word with a non-zero must-be-zero field selects no row (R96). -/

namespace Sys2Proof

theorem Row.bField_eq_zero_of_selects {r : Row} {w : CommandWord} (h : r.selects w = true) (hb : r.bUse = .zero) :
    bField w = 0 := by
  obtain ⟨-, hz⟩ := (Row.selects_iff r w).mp h
  simp only [Row.unusedZero, hb, Bool.and_eq_true, beq_iff_eq] at hz
  obtain ⟨⟨-, hbzero⟩, -⟩ := hz
  exact hbzero

/-- Opcode 0x01 is WRR's, whose `b` field must be zero (R94, R95). -/
theorem bUse_of_op_wrr : ∀ r ∈ commandTable, r.op = 0x01 → r.bUse = .zero := by decide

end Sys2Proof

namespace Sys2Proof.Machine

/-! ## The response a command ended with -/

theorem response_of_raise {c : Status} {s t : State} {r : Response} (h : raise c s = .next t)
    (hr : t.rsps = s.rsps ++ [r]) : r = ⟨c, 0⟩ := by
  cases h
  simpa using hr.symm

theorem response_of_respond {v : Word} {s u t : State} {r : Response} (h : respond v u = .next t)
    (hu : u.rsps = s.rsps) (hr : t.rsps = s.rsps ++ [r]) : r = ⟨.ok, v⟩ := by
  cases h
  simpa [hu] using hr.symm

theorem Status.code_le (c : Status) : c.code ≤ 8 := by
  cases c <;> decide

end Sys2Proof.Machine

namespace Sys2Proof.Proofs.ExceptionRules

open Sys2Proof Sys2Proof.Machine

/-- Settles O14. The failed state differs from the start in ERR and the response port alone, and from there the command
ends as it did. -/
theorem failedCommandChangesOnlyErr : Obligations.FailedCommandChangesOnlyErr := by
  intro i s t r h hr hne
  rcases exec_withAside i s t.err t.cmds t.rsps with ⟨c, hc, he, hagain⟩ | ⟨v, _, u, _, he, -, -, hrsps, -⟩
  · obtain rfl := response_of_raise (he.symm.trans h) hr
    rw [raise_eq_failed hc] at he hagain
    obtain rfl := Host.Outcome.next.inj (h.symm.trans he)
    exact ⟨rfl, hagain⟩
  · obtain rfl := response_of_respond (he.symm.trans h) hrsps hr
    exact absurd rfl hne

/-- Settles O15. A command that answers `OK` keeps ERR or is a WRR to ERR; a WRR word with a non-zero `b` field selects
no row. -/
theorem succeedingCommandKeepsErr : Obligations.SucceedingCommandKeepsErr := by
  refine ⟨fun i s t v h hr hi => ?_, fun s b imm rest hb hc => ?_⟩
  · rcases exec_withAside i s s.err s.cmds s.rsps with ⟨c, hne, he, -⟩ | ⟨_, _, u, _, he, -, -, -, -, herr⟩
    · cases response_of_raise (he.symm.trans h) hr
      exact absurd rfl hne
    · cases h.symm.trans he
      rcases herr with ⟨hkept, -⟩ | ⟨⟨x, hx⟩, -⟩
      · exact hkept
      · exact absurd hx (hi x)
  · rw [← raise_illegalCommand_eq_failed]
    refine step_of_no_row_selected hc fun r hr hsel => hb ?_
    obtain ⟨hop, -⟩ := (Row.selects_iff r _).mp hsel
    rw [opField_commandWord] at hop
    simpa using Row.bField_eq_zero_of_selects hsel (bUse_of_op_wrr r hr hop.symm)

/-- Settles O7. -/
theorem idleStateHolds : Obligations.IdleStateHolds := by
  intro s hidle
  rcases step_cases s with ⟨-, hstep⟩ | ⟨w, rest, i, hc, -⟩ | ⟨w, rest, e, hc, -⟩
  · exact hstep
  · cases hidle.symm.trans hc
  · cases hidle.symm.trans hc

/-- Settles O10. The largest code and the largest value still fit the response word's 36 bits. -/
theorem statusNumbersAndResponseWord : Obligations.StatusNumbersAndResponseWord := by
  refine ⟨rfl, fun r => ?_⟩
  have hcode := r.status.code_le
  have hvalue := r.value.isLt
  rw [Response.word, BitVec.toNat_ofNat]
  exact Nat.mod_eq_of_lt (by omega)

end Sys2Proof.Proofs.ExceptionRules

/-! PROOFS. The statements of 70_reset_and_hazards.md. A placement leaves out the header units, and the safety behind
them where it is random (R195, R198); EMBED and EXTRACT leave the placement they checked in the registers (R286). -/

namespace Sys2Proof.Machine

/-- No payload is placed on the header units, and no random placement on the safety behind them. -/
theorem placement_ge {cfg : Config} {rand : Bool} {len m cap start : Nat} {key : List Byte} {seed : Option Word}
    (h : placement cfg rand len m cap key = some (start, seed)) :
    35 ≤ start ∧ (rand = true → 35 + cfg.safety ≤ start) := by
  rcases placement_spec cfg rand len m cap key with ⟨-, -, hnone⟩ | ⟨-, -, _, hdrawn, hstart, -⟩ | ⟨rfl, hfixed⟩
  · cases hnone.symm.trans h
  · cases hdrawn.symm.trans h
    omega
  · cases hfixed.symm.trans h
    exact ⟨le_rfl, fun hrand => by cases hrand⟩

/-- The payload region the registers of `t` describe avoids the header, by the safety too where CTRL says random, and
ends inside the cover of `s` (R70, R286). -/
def PayloadRegionClear (s t : State) : Prop :=
  35 ≤ t.start.toNat ∧ (t.ctrl.getLsbD 0 = true → 35 + s.cfg.safety ≤ t.start.toNat) ∧ 1 ≤ t.m.toNat ∧
    ∀ units, Spec.IsCeilDiv t.pbl.toNat t.m.toNat units → t.start.toNat + units ≤ s.cap.toNat

/-- It is enough that START, with the other registers of `t`, is a placement with room for the payload. -/
theorem payloadRegionClear_of_placement {s t : State} {seed : Option Word} (hm : 1 ≤ t.m.toNat)
    (hplace : placement s.cfg (isRand t.ctrl) t.pbl.toNat t.m.toNat s.cap.toNat s.keyWindow =
      some (t.start.toNat, seed))
    (hroom : t.start.toNat + neededUnits t.pbl.toNat t.m.toNat ≤ s.cap.toNat) : PayloadRegionClear s t := by
  obtain ⟨hheader, hsafety⟩ := placement_ge hplace
  refine ⟨hheader, hsafety, hm, fun units hceil => ?_⟩
  rw [← neededUnits_of_isCeilDiv hm hceil]
  exact hroom

theorem EmbedPasses.payloadRegionClear {s : State} {p : EmbedPlan} (h : EmbedPasses s p) (hcfg : s.cfg.Ok) :
    PayloadRegionClear s (p.written s) := by
  have hstart : (p.written s).start.toNat = p.start := h.toNat_ofNat_start
  have hlen : (p.written s).pbl.toNat = p.len := Nat.mod_eq_of_lt (h.len_lt hcfg)
  refine payloadRegionClear_of_placement (seed := p.seed) h.m.1 ?_ ?_ <;> rw [hstart, hlen]
  · exact h.place
  · exact h.units ▸ h.room

theorem ctrlOf_isRand (rand enc : Bool) : isRand (ctrlOf rand enc) = rand := by
  cases rand <;> cases enc <;> rfl

/-- `M` and `PBL` hold the fields of the header read, whatever CFG is (R211). -/
theorem ExtractPasses.payloadRegionClear {s : State} {p : ExtractPlan} (h : ExtractPasses s p) :
    PayloadRegionClear s (p.written s) := by
  obtain ⟨hlow, hhigh, hlt⟩ := readHeader_bounds s.cover
  rw [h.header.2] at hlow hhigh hlt
  have hfit : p.start < 2 ^ 32 := ((Nat.le_add_right _ _).trans h.room).trans_lt s.cap.isLt
  have hstart : (p.written s).start.toNat = p.start := Nat.mod_eq_of_lt hfit
  have hlen : (p.written s).pbl.toNat = p.len := Nat.mod_eq_of_lt hlt
  have hm : (p.written s).m.toNat = p.m := Nat.mod_eq_of_lt (hhigh.trans_lt (by decide))
  have hrand : isRand (p.written s).ctrl = p.rand := ctrlOf_isRand p.rand p.enc
  refine payloadRegionClear_of_placement (seed := p.seed) (hm.symm ▸ hlow) ?_ ?_
  · rw [hrand, hlen, hm, hstart]
    exact h.place
  · rw [hlen, hm, hstart]
    exact h.room

end Sys2Proof.Machine

namespace Sys2Proof.Proofs.ResetAndHazards

open Sys2Proof Sys2Proof.Machine

/-- Settles O49: a command that answers `OK` has written what a plan with passing checks says. -/
theorem payloadRegionAvoidsHeader : Obligations.PayloadRegionAvoidsHeader := by
  intro i s t v hcfg hi hexec hok
  obtain ⟨u, heffect, rfl⟩ := Effect.of_exec_ok hexec hok
  rcases hi with rfl | rfl
  · obtain ⟨p, hplan, rfl, rfl⟩ := heffect
    exact ((embedPlan_ok_iff s p).mp hplan).payloadRegionClear hcfg
  · obtain ⟨p, hplan, rfl, rfl⟩ := heffect
    exact ((extractPlan_ok_iff s p).mp hplan).payloadRegionClear

end Sys2Proof.Proofs.ResetAndHazards
